-- ==== Sys2Proof/Word.lean ====
section
/-! DEFINITION. The widths of HUFFENC's values (00_scope.md rule R6, rule R7: every value is an unsigned
bit vector) and the record type of the node arena (10_state.md rule R23). -/

namespace Sys2Proof

/-- A command word, and the data of a response: CMD_W = RSP_W = 32 (rule R6). -/
abbrev Word := BitVec 32

/-- A byte value or symbol, and a byte of the output stream: SYM_W = 8 (rule R6). -/
abbrev Byte := BitVec 8

/-- A frequency count: FREQ_W = 32 (rule R6, rule R22). -/
abbrev Freq := BitVec 32

/-- A node weight: WT_W = FREQ_W + 8 = 40 (rule R6, rule R23). -/
abbrev Weight := BitVec 40

/-- A node handle: H_W = 9 (rule R6). -/
abbrev Handle := BitVec 9

/-- The `kind` bit of a node record (rule R23). -/
inductive NodeKind where
  /-- kind = 0: "a merge of two subtrees" -/
  | internal
  /-- kind = 1: "holds the byte value" -/
  | leaf
  deriving DecidableEq, Repr, Inhabited

/-- A record of the arena NODE (rule R23). -/
structure Node where
  kind   : NodeKind
  /-- The byte value of a leaf, 0 in an internal node. -/
  sym    : Byte
  weight : Weight
  /-- Handle of the left child, NIL in a leaf. -/
  left   : Handle
  /-- Handle of the right child, NIL in a leaf. -/
  right  : Handle
  deriving DecidableEq, Repr, Inhabited

end Sys2Proof
end

