-- ==== Sys2Proof/Syntax.lean ====
section
/-! DEFINITION. The 18 commands of HUFFENC (30_encoding.md rule R83), one constructor for each row of
spec/opcode_table.json, with the operands of 30_encoding.md rule R82. -/

namespace Sys2Proof

/-- A command (30_encoding.md rule R83). Operands are unsigned and used as they stand (rule R82). -/
inductive Instr where
  /-- `NOP`, opcode 0x00, rule R100 -/
  | nop
  /-- `CLR`, opcode 0x01, rule R101 -/
  | clr
  /-- `COUNT sym`, opcode 0x02, rule R102 -/
  | count (sym : Byte)
  /-- `BUILD`, opcode 0x03, rule R131 -/
  | build
  /-- `GEN`, opcode 0x04, rule R141 -/
  | gen
  /-- `ENC sym`, opcode 0x05, rule R151 -/
  | enc (sym : Byte)
  /-- `FLUSH`, opcode 0x06, rule R152 -/
  | flush
  /-- `PQ_INIT`, opcode 0x10, rule R118 -/
  | pqInit
  /-- `LEAF sym`, opcode 0x11, rule R119 -/
  | leaf (sym : Byte)
  /-- `PQ_EXT`, opcode 0x12, rule R120 -/
  | pqExt
  /-- `MERGE`, opcode 0x13, rule R130 -/
  | merge
  /-- `RD_STATUS`, opcode 0x20, rule R160 -/
  | rdStatus
  /-- `RD_PQSTAT`, opcode 0x21, rule R161 -/
  | rdPqstat
  /-- `RD_FREQ sym`, opcode 0x22, rule R162 -/
  | rdFreq (sym : Byte)
  /-- `RD_PQ idx`, opcode 0x23, rule R163 -/
  | rdPq (idx : BitVec 9)
  /-- `RD_NODE h, sel`, opcode 0x24, rule R164; sel 0 = LINKS, 1 = WT_LO, 2 = WT_HI (rule R82) -/
  | rdNode (h : Handle) (sel : BitVec 2)
  /-- `RD_CLEN sym`, opcode 0x25, rule R165 -/
  | rdClen (sym : Byte)
  /-- `RD_CODE sym, word`, opcode 0x26, rule R166 -/
  | rdCode (sym : Byte) (word : BitVec 3)
  deriving DecidableEq, Repr

end Sys2Proof
end

