-- ==== Sys2Proof/WellFormed.lean ====
section
/-! DEFINITION. Which terms of `Instr` are commands. The operand types already hold every operand to its
field's width (30_encoding.md rule R81); the one further condition is on the selector of `RD_NODE`. -/

namespace Sys2Proof

/-- "`sel` ... 3 is not a legal encoding" (30_encoding.md rule R82, rule R86 (c)); every other operand value
of every command is legal (rule R82: an out-of-range idx or h faults at execution, not at decode). -/
def Instr.wellFormed : Instr → Bool
  | .rdNode _ sel => sel != 3#2
  | .nop | .clr | .count _ | .build | .gen | .enc _ | .flush => true
  | .pqInit | .leaf _ | .pqExt | .merge => true
  | .rdStatus | .rdPqstat | .rdFreq _ | .rdPq _ | .rdClen _ | .rdCode _ _ => true

end Sys2Proof
end

