-- ==== Sys2Proof/Decode.lean ====
section
/-! DEFINITION. The total decoder of command words and the encoder (30_encoding.md rule R80 to rule R86). -/

namespace Sys2Proof

/-- Why a word decodes to ILLEGAL (30_encoding.md rule R86, its three cases). The reason is the model's: the
hardware reports every one of them as ERR_ILLCMD. -/
inductive Illegal where
  /-- rule R86 (a): an opcode not in rule R83 -/
  | opcode
  /-- rule R86 (b): a legal opcode with a "zero" field that is not zero -/
  | zeroField
  /-- rule R86 (c): `RD_NODE` with sel = 3 -/
  | selector
  deriving DecidableEq, Repr

/-! ## Fields of a command word (rule R81, rule R82) -/

/-- Bits 31:24, the opcode in every format. -/
def opcodeOf (w : Word) : BitVec 8 := w.extractLsb' 24 8

/-- Bits 7:0 of formats S and C. -/
def symOf (w : Word) : Byte := w.extractLsb' 0 8

/-- Bits 8:0 of format P. -/
def idxOf (w : Word) : BitVec 9 := w.extractLsb' 0 9

/-- Bits 8:0 of format H. -/
def handleOf (w : Word) : Handle := w.extractLsb' 0 9

/-- Bits 17:16 of format H. -/
def selOf (w : Word) : BitVec 2 := w.extractLsb' 16 2

/-- Bits 18:16 of format C. -/
def codeWordOf (w : Word) : BitVec 3 := w.extractLsb' 16 3

/-! ## The five formats (rule R81): the command, if the "zero" fields are zero -/

/-- Format N: bits 23:0 are zero. -/
def formatN (w : Word) (i : Instr) : Except Illegal Instr :=
  if w.extractLsb' 0 24 = 0#24 then .ok i else .error .zeroField

/-- Format S: bits 23:8 are zero. -/
def formatS (w : Word) (i : Byte → Instr) : Except Illegal Instr :=
  if w.extractLsb' 8 16 = 0#16 then .ok (i (symOf w)) else .error .zeroField

/-- Format P: bits 23:9 are zero. -/
def formatP (w : Word) (i : BitVec 9 → Instr) : Except Illegal Instr :=
  if w.extractLsb' 9 15 = 0#15 then .ok (i (idxOf w)) else .error .zeroField

/-- Format H: bits 23:18 and 15:9 are zero, and the selector is not 3. -/
def formatH (w : Word) (i : Handle → BitVec 2 → Instr) : Except Illegal Instr :=
  if w.extractLsb' 18 6 = 0#6 ∧ w.extractLsb' 9 7 = 0#7 then
    if selOf w = 3#2 then .error .selector else .ok (i (handleOf w) (selOf w))
  else .error .zeroField

/-- Format C: bits 23:19 and 15:8 are zero. -/
def formatC (w : Word) (i : Byte → BitVec 3 → Instr) : Except Illegal Instr :=
  if w.extractLsb' 19 5 = 0#5 ∧ w.extractLsb' 8 8 = 0#8 then .ok (i (symOf w) (codeWordOf w))
  else .error .zeroField

/-! ## The decoder (rule R85, the opcodes of rule R83) -/

/-- `decode(w)` (rule R85): total on all 2^32 words, depending on the word alone. -/
def decode (w : Word) : Except Illegal Instr :=
  let op := opcodeOf w
  if op = 0x00#8 then formatN w .nop
  else if op = 0x01#8 then formatN w .clr
  else if op = 0x02#8 then formatS w .count
  else if op = 0x03#8 then formatN w .build
  else if op = 0x04#8 then formatN w .gen
  else if op = 0x05#8 then formatS w .enc
  else if op = 0x06#8 then formatN w .flush
  else if op = 0x10#8 then formatN w .pqInit
  else if op = 0x11#8 then formatS w .leaf
  else if op = 0x12#8 then formatN w .pqExt
  else if op = 0x13#8 then formatN w .merge
  else if op = 0x20#8 then formatN w .rdStatus
  else if op = 0x21#8 then formatN w .rdPqstat
  else if op = 0x22#8 then formatS w .rdFreq
  else if op = 0x23#8 then formatP w .rdPq
  else if op = 0x24#8 then formatH w .rdNode
  else if op = 0x25#8 then formatS w .rdClen
  else if op = 0x26#8 then formatC w .rdCode
  else .error .opcode

/-- The instruction the decoder reads from the table word `w` of `nbits` bits: a command is one 32-bit word
(rule R80), the bits above `nbits` are 0. -/
def decodeTableWord (nbits w : Nat) : Option Instr :=
  (decode (BitVec.ofNat 32 (w % 2 ^ nbits))).toOption

/-! ## The encoder, written from the format tables of rule R81 and the opcodes of rule R83 -/

/-- The opcode of a command (rule R83). -/
def Instr.opcode : Instr → BitVec 8
  | .nop        => 0x00#8
  | .clr        => 0x01#8
  | .count _    => 0x02#8
  | .build      => 0x03#8
  | .gen        => 0x04#8
  | .enc _      => 0x05#8
  | .flush      => 0x06#8
  | .pqInit     => 0x10#8
  | .leaf _     => 0x11#8
  | .pqExt      => 0x12#8
  | .merge      => 0x13#8
  | .rdStatus   => 0x20#8
  | .rdPqstat   => 0x21#8
  | .rdFreq _   => 0x22#8
  | .rdPq _     => 0x23#8
  | .rdNode _ _ => 0x24#8
  | .rdClen _   => 0x25#8
  | .rdCode _ _ => 0x26#8

/-- Bits 23:0 of a command's word: its format's fields, most significant first (rule R81). -/
def Instr.operandBits : Instr → BitVec 24
  | .nop | .clr | .build | .gen | .flush | .pqInit | .pqExt | .merge | .rdStatus | .rdPqstat => 0#24
  | .count sym | .enc sym | .leaf sym | .rdFreq sym | .rdClen sym => 0#16 ++ sym
  | .rdPq idx        => 0#15 ++ idx
  | .rdNode h sel    => 0#6 ++ sel ++ 0#7 ++ h
  | .rdCode sym word => 0#5 ++ word ++ 0#8 ++ sym

/-- The word of a command. -/
def encode (i : Instr) : Word := i.opcode ++ i.operandBits

/-- A row of the opcode table: the mask of the fixed bits and their value (rule R81). -/
structure Row where
  mask  : Word
  value : Word
  deriving DecidableEq, Repr

/-- The mask of a command's format (rule R81). -/
def Instr.mask : Instr → Word
  | .nop | .clr | .build | .gen | .flush | .pqInit | .pqExt | .merge | .rdStatus | .rdPqstat => 0xFFFFFFFF#32
  | .count _ | .enc _ | .leaf _ | .rdFreq _ | .rdClen _ => 0xFFFFFF00#32
  | .rdPq _     => 0xFFFFFE00#32
  | .rdNode _ _ => 0xFFFCFE00#32
  | .rdCode _ _ => 0xFFF8FF00#32

/-- The table row of a command: "the match value of a command is its opcode shifted left by 24" (rule R81). -/
def Instr.row (i : Instr) : Row := ⟨i.mask, i.opcode.setWidth 32 <<< 24⟩

/-- The 18 rows of spec/opcode_table.json, mask and match. -/
def opcodeTable : List Row :=
  [⟨0xFFFFFFFF#32, 0x00000000#32⟩, ⟨0xFFFFFFFF#32, 0x01000000#32⟩, ⟨0xFFFFFF00#32, 0x02000000#32⟩,
   ⟨0xFFFFFFFF#32, 0x03000000#32⟩, ⟨0xFFFFFFFF#32, 0x04000000#32⟩, ⟨0xFFFFFF00#32, 0x05000000#32⟩] ++
  [⟨0xFFFFFFFF#32, 0x06000000#32⟩, ⟨0xFFFFFFFF#32, 0x10000000#32⟩, ⟨0xFFFFFF00#32, 0x11000000#32⟩,
   ⟨0xFFFFFFFF#32, 0x12000000#32⟩, ⟨0xFFFFFFFF#32, 0x13000000#32⟩, ⟨0xFFFFFFFF#32, 0x20000000#32⟩] ++
  [⟨0xFFFFFFFF#32, 0x21000000#32⟩, ⟨0xFFFFFF00#32, 0x22000000#32⟩, ⟨0xFFFFFE00#32, 0x23000000#32⟩,
   ⟨0xFFFCFE00#32, 0x24000000#32⟩, ⟨0xFFFFFF00#32, 0x25000000#32⟩, ⟨0xFFF8FF00#32, 0x26000000#32⟩]

/-- A row matches a word when the word's fixed bits have the row's value. -/
def Row.accepts (r : Row) (w : Word) : Bool := w &&& r.mask == r.value

end Sys2Proof
end

