-- ==== Sys2Proof/Config.lean ====
section
/-! DEFINITION. The parameters of HUFFENC (00_scope.md rule R6) and the free values: what a read outside
an array's index range would give. The spec has no such read (00_scope.md rule R8), and no run of the model
makes one; the free values only keep the accessors total without choosing a number. -/

namespace Sys2Proof.Config

/-- PQ_CAP, the capacity of the heap array (rule R6). -/
abbrev pqCap : Nat := 256

/-- NNODE_MAX, the number of records of the node arena (rule R6). -/
abbrev nnodeMax : Nat := 511

/-- MAXLEN, the largest code length (rule R6, rule R143). -/
abbrev maxLen : Nat := 256

/-- NIL, the handle that means "no child" (rule R6). -/
abbrev nil : Handle := 0x1FF#9

/-- The largest frequency count, 2^32 - 1 (40_control_freq.md rule R102). -/
abbrev freqMax : Freq := 0xFFFFFFFF#32

/-- FREE VALUE (log entry 4): what `NODE[NIL]` would be; NIL "indexes nothing" (20_memory.md rule R51). -/
opaque nodeOfNil : Node

/-- FREE VALUE (log entry 4): what `HEAP[i]` would be for i > 255 (20_memory.md rule R51). -/
opaque heapBeyond : Nat → Handle

/-- FREE VALUE (log entry 4): what bit k of `CBITS[b]` would be where no `GEN` has written that bit
(10_state.md rule R28: unspecified, and no rule reads it). -/
opaque codeBitBeyond : Byte → Nat → Bool

end Sys2Proof.Config
end

