-- ==== Sys2Proof/Machine/State.lean ====
section
/-! DEFINITION. The state of HUFFENC: the eight scalar registers and five arrays of 10_state.md, and the three
ports and the reset input of 20_memory.md rule R52 as plain data. -/

namespace Sys2Proof.Machine

/-- One thing the host does to the block (70_reset_and_hazards.md rule R203). -/
inductive HostEvent where
  /-- R203 (a): the host presents a command word on CMD, and the sink accepts every byte the command emits. -/
  | command (w : Word)
  /-- R203 (d): the host asserts RST while the core is idle. -/
  | rst
  /-- R203 (a), (d): the host presents a command word and asserts RST while the command is in progress, when the
  sink has accepted at most the first `taken` of the bytes the command emits (rule R190). -/
  | commandThenRst (w : Word) (taken : Nat)
  /-- R203 (a), (c): the host presents a command word, and the sink accepts at most `taken` of the bytes the command
  emits and never accepts another one (rule R201). -/
  | commandWithStalledSink (w : Word) (taken : Nat)
  deriving DecidableEq, Repr

/-- A response on the RSP port: one error bit and 32 data bits (30_encoding.md rule R84). -/
structure Response where
  err  : Bool
  data : Word
  deriving DecidableEq, Repr

/-- The state. A field's docstring gives its rule of 10_state.md. -/
structure State where
  /-- R22: `FREQ[0..255]`, the frequency table. -/
  freq : Vector Freq 256
  /-- R23: `NODE[0..510]`, the node arena. -/
  node : Vector Node 511
  /-- R24: `NNODES`, the number of allocated arena records. -/
  nnodes : BitVec 9
  /-- R25: `HEAP[0..255]`, the heap array of node handles. -/
  heap : Vector Handle 256
  /-- R25: `SIZE`, the number of live heap entries. -/
  size : BitVec 9
  /-- R27: `NEXTSYM`, the smallest symbol a `LEAF` may still take. -/
  nextsym : BitVec 9
  /-- R28: `CLEN[0..255]`, the code lengths. -/
  clen : Vector (BitVec 9) 256
  /-- R28: `CBITS[0..255]`, each entry the list of the bits `GEN` wrote, c_0 first ("A model may hold the table as
  256 lists of bits"). -/
  cbits : Vector (List Bool) 256
  /-- R29: `CODE_VALID`. -/
  codeValid : Bool
  /-- R30: `ACC`, the bit accumulator. -/
  acc : Byte
  /-- R30: `CNT`, the number of bits held in ACC. -/
  cnt : BitVec 3
  /-- R31: `FAULT`. -/
  fault : Bool
  /-- R31: `ERR`, the cause code. -/
  err : BitVec 4
  /-- The CMD port and RST: what the host will do, next thing first (20_memory.md rule R52). The model's own. -/
  cmd : List HostEvent
  /-- The RSP port: the responses issued so far, oldest first (20_memory.md rule R52, 10_state.md R37 (d)). -/
  rsp : List Response
  /-- The OUT port: the bytes the sink has accepted so far, oldest first (20_memory.md rule R56, 10_state.md R37 (c)). -/
  out : List Byte
  deriving DecidableEq, Repr

/-- The reasons the machine stops. A HUFFENC fault (60_exceptions.md rule R172) is not one of them: it is a next
state with FAULT = 1. -/
inductive Fault where
  /-- Raised by the step for `HostEvent.commandWithStalledSink` when the command emits more bytes than the sink
  accepts: "the command never completes" (93_implementation_defined.md U17, rule R201). Safe: the machine stops. -/
  | sinkStalled
  deriving DecidableEq, Repr

/-- The reasons an instruction is refused. -/
inductive Refusal where
  /-- Raised by the arm of `exec` of an instruction that has no meaning yet; no arm raises it now. Safe. -/
  | notModelled (mnemonic : String)
  deriving DecidableEq, Repr

/-- The three outcomes of a step, for this machine. -/
abbrev Result := Host.Outcome State Fault Refusal

/-- The state after reset (10_state.md rule R36). HEAP and NODE are "unspecified" there: the zeros are log entry 1's.
CBITS holds no bit. The host has done nothing yet, and nothing has left the block. -/
def State.reset : State where
  freq      := Vector.replicate 256 0#32
  node      := Vector.replicate 511 ⟨.internal, 0#8, 0#40, 0#9, 0#9⟩
  nnodes    := 0#9
  heap      := Vector.replicate 256 0#9
  size      := 0#9
  nextsym   := 0#9
  clen      := Vector.replicate 256 0#9
  cbits     := Vector.replicate 256 []
  codeValid := false
  acc       := 0#8
  cnt       := 0#3
  fault     := false
  err       := 0#4
  cmd       := []
  rsp       := []
  out       := []

end Sys2Proof.Machine
end

