-- ==== Sys2Proof/Machine/Ops.lean ====
section
/-! DEFINITION. The shared operations: reading and writing the arrays (00_scope.md rule R8), responses and the output
stream, taking a fault and leaving the faulted state (60_exceptions.md rule R172, rule R176), the dispatch of a command
(rule R174), and the internal operations of the priority queue (41_priority_queue.md rule R110 to rule R117). -/

namespace Sys2Proof.Machine

/-! ## The arrays (20_memory.md rule R51, 00_scope.md rule R8) -/

/-- `FREQ[b]` -/
def freqAt (s : State) (b : Byte) : Freq := s.freq[b.toNat]'b.isLt

/-- `FREQ[b] <- v` -/
def setFreq (b : Byte) (v : Freq) (s : State) : State :=
  { s with freq := s.freq.set b.toNat v b.isLt }

/-- `NODE[h]`; the handle NIL "indexes nothing" (rule R51; log entry 4). -/
def nodeAt (s : State) (h : Handle) : Node :=
  if hh : h.toNat < 511 then s.node[h.toNat] else Config.nodeOfNil

/-- Write record h of an arena; NIL "indexes nothing" (rule R51; log entry 4). -/
def nodeSet (a : Vector Node 511) (h : Handle) (n : Node) : Vector Node 511 :=
  if hh : h.toNat < 511 then a.set h.toNat n else a

/-- `wt(h)`, which abbreviates `NODE[h].weight` (rule R8). -/
def wt (s : State) (h : Handle) : Weight := (nodeAt s h).weight

/-- Position i of a heap array; there is none above 255 (rule R51; log entry 4). -/
def heapGet (a : Vector Handle 256) (i : Nat) : Handle :=
  if h : i < 256 then a[i] else Config.heapBeyond i

/-- Write position i of a heap array; there is none above 255 (rule R51; log entry 4). -/
def heapSet (a : Vector Handle 256) (i : Nat) (v : Handle) : Vector Handle 256 :=
  if h : i < 256 then a.set i v else a

/-- `swap(HEAP[i], HEAP[j])` (00_scope.md rule R9). -/
def heapSwap (a : Vector Handle 256) (i j : Nat) : Vector Handle 256 :=
  heapSet (heapSet a i (heapGet a j)) j (heapGet a i)

/-- `HEAP[i]` -/
def heapAt (s : State) (i : Nat) : Handle := heapGet s.heap i

/-- `CLEN[b]` -/
def clenAt (s : State) (b : Byte) : BitVec 9 := s.clen[b.toNat]'b.isLt

/-- `CBITS[b]`, the list of the bits written. -/
def cbitsAt (s : State) (b : Byte) : List Bool := s.cbits[b.toNat]'b.isLt

/-- Bit k of `CBITS[b]`, c_k; a bit that no `GEN` wrote is unspecified (10_state.md rule R28; log entry 4). -/
def codeBit (s : State) (b : Byte) (k : Nat) : Bool :=
  (cbitsAt s b)[k]?.getD (Config.codeBitBeyond b k)

/-- The code of byte value b: `c_0 c_1 ... c_{CLEN[b]-1}` (10_state.md rule R28). -/
def codeOf (s : State) (b : Byte) : List Bool :=
  (List.range (clenAt s b).toNat).map (codeBit s b)

/-- `CLEN[b] <- length of p ; CBITS[b] <- p` (43_code_generator.md rule R141). -/
def setCode (b : Byte) (p : List Bool) (s : State) : State :=
  { s with
    clen  := s.clen.set b.toNat (BitVec.ofNat 9 p.length) b.isLt
    cbits := s.cbits.set b.toNat p b.isLt }

/-- The byte values in ascending order: `for b in 0..255` (00_scope.md rule R9). -/
def allSyms : List Byte := (List.range 256).map (BitVec.ofNat 8)

/-! ## Responses and the output stream -/

/-- `respond(d)`: one response, error bit 0 (30_encoding.md rule R84). -/
def respond (d : Word) (s : State) : State := { s with rsp := s.rsp ++ [⟨false, d⟩] }

/-- The response `(1, 0)` of a command that is refused (30_encoding.md rule R84, 60_exceptions.md rule R175). -/
def refuse (s : State) : State := { s with rsp := s.rsp ++ [⟨true, 0#32⟩] }

/-- `emit(b)` appends b at the end of OUT (20_memory.md rule R56). -/
def emit (b : Byte) (s : State) : State := { s with out := s.out ++ [b] }

/-! ## Faults -/

/-- The fault causes (60_exceptions.md rule R170). -/
inductive Cause where
  | illcmd | seq | empty | pqEmpty | zerow | order | nocode | ovf | range | depth | cap
  deriving DecidableEq, Repr

/-- The cause codes (60_exceptions.md rule R170). -/
def Cause.code : Cause → BitVec 4
  | .illcmd  => 1#4
  | .seq     => 2#4
  | .empty   => 3#4
  | .pqEmpty => 4#4
  | .zerow   => 5#4
  | .order   => 6#4
  | .nocode  => 7#4
  | .ovf     => 8#4
  | .range   => 9#4
  | .depth   => 10#4
  | .cap     => 11#4

/-- `raise E`, taking a fault (60_exceptions.md rule R172): "FAULT <- 1, ERR <- code of E, response <- (1, 0)", and no
other state element changes. -/
def raise (c : Cause) (s : State) : State := refuse { s with fault := true, err := c.code }

/-- The state element writes of `CLR` (40_control_freq.md rule R101): the only way to leave the faulted state short of
reset (60_exceptions.md rule R176). HEAP, NODE and CBITS become unreadable (log entry 2). -/
def clearState (s : State) : State :=
  { s with
    freq := Vector.replicate 256 0#32
    clen := Vector.replicate 256 0#9
    size := 0#9, nnodes := 0#9, nextsym := 0#9
    codeValid := false
    acc := 0#8, cnt := 0#3
    fault := false, err := 0#4 }

/-- RST (70_reset_and_hazards.md rule R190): every state element takes its reset value; what the host will do next, the
responses it has received and the bytes the sink has accepted are not state of the core (10_state.md rule R37). -/
def resetCore (s : State) : State :=
  { State.reset with cmd := s.cmd, rsp := s.rsp, out := s.out }

/-- `require cond else raise E` (00_scope.md rule R9). -/
def require (cond : Bool) (e : Cause) : Except Cause Unit := if cond then .ok () else .error e

/-- The end of a command: the state and response data its pseudocode gives, or the fault of its first failing check. The
fault is raised in the state BEFORE the command, so "a command either completes entirely or changes only FAULT and ERR"
(60_exceptions.md rule R173), for every check wherever it stands in the pseudocode. -/
def complete (s : State) : Except Cause (State × Word) → State
  | .ok (t, d) => respond d t
  | .error e   => raise e s

/-- The dispatch of a command other than `CLR` and the reads (60_exceptions.md rule R174): refused while FAULT = 1. -/
def command (s : State) (body : Except Cause (State × Word)) : Result :=
  .next (if s.fault then refuse s else complete s body)

/-- The dispatch of a read command (60_exceptions.md rule R174, 45_read_commands.md rule R167): it runs whether FAULT is 0
or 1 and changes no state element; when its index is out of range it raises the fault, or is refused while FAULT = 1. -/
def readCommand (s : State) (d : Except Cause Word) : Result :=
  .next (match d with
    | .ok d    => respond d s
    | .error e => if s.fault then refuse s else raise e s)

/-- Executing ILLEGAL: "faults with ERR_ILLCMD when FAULT = 0 and is refused when FAULT = 1" (30_encoding.md rule R85). -/
def execIllegal (s : State) : Result := command s (.error .illcmd)

/-! ## The priority queue's internal operations (41_priority_queue.md)

The sift loops work on the heap array, given the weight of a handle: no node record changes while they run. -/

/-- The loop of `pq_insert` from position i (rule R112); i decreases, so fuel i is enough. -/
def siftUp (w : Handle → Weight) : Nat → Vector Handle 256 → Nat → Vector Handle 256
  | 0, a, _ => a
  | fuel + 1, a, i =>
    if i = 0 then a
    else
      let p := (i - 1) / 2
      if w (heapGet a i) < w (heapGet a p) then siftUp w fuel (heapSwap a i p) p else a

/-- One turn's choice in `sift_down(i)` (rule R115): the position s after the two comparisons. -/
def siftChoice (w : Handle → Weight) (n : Nat) (a : Vector Handle 256) (i : Nat) : Nat :=
  let l := 2 * i + 1
  let r := 2 * i + 2
  let s := if l < n ∧ w (heapGet a l) < w (heapGet a i) then l else i
  if r < n ∧ w (heapGet a r) < w (heapGet a s) then r else s

/-- `sift_down(i)` with SIZE = n (rule R115); i increases below n, so fuel n is enough. -/
def siftDown (w : Handle → Weight) (n : Nat) : Nat → Vector Handle 256 → Nat → Vector Handle 256
  | 0, a, _ => a
  | fuel + 1, a, i =>
    let s := siftChoice w n a i
    if s = i then a else siftDown w n fuel (heapSwap a i s) s

/-- `pq_insert(h)` (rule R112). -/
def pqInsert (h : Handle) (s : State) : Except Cause State := do
  require (s.size.toNat < Config.pqCap) .cap
  let i := s.size.toNat
  return { s with heap := siftUp (wt s) i (heapSet s.heap i h) i, size := s.size + 1#9 }

/-- `pq_extract_min()` (rule R114). -/
def pqExtractMin (s : State) : Except Cause (State × Handle) := do
  require (1 ≤ s.size.toNat) .pqEmpty
  let m := heapAt s 0
  let n := s.size.toNat - 1
  return ({ s with heap := siftDown (wt s) n n (heapSet s.heap 0 (heapAt s n)) 0, size := s.size - 1#9 }, m)

/-- `node_alloc(kind, sym, weight, left, right)` (rule R117). -/
def nodeAlloc (n : Node) (s : State) : Except Cause (State × Handle) := do
  require (s.nnodes.toNat < Config.nnodeMax) .cap
  return ({ s with node := nodeSet s.node s.nnodes n, nnodes := s.nnodes + 1#9 }, s.nnodes)

/-- Empty queue and arena: `SIZE <- 0 ; NNODES <- 0 ; NEXTSYM <- 0` (rule R118, and the first step of `BUILD`). -/
def emptyQueue (s : State) : State := { s with size := 0#9, nnodes := 0#9, nextsym := 0#9 }

/-- Create the leaf for a byte value and insert it (rule R119 after its checks; the body of the scan of rule R131). -/
def leafStep (sym : Byte) (s : State) : Except Cause (State × Handle) := do
  let (s, h) ← nodeAlloc ⟨.leaf, sym, (freqAt s sym).setWidth 40, Config.nil, Config.nil⟩ s
  let s ← pqInsert h s
  return ({ s with nextsym := sym.setWidth 9 + 1#9 }, h)

/-- One merge step (42_tree_builder.md rule R130 after its check; the loop body of rule R131). -/
def mergeStep (s : State) : Except Cause (State × Handle) := do
  let (s, l) ← pqExtractMin s
  let (s, r) ← pqExtractMin s
  let (s, p) ← nodeAlloc ⟨.internal, 0#8, wt s l + wt s r, l, r⟩ s
  let s ← pqInsert p s
  return (s, p)

end Sys2Proof.Machine
end

