-- ==== Sys2Proof/Machine/BitPacker.lean ====
section
/-! DEFINITION. The Bit-Packing Encoder (44_bit_packer.md rule R150 to rule R152). -/

namespace Sys2Proof.Machine

/-- `shift_bit(c)` (rule R150). -/
def shiftBit (c : Bool) (s : State) : State :=
  let acc := (s.acc <<< 1) ||| (BitVec.ofBool c).setWidth 8
  let n := s.cnt.toNat + 1
  if n = 8 then { emit acc s with acc := 0#8, cnt := 0#3 }
  else { s with acc := acc, cnt := BitVec.ofNat 3 n }

/-- Shift a bit string in, its first bit first (rule R151). -/
def shiftBits (cs : List Bool) (s : State) : State := cs.foldl (fun s c => shiftBit c s) s

/-- The pseudocode of `ENC` (rule R151). -/
def encBody (sym : Byte) (s : State) : Except Cause (State × Word) := do
  require (s.codeValid = true) .seq
  require (clenAt s sym ≠ 0#9) .nocode
  return (shiftBits (codeOf s sym) s, 0#32)

/-- `ENC sym` (rule R151). -/
def execEnc (sym : Byte) (s : State) : Result := command s (encBody sym s)

/-- The pseudocode of `FLUSH` (rule R152) before its response. -/
def flushBits (s : State) : State :=
  if s.cnt = 0#3 then s
  else { emit (s.acc <<< (8 - s.cnt.toNat)) s with acc := 0#8, cnt := 0#3 }

/-- `FLUSH` (rule R152). -/
def execFlush (s : State) : Result := command s (.ok (flushBits s, 0#32))

end Sys2Proof.Machine
end

