-- ==== Sys2Proof/Machine/CodeGenerator.lean ====
section
/-! DEFINITION. The Code Generator (43_code_generator.md rule R140 to rule R145). -/

namespace Sys2Proof.Machine

/-- `depth(h) <= n` (rule R140): 0 for a leaf, 1 + the larger of the children's for an internal node. It is false at every n
for a node from which the child links never end. -/
def depthAtMost (s : State) : Nat → Handle → Bool
  | 0, h => decide ((nodeAt s h).kind = .leaf)
  | n + 1, h =>
    match (nodeAt s h).kind with
    | .leaf     => true
    | .internal => depthAtMost s n (nodeAt s h).left && depthAtMost s n (nodeAt s h).right

/-- Every leaf ℓ under h with `path(h, ℓ)`, as (sym of ℓ, path), left subtree first (rule R140, rule R145). Fuel `depth(h)` is
enough. -/
def leafPaths (s : State) : Nat → Handle → List (Byte × List Bool)
  | 0, h =>
    match (nodeAt s h).kind with
    | .leaf     => [((nodeAt s h).sym, [])]
    | .internal => []
  | n + 1, h =>
    match (nodeAt s h).kind with
    | .leaf     => [((nodeAt s h).sym, [])]
    | .internal =>
      (leafPaths s n (nodeAt s h).left).map (fun e => (e.1, false :: e.2)) ++
      (leafPaths s n (nodeAt s h).right).map (fun e => (e.1, true :: e.2))

/-- The (byte value, code) entries `GEN` writes for the tree under root (rule R141): the path of every leaf, and the one-bit
code "0" for a root that is itself a leaf (rule R142). -/
def genEntries (s : State) (root : Handle) : List (Byte × List Bool) :=
  match (nodeAt s root).kind with
  | .leaf     => [((nodeAt s root).sym, [false])]
  | .internal => leafPaths s Config.maxLen root

/-- Write the entries into the code table, in order. -/
def writeCodes (es : List (Byte × List Bool)) (s : State) : State :=
  es.foldl (fun s e => setCode e.1 e.2 s) s

/-- `for b in 0..255: CLEN[b] <- 0` (rule R141). -/
def clearCodes (s : State) : State := { s with clen := Vector.replicate 256 0#9 }

/-- The pseudocode of `GEN` (rule R141). -/
def genBody (s : State) : Except Cause (State × Word) := do
  require (s.cnt = 0#3) .seq
  require (s.size ≠ 0#9) .empty
  require (s.size = 1#9) .seq
  let root := heapAt s 0
  require (depthAtMost s Config.maxLen root) .depth
  return ({ writeCodes (genEntries s root) (clearCodes s) with codeValid := true }, 0#32)

/-- `GEN` (rule R141). -/
def execGen (s : State) : Result := command s (genBody s)

end Sys2Proof.Machine
end

