-- ==== Sys2Proof/Machine/Control.lean ====
section
/-! DEFINITION. The control commands (40_control_freq.md rule R100, rule R101). -/

namespace Sys2Proof.Machine

/-- `NOP` (rule R100): `respond(0)`. -/
def execNop (s : State) : Result := command s (.ok (s, 0#32))

/-- `CLR` (rule R101): the state returns to its reset values; it "executes even when FAULT = 1". -/
def execClr (s : State) : Result := .next (respond 0#32 (clearState s))

end Sys2Proof.Machine
end

