-- ==== Sys2Proof/Machine/FreqCounter.lean ====
section
/-! DEFINITION. The Frequency Counter (40_control_freq.md rule R102). -/

namespace Sys2Proof.Machine

/-- The pseudocode of `COUNT` (rule R102). -/
def countBody (sym : Byte) (s : State) : Except Cause (State × Word) := do
  require (s.nnodes = 0#9) .seq
  require (freqAt s sym ≠ Config.freqMax) .ovf
  return (setFreq sym (freqAt s sym + 1#32) s, 0#32)

/-- `COUNT sym` (rule R102). -/
def execCount (sym : Byte) (s : State) : Result := command s (countBody sym s)

end Sys2Proof.Machine
end

