-- ==== Sys2Proof/Machine/PriorityQueue.lean ====
section
/-! DEFINITION. The commands of the Priority Queue (41_priority_queue.md rule R118 to rule R120). -/

namespace Sys2Proof.Machine

/-- `PQ_INIT` (rule R118): empties the queue and the arena. -/
def execPqInit (s : State) : Result := command s (.ok (emptyQueue s, 0#32))

/-- The pseudocode of `LEAF` (rule R119); the response is the new leaf's handle. -/
def leafBody (sym : Byte) (s : State) : Except Cause (State × Word) := do
  require (s.nextsym.toNat ≤ sym.toNat) .order
  require (freqAt s sym ≠ 0#32) .zerow
  let (s, h) ← leafStep sym s
  return (s, h.setWidth 32)

/-- `LEAF sym` (rule R119). -/
def execLeaf (sym : Byte) (s : State) : Result := command s (leafBody sym s)

/-- The pseudocode of `PQ_EXT` (rule R120); the response is the extracted handle. -/
def pqExtBody (s : State) : Except Cause (State × Word) := do
  require (1 ≤ s.size.toNat) .pqEmpty
  let (s, m) ← pqExtractMin s
  return (s, m.setWidth 32)

/-- `PQ_EXT` (rule R120). -/
def execPqExt (s : State) : Result := command s (pqExtBody s)

end Sys2Proof.Machine
end

