-- ==== Sys2Proof/Machine/Flags.lean ====
section
/-! DEFINITION. The two read-only status views, computed from the flags and scalar registers when they are read
(10_state.md rule R32, rule R33). HUFFENC has no arithmetic condition codes (rule R34). -/

namespace Sys2Proof.Machine

/-- `STATUS` (rule R32): bits 23:16 ACC, 15:11 zero, 10:8 CNT, 7:4 ERR, 3:2 zero, 1 CODE_VALID, 0 FAULT. -/
def statusView (s : State) : Word :=
  (s.acc ++ 0#5 ++ s.cnt ++ s.err ++ 0#2 ++ BitVec.ofBool s.codeValid ++ BitVec.ofBool s.fault).setWidth 32

/-- `PQSTAT` (rule R33): bits 28:20 NEXTSYM, 19 zero, 18:10 NNODES, 9 zero, 8:0 SIZE. -/
def pqstatView (s : State) : Word := (s.nextsym ++ 0#1 ++ s.nnodes ++ 0#1 ++ s.size).setWidth 32

end Sys2Proof.Machine
end

