-- ==== Sys2Proof/Machine/Operands.lean ====
section
/-! DEFINITION. The operand forms that are checked at execution, not at decode (30_encoding.md rule R82): a heap position
(format P), a node handle with its selector (format H), and a word of a code (format C). A symbol (format S) is used as it
stands. -/

namespace Sys2Proof.Machine

/-- `RD_PQ`'s operand: "values ≥ SIZE are out of range and fault at execution" (rule R82, 45_read_commands.md rule R163). -/
def heapOperand (s : State) (idx : BitVec 9) : Except Cause Handle := do
  require (idx.toNat < s.size.toNat) .range
  return heapAt s idx.toNat

/-- `RD_NODE`'s handle: "values ≥ NNODES (which include NIL = 511) are out of range and fault at execution" (rule R82,
45_read_commands.md rule R164). -/
def nodeOperand (s : State) (h : Handle) : Except Cause Node := do
  require (h.toNat < s.nnodes.toNat) .range
  return nodeAt s h

/-- The `kind` bit (10_state.md rule R23): 1 = leaf, 0 = internal. -/
def kindBit : NodeKind → BitVec 1
  | .internal => 0#1
  | .leaf     => 1#1

/-- The LINKS part of a node record: "bit 26 kind, bits 25:18 sym, bits 17:9 right, bits 8:0 left, bits 31:27 zero"
(45_read_commands.md rule R164). -/
def nodeLinks (n : Node) : Word := (kindBit n.kind ++ n.sym ++ n.right ++ n.left).setWidth 32

/-- The part of a node record that a legal `sel` selects (rule R82, 45_read_commands.md rule R164): 0 = LINKS, 1 = WT_LO,
2 = WT_HI. -/
def nodePart (n : Node) (sel : BitVec 2) : Word :=
  if sel = 0#2 then nodeLinks n
  else if sel = 1#2 then n.weight.extractLsb' 0 32
  else (n.weight.extractLsb' 32 8).setWidth 32

/-- Bit i of `RD_CODE`'s result seen from the first code bit: c_{32j + i}, or 0 at positions ≥ CLEN (45_read_commands.md
rule R166). -/
def codeWordBit (s : State) (sym : Byte) (j : BitVec 3) (i : Nat) : Bool :=
  let k := 32 * j.toNat + i
  decide (k < (clenAt s sym).toNat) && codeBit s sym k

/-- Word j of a code, the first code bit in bit 31 (45_read_commands.md rule R166). -/
def codeWord (s : State) (sym : Byte) (j : BitVec 3) : Word :=
  (List.range 32).foldl (fun d i => if codeWordBit s sym j i then d ||| BitVec.twoPow 32 (31 - i) else d) 0#32

end Sys2Proof.Machine
end

