-- ==== Sys2Proof/Machine/Reads.lean ====
section
/-! DEFINITION. The seven read commands (45_read_commands.md rule R160 to rule R167). -/

namespace Sys2Proof.Machine

/-- `RD_STATUS` (rule R160). -/
def execRdStatus (s : State) : Result := readCommand s (.ok (statusView s))

/-- `RD_PQSTAT` (rule R161). -/
def execRdPqstat (s : State) : Result := readCommand s (.ok (pqstatView s))

/-- `RD_FREQ sym` (rule R162). -/
def execRdFreq (sym : Byte) (s : State) : Result := readCommand s (.ok (freqAt s sym))

/-- `RD_PQ idx` (rule R163). -/
def execRdPq (idx : BitVec 9) (s : State) : Result :=
  readCommand s ((heapOperand s idx).map fun h => h.setWidth 32)

/-- `RD_NODE h, sel` (rule R164). The term with sel = 3 is no command (30_encoding.md rule R86 (c)) and no word decodes to it;
it executes as the ILLEGAL word its encoding is. -/
def execRdNode (h : Handle) (sel : BitVec 2) (s : State) : Result :=
  if sel = 3#2 then execIllegal s
  else readCommand s ((nodeOperand s h).map fun n => nodePart n sel)

/-- `RD_CLEN sym` (rule R165). -/
def execRdClen (sym : Byte) (s : State) : Result := readCommand s (.ok ((clenAt s sym).setWidth 32))

/-- `RD_CODE sym, word` (rule R166). -/
def execRdCode (sym : Byte) (word : BitVec 3) (s : State) : Result := readCommand s (.ok (codeWord s sym word))

end Sys2Proof.Machine
end

