-- ==== Sys2Proof/Machine/TreeBuilder.lean ====
section
/-! DEFINITION. The Huffman Tree Builder (42_tree_builder.md rule R130, rule R131). -/

namespace Sys2Proof.Machine

/-- The pseudocode of `MERGE` (rule R130); the response is the new node's handle. -/
def mergeBody (s : State) : Except Cause (State × Word) := do
  require (2 ≤ s.size.toNat) .pqEmpty
  let (s, p) ← mergeStep s
  return (s, p.setWidth 32)

/-- `MERGE` (rule R130). -/
def execMerge (s : State) : Result := command s (mergeBody s)

/-- The scan of `BUILD` (rule R131) over the byte values given: a leaf for each with a non-zero frequency. -/
def buildLeaves : List Byte → State → Except Cause State
  | [], s => .ok s
  | b :: bs, s =>
    if freqAt s b = 0#32 then buildLeaves bs s
    else do
      let (s, _) ← leafStep b s
      buildLeaves bs s

/-- The loop `while SIZE > 1` of `BUILD` (rule R131). A turn lowers SIZE by 1, so fuel SIZE is enough. -/
def mergeLoop : Nat → State → Except Cause State
  | 0, s => .ok s
  | fuel + 1, s =>
    if 1 < s.size.toNat then do
      let (s, _) ← mergeStep s
      mergeLoop fuel s
    else .ok s

/-- The byte values with a non-zero frequency, in ascending order (rule R131). -/
def presentSyms (s : State) : List Byte := allSyms.filter fun b => freqAt s b ≠ 0#32

/-- The pseudocode of `BUILD` (rule R131); the response is the root's handle, HEAP[0]. -/
def buildBody (s : State) : Except Cause (State × Word) := do
  require (allSyms.any fun b => freqAt s b ≠ 0#32) .empty
  let s ← buildLeaves allSyms (emptyQueue s)
  let s ← mergeLoop s.size.toNat s
  return (s, (heapAt s 0).setWidth 32)

/-- `BUILD` (rule R131). -/
def execBuild (s : State) : Result := command s (buildBody s)

end Sys2Proof.Machine
end

