-- ==== Sys2Proof/Machine/Dispatch.lean ====
section
/-! DEFINITION. exec: one arm for each command (60_exceptions.md rule R174: "run the rule of d"). -/

namespace Sys2Proof.Machine

def exec (i : Instr) (s : State) : Host.Outcome State Fault Refusal :=
  match i with
  | .nop => Sys2Proof.Machine.execNop s
  | .clr => Sys2Proof.Machine.execClr s
  | .count sym => Sys2Proof.Machine.execCount sym s
  | .build => Sys2Proof.Machine.execBuild s
  | .gen => Sys2Proof.Machine.execGen s
  | .enc sym => Sys2Proof.Machine.execEnc sym s
  | .flush => Sys2Proof.Machine.execFlush s
  | .pqInit => Sys2Proof.Machine.execPqInit s
  | .leaf sym => Sys2Proof.Machine.execLeaf sym s
  | .pqExt => Sys2Proof.Machine.execPqExt s
  | .merge => Sys2Proof.Machine.execMerge s
  | .rdStatus => Sys2Proof.Machine.execRdStatus s
  | .rdPqstat => Sys2Proof.Machine.execRdPqstat s
  | .rdFreq sym => Sys2Proof.Machine.execRdFreq sym s
  | .rdPq idx => Sys2Proof.Machine.execRdPq idx s
  | .rdNode h sel => Sys2Proof.Machine.execRdNode h sel s
  | .rdClen sym => Sys2Proof.Machine.execRdClen sym s
  | .rdCode sym word => Sys2Proof.Machine.execRdCode sym word s

end Sys2Proof.Machine
end

