-- ==== Sys2Proof/Machine/Ports.lean ====
section
/-! DEFINITION. What the block does on each thing the host does to it (20_memory.md rule R52, 60_exceptions.md rule R174,
70_reset_and_hazards.md rule R190, rule R201, rule R203). -/

namespace Sys2Proof.Machine

/-- The one step function on an accepted command word (60_exceptions.md rule R174): decode it, and run the command or
execute ILLEGAL. -/
def runWord (w : Word) (s : State) : Result :=
  match decode w with
  | .ok i    => exec i s
  | .error _ => execIllegal s

/-- The bytes a command emitted between the state before it and the state after it (20_memory.md rule R56). -/
def emittedBetween (before after : State) : List Byte := after.out.drop before.out.length

/-- RST while a command is in progress (70_reset_and_hazards.md rule R190), `t` being the state it would have completed in: the
reset state, no response, and of the command's bytes those the sink had accepted, at most `taken`. -/
def abandon (taken : Nat) (s t : State) : State :=
  resetCore { s with out := s.out ++ (emittedBetween s t).take taken }

/-- What the block does on a thing the host does (70_reset_and_hazards.md rule R203). -/
def onEvent (e : HostEvent) (s : State) : Result :=
  match e with
  | .command w => runWord w s
  | .rst => .next (resetCore s)
  | .commandThenRst w taken =>
    match runWord w s with
    | .next t    => .next (abandon taken s t)
    | .fault r   => .fault r
    | .refused r => .refused r
  | .commandWithStalledSink w taken =>
    match runWord w s with
    | .next t    => if (emittedBetween s t).length ≤ taken then .next t else .fault .sinkStalled
    | .fault r   => .fault r
    | .refused r => .refused r

end Sys2Proof.Machine
end

