-- ==== Sys2Proof/Machine/Step.lean ====
section
/-! DEFINITION. The step. "One accepted command is one step" (10_state.md rule R21); a step takes the next thing the host
does, and with none the core is idle and "keeps all state while idle" (60_exceptions.md rule R180). -/

namespace Sys2Proof.Machine

def step (s : State) : Host.Outcome State Fault Refusal :=
  match s.cmd with
  | [] => .next s
  | e :: rest => onEvent e { s with cmd := rest }

/-- s with the command word of the table word `w` presented next on the CMD port: HUFFENC "fetches no instructions", its
program is "the host's sequence of command words" (10_state.md rule R21). -/
def State.withFetchWord (s : State) (nbits w : Nat) : State :=
  { s with cmd := .command (BitVec.ofNat 32 (w % 2 ^ nbits)) :: s.cmd }

end Sys2Proof.Machine
end

