-- ==== Sys2Proof/Safety.lean ====
section
/-! DEFINITION. What counts as a safe run, and the terms the claims use: runs of commands, the reset values of
10_state.md rule R36, the invariants of rule R35, paths in the tree (43_code_generator.md rule R140), the bits of a
stream (20_memory.md rule R53), and when two states differ in dead storage alone (rule R36, rule R37). -/

namespace Sys2Proof

/-- The read commands `RD_*` (45_read_commands.md rule R167). -/
def Instr.isRead : Instr → Bool
  | .rdStatus | .rdPqstat | .rdFreq _ | .rdPq _ | .rdNode _ _ | .rdClen _ | .rdCode _ _ => true
  | .nop | .clr | .count _ | .build | .gen | .enc _ | .flush | .pqInit | .leaf _ | .pqExt | .merge => false

/-- The byte value that a command counts, if it is a `COUNT` (40_control_freq.md rule R102). -/
def Instr.counted : Instr → Option Byte
  | .count sym => some sym
  | .nop | .clr | .build | .gen | .enc _ | .flush | .pqInit | .leaf _ | .pqExt | .merge => none
  | .rdStatus | .rdPqstat | .rdFreq _ | .rdPq _ | .rdNode _ _ | .rdClen _ | .rdCode _ _ => none

namespace Machine

/-- Run commands one after another, each to completion (20_memory.md rule R59). -/
def execAll : List Instr → State → Result
  | [], s => .next s
  | i :: is, s =>
    match exec i s with
    | .next t    => execAll is t
    | .fault r   => .fault r
    | .refused r => .refused r

/-! ## The three ends of a command (30_encoding.md rule R84) -/

/-- s after a command that completes and writes no state element: the response (0, d). -/
def answered (d : Word) (s : State) : State := { s with rsp := s.rsp ++ [⟨false, d⟩] }

/-- s after a command that raises the fault of the given code (60_exceptions.md rule R172). -/
def faultedWith (code : BitVec 4) (s : State) : State :=
  { s with fault := true, err := code, rsp := s.rsp ++ [⟨true, 0#32⟩] }

/-- s after a command that is refused (60_exceptions.md rule R175): the response (1, 0) and nothing else. -/
def refusedIn (s : State) : State := { s with rsp := s.rsp ++ [⟨true, 0#32⟩] }

/-- The code of the first failing check of a command with FAULT = 0, from the table of 60_exceptions.md rule R171 with the codes of
rule R170; none when no check fails. The checks the table calls unreachable (ERR_CAP, ERR_DEPTH) are not in it. -/
def firstFault : Instr → State → Option (BitVec 4)
  | .count sym, s => if s.nnodes ≠ 0#9 then some 2#4 else if freqAt s sym = 0xFFFFFFFF#32 then some 8#4 else none
  | .leaf sym, s => if sym.toNat < s.nextsym.toNat then some 6#4 else if freqAt s sym = 0#32 then some 5#4 else none
  | .pqExt, s => if s.size.toNat < 1 then some 4#4 else none
  | .merge, s => if s.size.toNat < 2 then some 4#4 else none
  | .build, s => if ∀ b ∈ allSyms, freqAt s b = 0#32 then some 3#4 else none
  | .gen, s => if s.cnt ≠ 0#3 then some 2#4 else if s.size = 0#9 then some 3#4 else if s.size ≠ 1#9 then some 2#4 else none
  | .enc sym, s => if s.codeValid = false then some 2#4 else if clenAt s sym = 0#9 then some 7#4 else none
  | .rdPq idx, s => if idx.toNat < s.size.toNat then none else some 9#4
  | .rdNode h sel, s => if sel = 3#2 then some 1#4 else if h.toNat < s.nnodes.toNat then none else some 9#4
  | .nop, _ | .clr, _ | .flush, _ | .pqInit, _ | .rdStatus, _ | .rdPqstat, _ | .rdFreq _, _ | .rdClen _, _ | .rdCode _ _, _ =>
    none

/-! ## Runs of commands -/

/-- The pseudo-instruction `COMPRESS` (30_encoding.md rule R88, 70_reset_and_hazards.md rule R193). -/
def compress (syms : List Byte) : List Instr :=
  [.clr] ++ syms.map .count ++ [.build, .gen] ++ syms.map .enc ++ [.flush]

/-- The byte values that the `COUNT` commands of a command list count, in order. -/
def countedSyms (is : List Instr) : List Byte := is.filterMap Instr.counted

/-- The sum of FREQ[0..255], exact (40_control_freq.md rule R103). -/
def freqTotal (s : State) : Nat := (allSyms.map fun b => (freqAt s b).toNat).sum

/-! ## Reset -/

/-- The values of 10_state.md rule R36 for every element the rule gives a value. -/
structure ResetValues (s : State) : Prop where
  freq      : ∀ b, freqAt s b = 0#32
  nnodes    : s.nnodes = 0#9
  size      : s.size = 0#9
  nextsym   : s.nextsym = 0#9
  clen      : ∀ b, clenAt s b = 0#9
  codeValid : s.codeValid = false
  acc       : s.acc = 0#8
  cnt       : s.cnt = 0#3
  fault     : s.fault = false
  err       : s.err = 0#4

/-! ## The queue and the arena -/

/-- The live heap entries HEAP[0..SIZE-1] (10_state.md rule R25). -/
def liveHeap (s : State) : List Handle := (List.range s.size.toNat).map (heapAt s)

/-- The min-heap property (10_state.md rule R26). -/
def HeapOrdered (s : State) : Prop :=
  ∀ i, 1 ≤ i → i < s.size.toNat → wt s (heapAt s ((i - 1) / 2)) ≤ wt s (heapAt s i)

/-- The position of the parent of position i (41_priority_queue.md rule R110). -/
def parentPos (i : Nat) : Nat := (i - 1) / 2

/-- The heap entries b are the entries a after x is put at position n and sifted up (41_priority_queue.md rule R112), said without a
loop: x stands k levels above n, each entry it passed is strictly heavier and stands one level lower, the entry above x is not heavier,
and no other position changed. -/
def SiftedUp (w : Handle → Weight) (n : Nat) (x : Handle) (a b : Nat → Handle) : Prop :=
  ∃ k,
    (∀ m, m < k → 0 < parentPos^[m] n ∧ w x < w (a (parentPos^[m + 1] n)) ∧
      b (parentPos^[m] n) = a (parentPos^[m + 1] n)) ∧
    b (parentPos^[k] n) = x ∧ (parentPos^[k] n = 0 ∨ ¬ w x < w (a (parentPos^[k + 1] n))) ∧
    ∀ i, i ≤ n → (∀ m, m ≤ k → i ≠ parentPos^[m] n) → b i = a i

/-- c is the child of position i with the smaller weight, the left one when both weigh the same, the only one when there is one
(41_priority_queue.md rule R115, rule R116 (a)). -/
def IsLighterChild (w : Handle → Weight) (n : Nat) (a : Nat → Handle) (i c : Nat) : Prop :=
  c < n ∧ ((c = 2 * i + 1 ∧ (2 * i + 2 < n → w (a (2 * i + 1)) ≤ w (a (2 * i + 2)))) ∨
    (c = 2 * i + 2 ∧ w (a (2 * i + 2)) < w (a (2 * i + 1))))

/-- The n heap entries b are the entries a after x is put at position 0 and sifted down (41_priority_queue.md rule R114, rule R115),
said without a loop: x stands k levels down the path of the lighter children, each of them strictly lighter than x and now one level
higher, no child of x is lighter than it, and no other position changed. -/
def SiftedDown (w : Handle → Weight) (n : Nat) (x : Handle) (a b : Nat → Handle) : Prop :=
  ∃ (k : Nat) (path : Nat → Nat), path 0 = 0 ∧
    (∀ m, m < k → IsLighterChild w n a (path m) (path (m + 1)) ∧ w (a (path (m + 1))) < w x ∧
      b (path m) = a (path (m + 1))) ∧
    b (path k) = x ∧
    (∀ c, c = 2 * path k + 1 ∨ c = 2 * path k + 2 → c < n → ¬ w (a c) < w x) ∧
    ∀ i, i < n → (∀ m, m ≤ k → i ≠ path m) → b i = a i

/-- h is the handle of an allocated record: NODE[h] with h < NNODES (10_state.md rule R24). -/
def Allocated (s : State) (h : Handle) : Prop := h.toNat < s.nnodes.toNat

/-- Every live heap entry is an allocated handle (10_state.md rule R35 item 3). -/
def HeapAllocated (s : State) : Prop := ∀ i, i < s.size.toNat → Allocated s (heapAt s i)

/-- An allocated leaf (10_state.md rule R23). -/
def IsLeaf (s : State) (h : Handle) : Prop := Allocated s h ∧ (nodeAt s h).kind = .leaf

/-- An allocated internal node (10_state.md rule R23). -/
def IsInternal (s : State) (h : Handle) : Prop := Allocated s h ∧ (nodeAt s h).kind = .internal

/-- c is a child, left or right, of the allocated internal node p. -/
def IsChild (s : State) (c p : Handle) : Prop :=
  IsInternal s p ∧ (c = (nodeAt s p).left ∨ c = (nodeAt s p).right)

/-- How many of the allocated records are of the given kind (10_state.md rule R35 item 8). -/
def countKind (s : State) (k : NodeKind) : Nat :=
  (List.range s.nnodes.toNat).countP fun h => (nodeAt s (BitVec.ofNat 9 h)).kind = k

/-- `path(t, ℓ)` (43_code_generator.md rule R140): the branch bits from t down to the leaf ℓ, first bit nearest t. -/
inductive TreePath (s : State) : Handle → List Bool → Handle → Prop where
  | leaf {h} : (nodeAt s h).kind = .leaf → TreePath s h [] h
  | left {h p l} : (nodeAt s h).kind = .internal → TreePath s (nodeAt s h).left p l → TreePath s h (false :: p) l
  | right {h p l} : (nodeAt s h).kind = .internal → TreePath s (nodeAt s h).right p l → TreePath s h (true :: p) l

/-! ## The code table -/

/-- Byte value b has a code (10_state.md rule R28: "CLEN[b] = 0 means byte value b has no code"). -/
def HasCode (s : State) (b : Byte) : Prop := clenAt s b ≠ 0#9

/-- The byte values that have a code, in ascending order. -/
def codedSyms (s : State) : List Byte := allSyms.filter fun b => clenAt s b ≠ 0#9

/-- "no code is a prefix of another" (10_state.md rule R35 item 12). -/
def PrefixCode (s : State) : Prop :=
  ∀ b c, HasCode s b → HasCode s c → b ≠ c → ¬ codeOf s b <+: codeOf s c

/-! ## Bits of the output stream -/

/-- The bits of an output byte, most significant first (20_memory.md rule R53). -/
def byteBits (b : Byte) : List Bool := (List.range 8).map fun k => b.getLsbD (7 - k)

/-- The bits of a sequence of output bytes, first byte first (20_memory.md rule R54). -/
def streamBits (bs : List Byte) : List Bool := bs.flatMap byteBits

/-- The bits held in the bit buffer: "the low CNT bits of ACC, oldest bit most significant" (10_state.md rule R30). -/
def pendingBits (s : State) : List Bool :=
  (List.range s.cnt.toNat).map fun k => s.acc.getLsbD (s.cnt.toNat - 1 - k)

/-- The code bits of a symbol sequence, back to back (20_memory.md rule R55). -/
def codeBits (s : State) (syms : List Byte) : List Bool := syms.flatMap (codeOf s)

/-! ## The invariants -/

/-- "The following hold after reset and after every command, whether it faulted or not" (10_state.md rule R35). -/
structure Invariants (s : State) : Prop where
  /-- item 1; NNODES ≤ 511 and CNT ≤ 7 hold by the registers' widths -/
  counts : s.size.toNat ≤ 256 ∧ s.nextsym.toNat ≤ 256 ∧ s.size.toNat ≤ s.nnodes.toNat
  /-- item 2 -/
  heapOrdered : HeapOrdered s
  /-- item 3 -/
  heapAllocated : HeapAllocated s
  /-- item 3 -/
  heapDistinct : (liveHeap s).Nodup
  /-- item 4, and rule R23: both links of a leaf are NIL -/
  leafRecord : ∀ h, IsLeaf s h →
    wt s h = (freqAt s (nodeAt s h).sym).setWidth 40 ∧ wt s h ≠ 0#40 ∧ (nodeAt s h).sym.toNat < s.nextsym.toNat ∧
    (nodeAt s h).left = Config.nil ∧ (nodeAt s h).right = Config.nil
  /-- item 4 -/
  leafDistinct : ∀ h k, IsLeaf s h → IsLeaf s k → (nodeAt s h).sym = (nodeAt s k).sym → h = k
  /-- item 5, the sum exact, and rule R23: sym = 0 in an internal node -/
  internalRecord : ∀ h, IsInternal s h →
    (nodeAt s h).left.toNat < h.toNat ∧ (nodeAt s h).right.toNat < h.toNat ∧ (nodeAt s h).left ≠ (nodeAt s h).right ∧
    (wt s h).toNat = (wt s (nodeAt s h).left).toNat + (wt s (nodeAt s h).right).toNat ∧ (nodeAt s h).sym = 0#8
  /-- item 6: no handle is a child twice -/
  childOnce : ∀ c p q, IsChild s c p → IsChild s c q → p = q
  /-- item 6: no live heap entry is a child -/
  heapNotChild : ∀ i p, i < s.size.toNat → ¬ IsChild s (heapAt s i) p
  /-- item 7 -/
  weightIsLeafSum : ∀ h, Allocated s h →
    (wt s h).toNat = ((leafPaths s h.toNat h).map fun e => (freqAt s e.1).toNat).sum
  /-- item 8 -/
  nodeCounts : countKind s .leaf ≤ 256 ∧ countKind s .internal ≤ countKind s .leaf - 1
  /-- item 9 -/
  accBound : s.acc.toNat < 2 ^ s.cnt.toNat
  /-- item 10 -/
  bufferEmpty : s.codeValid = false → s.cnt = 0#3 ∧ s.acc = 0#8
  /-- item 11 -/
  errZero : s.fault = false → s.err = 0#4
  /-- item 12 -/
  codeTable : s.codeValid = true → (∀ b, (clenAt s b).toNat ≤ 256) ∧ PrefixCode s
  /-- 45_read_commands.md rule R165: "with CODE_VALID = 0 every length reads 0" -/
  noCodes : s.codeValid = false → ∀ b, clenAt s b = 0#9
  /-- The model's own: every bit of every code is held, so that no free value is read (log entry 4). -/
  codesHeld : ∀ b, (clenAt s b).toNat ≤ (cbitsAt s b).length

/-! ## Dead storage -/

/-- s and t agree on everything but "an array element outside its live range" (10_state.md rule R36): HEAP[i] for i ≥ SIZE,
NODE[h] for h ≥ NNODES, and the bits of CBITS[b] from CLEN[b] on. -/
structure SameLive (s t : State) : Prop where
  freq      : s.freq = t.freq
  nnodes    : s.nnodes = t.nnodes
  node      : ∀ h, Allocated s h → nodeAt s h = nodeAt t h
  size      : s.size = t.size
  heap      : ∀ i, i < s.size.toNat → heapAt s i = heapAt t i
  nextsym   : s.nextsym = t.nextsym
  clen      : s.clen = t.clen
  code      : ∀ b, codeOf s b = codeOf t b
  codeValid : s.codeValid = t.codeValid
  acc       : s.acc = t.acc
  cnt       : s.cnt = t.cnt
  fault     : s.fault = t.fault
  err       : s.err = t.err
  cmd       : s.cmd = t.cmd
  rsp       : s.rsp = t.rsp
  out       : s.out = t.out

end Machine

end Sys2Proof
end

