-- ==== Sys2Proof/Certificates/Slice0/Obligations.lean ====
section
/-! DEFINITION. The statements for the provers, from the numbered rules of spec/. The frame of a statement about a command is the record
it ends in: `{ s with … }` names every state element the command may write, and every other element is that of s. -/

section

open Sys2Proof Sys2Proof.Machine

/-! ## Encoding (30_encoding.md) -/

/-- Decoding the word of a command gives the command back with every operand, and a word that decodes to a command is that command's
word (rule R81, rule R85). -/
def Obligations.DecodeAndEncodeAgree : Prop :=
  (∀ i : Instr, i.wellFormed = true → decode (encode i) = .ok i) ∧
  (∀ (w : Word) (i : Instr), decode w = .ok i → i.wellFormed = true ∧ encode i = w)

/-- The three kinds of illegal word of rule R86, and no other: an unassigned opcode, a non-zero "zero" field of a legal opcode, `RD_NODE`
with sel = 3. -/
def Obligations.IllegalWordsAreThoseOfTheRule : Prop :=
  ∀ w : Word, (∃ r, decode w = .error r) ↔
    (0x07 ≤ w.toNat / 2 ^ 24 ∧ w.toNat / 2 ^ 24 ≤ 0x0F) ∨ (0x14 ≤ w.toNat / 2 ^ 24 ∧ w.toNat / 2 ^ 24 ≤ 0x1F) ∨
    0x27 ≤ w.toNat / 2 ^ 24 ∨
    (w.toNat / 2 ^ 24 ∈ [0x00, 0x01, 0x03, 0x04, 0x06, 0x10, 0x12, 0x13, 0x20, 0x21] ∧ w &&& 0x00FFFFFF#32 ≠ 0#32) ∨
    (w.toNat / 2 ^ 24 ∈ [0x02, 0x05, 0x11, 0x22, 0x25] ∧ w &&& 0x00FFFF00#32 ≠ 0#32) ∨
    (w.toNat / 2 ^ 24 = 0x23 ∧ w &&& 0x00FFFE00#32 ≠ 0#32) ∨
    (w.toNat / 2 ^ 24 = 0x24 ∧ (w &&& 0x00FCFE00#32 ≠ 0#32 ∨ w &&& 0x00030000#32 = 0x00030000#32)) ∨
    (w.toNat / 2 ^ 24 = 0x26 ∧ w &&& 0x00F8FF00#32 ≠ 0#32)

/-- Words written out from the encodings of rule R81 to rule R83, one of each format. -/
def Obligations.WrittenWordsDecode : Prop :=
  decode 0b00000000000000000000000000000000#32 = .ok .nop ∧
  decode 0b00000010000000000000000001100001#32 = .ok (.count 0x61#8) ∧
  decode 0b00100011000000000000000111111111#32 = .ok (.rdPq 511#9) ∧
  decode 0b00100100000000010000000000000101#32 = .ok (.rdNode 5#9 1#2) ∧
  decode 0b00100110000001110000000001100001#32 = .ok (.rdCode 0x61#8 7#3) ∧
  decode 0b00100100000000110000000000000000#32 = .error .selector

/-! ## A step (10_state.md rule R21, 60_exceptions.md rule R174) -/

/-- A command word on the CMD port that decodes to i: the step is `exec i` with that word taken from the port. -/
def Obligations.StepRunsTheDecodedCommand : Prop :=
  ∀ (s : State) (w : Word) (rest : List HostEvent) (i : Instr), s.cmd = .command w :: rest → decode w = .ok i →
    step s = exec i { s with cmd := rest }

/-- A table word placed for the next step is the command the next step runs, in the state it was placed in (log entry 5). -/
def Obligations.PlacedWordRunsNext : Prop :=
  ∀ (s : State) (i : Instr), i.wellFormed = true → step (s.withFetchWord 32 (encode i).toNat) = exec i s

/-- With no host action the core keeps all state (60_exceptions.md rule R180). -/
def Obligations.IdleCoreKeepsItsState : Prop := ∀ s : State, s.cmd = [] → step s = .next s

/-- An illegal word raises ERR_ILLCMD (code 1), or is refused while FAULT = 1, and changes nothing else (30_encoding.md rule R85). -/
def Obligations.IllegalWordFaultsOrIsRefused : Prop :=
  ∀ (s : State) (w : Word) (rest : List HostEvent) (r : Illegal), s.cmd = .command w :: rest → decode w = .error r →
    (s.fault = false → step s = .next (faultedWith 1#4 { s with cmd := rest })) ∧
    (s.fault = true → step s = .next (refusedIn { s with cmd := rest }))

/-- The term `RD_NODE h, 3` is no command: its encoding is an illegal word, and the term executes as that word does (log entry 9). -/
def Obligations.SelectorThreeRunsAsIllegal : Prop :=
  ∀ (s : State) (h : Handle), decode (encode (.rdNode h 3#2)) = .error .selector ∧
    exec (.rdNode h 3#2) s = runWord (encode (.rdNode h 3#2)) s ∧
    (s.fault = false → exec (.rdNode h 3#2) s = .next (faultedWith 1#4 s)) ∧
    (s.fault = true → exec (.rdNode h 3#2) s = .next (refusedIn s))

/-- Every word, in every state, is answered by exactly one response; its data is 0 when the error bit is set, and with FAULT = 0 before,
the error bit is set exactly when the command faulted (30_encoding.md rule R84). -/
def Obligations.EveryWordGetsOneResponse : Prop :=
  ∀ (w : Word) (s : State), ∃ t r, runWord w s = .next t ∧ t.rsp = s.rsp ++ [r] ∧ (r.err = true → r.data = 0#32) ∧
    (s.fault = false → (r.err = true ↔ t.fault = true)) ∧ t.cmd = s.cmd

/-- OUT is append-only under every step, whatever the host does (20_memory.md rule R56). -/
def Obligations.StepNeverRetractsOutput : Prop := ∀ s t : State, step s = .next t → s.out <+: t.out

/-- How many bytes a command emits: at most 32 for `ENC` (code lengths being at most 256), at most 1 for `FLUSH`, none for every other
command (20_memory.md rule R56). -/
def Obligations.EmittedByteBounds : Prop :=
  ∀ (i : Instr) (s t : State), exec i s = .next t → ∃ bs, t.out = s.out ++ bs ∧
    (∀ sym, i = .enc sym → (clenAt s sym).toNat ≤ 256 → bs.length ≤ 32) ∧
    (i = .flush → bs.length ≤ 1) ∧
    ((∀ sym, i ≠ .enc sym) → i ≠ .flush → bs = [])

/-! ## Reset (10_state.md rule R36, 70_reset_and_hazards.md rule R190) -/

/-- The elements for which rule R36 gives a value have it after reset; and nothing has been asked of the core or left it. -/
def Obligations.ResetStateHasTheResetValues : Prop :=
  ResetValues State.reset ∧ State.reset.cmd = [] ∧ State.reset.rsp = [] ∧ State.reset.out = []

/-- RST in an idle core (70_reset_and_hazards.md rule R190): the reset values, no response, OUT kept. What HEAP, NODE and CBITS then hold
is the model's choice (log entry 1) and not stated. -/
def Obligations.ResetOfAnIdleCore : Prop :=
  ∀ (s : State) (rest : List HostEvent), s.cmd = .rst :: rest →
    ∃ t, step s = .next t ∧ ResetValues t ∧ t.cmd = rest ∧ t.rsp = s.rsp ∧ t.out = s.out

/-- RST while a command is in progress (70_reset_and_hazards.md rule R190): the reset values, no response, and of the bytes the command
would have emitted the ones already handed to the sink. How many these are is part of the host's action in the model (log entry 6). -/
def Obligations.ResetDuringACommand : Prop :=
  ∀ (s : State) (rest : List HostEvent) (w : Word) (n : Nat), s.cmd = .commandThenRst w n :: rest →
    ∃ t u bs, step s = .next t ∧ runWord w { s with cmd := rest } = .next u ∧ u.out = s.out ++ bs ∧ ResetValues t ∧ t.cmd = rest ∧
      t.rsp = s.rsp ∧ t.out = s.out ++ bs.take n

/-- A sink that never accepts another byte (93_implementation_defined.md U17): the command is stuck, which the model gives as the fault
`sinkStalled`, exactly when it emits more bytes than the sink accepts (log entry 7). -/
def Obligations.StalledSinkStopsTheCore : Prop :=
  ∀ (s : State) (rest : List HostEvent) (w : Word) (n : Nat), s.cmd = .commandWithStalledSink w n :: rest →
    ∃ u bs, runWord w { s with cmd := rest } = .next u ∧ u.out = s.out ++ bs ∧
      (bs.length ≤ n → step s = .next u) ∧ (n < bs.length → step s = .fault .sinkStalled)

/-! ## Control and Frequency Counter (40_control_freq.md) -/

/-- `NOP` responds (0, 0) and changes nothing (rule R100). -/
def Obligations.NopRespondsAndChangesNothing : Prop :=
  ∀ s : State, s.fault = false → exec .nop s = .next { s with rsp := s.rsp ++ [⟨false, 0#32⟩] }

/-- `CLR` returns every state element to its reset value, FAULT and ERR included, whether FAULT is 0 or 1; pending bits are discarded,
OUT is not touched (rule R101). -/
def Obligations.ClrReturnsToTheResetState : Prop :=
  ∀ s : State, ∃ t, exec .clr s = .next t ∧ ResetValues t ∧ t.rsp = s.rsp ++ [⟨false, 0#32⟩] ∧ t.out = s.out ∧ t.cmd = s.cmd

/-- `COUNT` increments its entry and writes nothing else; with a node allocated it raises ERR_SEQ (2), at 2^32 - 1 it raises ERR_OVF (8)
(rule R102). -/
def Obligations.CountIncrementsItsEntry : Prop :=
  ∀ (s : State) (sym : Byte), s.fault = false →
    (s.nnodes = 0#9 → freqAt s sym ≠ 0xFFFFFFFF#32 →
      ∃ t, exec (.count sym) s = .next t ∧ t = { s with freq := t.freq, rsp := s.rsp ++ [⟨false, 0#32⟩] } ∧
        (freqAt t sym).toNat = (freqAt s sym).toNat + 1 ∧ ∀ b, b ≠ sym → freqAt t b = freqAt s b) ∧
    (s.nnodes ≠ 0#9 → exec (.count sym) s = .next (faultedWith 2#4 s)) ∧
    (s.nnodes = 0#9 → freqAt s sym = 0xFFFFFFFF#32 → exec (.count sym) s = .next (faultedWith 8#4 s))

/-- The sum law (rule R103): after `CLR` and a list of commands without another `CLR` whose `COUNT` commands all completed, FREQ[b] is the
number of those with sym = b and the sum is their number. Other commands may stand among them (is, after which FAULT = 0, so that all of
it completed) and after them (js, which may also fault). `COUNT` commands alone all complete when no byte value occurs 2^32 times. -/
def Obligations.FrequencySumLaw : Prop :=
  (∀ (is js : List Instr) (s u t : State), .clr ∉ is → execAll (.clr :: is) s = .next u → u.fault = false →
    .clr ∉ js → countedSyms js = [] → execAll js u = .next t →
    (∀ b, (freqAt t b).toNat = (countedSyms is).count b) ∧ freqTotal t = (countedSyms is).length) ∧
  (∀ (syms : List Byte) (s : State), (∀ b, syms.count b < 2 ^ 32) →
    ∃ t, execAll (.clr :: syms.map .count) s = .next t ∧ t.fault = false)

/-! ## Priority Queue (41_priority_queue.md) -/

/-- `PQ_INIT` empties queue and arena and touches nothing else (rule R118). -/
def Obligations.PqInitEmptiesQueueAndArena : Prop :=
  ∀ s : State, s.fault = false →
    exec .pqInit s = .next { s with size := 0#9, nnodes := 0#9, nextsym := 0#9, rsp := s.rsp ++ [⟨false, 0#32⟩] }

/-- `LEAF` allocates the leaf record with weight FREQ[sym], sifts it up from position SIZE, sets NEXTSYM to sym + 1 and responds with the
new handle; ERR_ORDER (6) before ERR_ZEROW (5) (rule R119, rule R112, rule R117). -/
def Obligations.LeafCreatesAndInsertsALeaf : Prop :=
  ∀ (s : State) (sym : Byte), s.fault = false →
    (s.nextsym.toNat ≤ sym.toNat → freqAt s sym ≠ 0#32 → s.nnodes.toNat < 511 → s.size.toNat < 256 →
      ∃ t, exec (.leaf sym) s = .next t ∧
        t = { s with
          node := t.node, nnodes := s.nnodes + 1#9, heap := t.heap, size := s.size + 1#9, nextsym := sym.setWidth 9 + 1#9
          rsp := s.rsp ++ [⟨false, s.nnodes.setWidth 32⟩] } ∧
        nodeAt t s.nnodes = ⟨.leaf, sym, (freqAt s sym).setWidth 40, 0x1FF#9, 0x1FF#9⟩ ∧
        (∀ h, h ≠ s.nnodes → nodeAt t h = nodeAt s h) ∧
        SiftedUp (wt t) s.size.toNat s.nnodes (heapAt s) (heapAt t)) ∧
    (sym.toNat < s.nextsym.toNat → exec (.leaf sym) s = .next (faultedWith 6#4 s)) ∧
    (s.nextsym.toNat ≤ sym.toNat → freqAt s sym = 0#32 → exec (.leaf sym) s = .next (faultedWith 5#4 s))

/-- `PQ_EXT` responds with the handle at position 0, moves the last entry there and sifts it down, the left child winning a tie; the arena
is untouched; ERR_PQ_EMPTY (4) on an empty queue (rule R120, rule R114, rule R115, rule R116). -/
def Obligations.PqExtRemovesTheRoot : Prop :=
  ∀ s : State, s.fault = false →
    (1 ≤ s.size.toNat → s.size.toNat ≤ 256 →
      ∃ t, exec .pqExt s = .next t ∧
        t = { s with heap := t.heap, size := s.size - 1#9, rsp := s.rsp ++ [⟨false, (heapAt s 0).setWidth 32⟩] } ∧
        SiftedDown (wt s) (s.size.toNat - 1) (heapAt s (s.size.toNat - 1)) (heapAt s) (heapAt t)) ∧
    (s.size = 0#9 → exec .pqExt s = .next (faultedWith 4#4 s))

/-- "Heap property preserved" (rule R122): by insertion, which adds its handle to the live ones, and by extraction, which removes one whose
weight is at most every remaining entry's. -/
def Obligations.HeapPropertyPreserved : Prop :=
  (∀ (s t : State) (h : Handle), HeapOrdered s → pqInsert h s = .ok t →
    HeapOrdered t ∧ (liveHeap t).Perm (h :: liveHeap s)) ∧
  (∀ (s t : State) (m : Handle), s.size.toNat ≤ 256 → HeapOrdered s → pqExtractMin s = .ok (t, m) →
    HeapOrdered t ∧ (liveHeap s).Perm (m :: liveHeap t) ∧ ∀ x ∈ liveHeap t, wt s m ≤ wt s x)

/-! ## Tree Builder (42_tree_builder.md) -/

/-- `MERGE` extracts l and then r, allocates an internal node of the summed weight with left = l and right = r, inserts it by a sift-up from
position SIZE - 2 and responds with its handle; ERR_PQ_EMPTY (4) with fewer than two entries (rule R130). -/
def Obligations.MergeJoinsTheTwoExtracted : Prop :=
  ∀ s : State, s.fault = false →
    (2 ≤ s.size.toNat → s.size.toNat ≤ 256 → s.nnodes.toNat < 511 →
      ∃ t u v l r, exec .merge s = .next t ∧ pqExtractMin s = .ok (u, l) ∧ pqExtractMin u = .ok (v, r) ∧
        t = { s with
          node := t.node, nnodes := s.nnodes + 1#9, heap := t.heap, size := s.size - 1#9
          rsp := s.rsp ++ [⟨false, s.nnodes.setWidth 32⟩] } ∧
        nodeAt t s.nnodes = ⟨.internal, 0#8, wt s l + wt s r, l, r⟩ ∧
        (∀ h, h ≠ s.nnodes → nodeAt t h = nodeAt s h) ∧
        SiftedUp (wt t) (s.size.toNat - 2) s.nnodes (heapAt v) (heapAt t)) ∧
    (s.size.toNat < 2 → exec .merge s = .next (faultedWith 4#4 s))

/-- `MERGE` joins two lightest nodes: wt(l) ≤ wt(r), every node that stays queued weighs at least wt(r), and the sum does not wrap (rule
R130 corner case (a), 10_state.md rule R35 item 7). -/
def Obligations.MergeJoinsTheTwoLightest : Prop :=
  ∀ s t : State, Invariants s → s.fault = false → 2 ≤ s.size.toNat → exec .merge s = .next t →
    ∃ l r rest, (liveHeap s).Perm (l :: r :: rest) ∧ (liveHeap t).Perm (s.nnodes :: rest) ∧
      (nodeAt t s.nnodes).left = l ∧ (nodeAt t s.nnodes).right = r ∧ wt s l ≤ wt s r ∧ (∀ x ∈ rest, wt s r ≤ wt s x) ∧
      (wt t s.nnodes).toNat = (wt s l).toNat + (wt s r).toNat

/-- `BUILD` has exactly the effect of `PQ_INIT`, `LEAF b` for the present byte values in ascending order and n - 1 times `MERGE`, up to the
responses; its own response is HEAP[0], the last node allocated (rule R132). -/
def Obligations.BuildIsTheCommandSequence : Prop :=
  ∀ s : State, s.fault = false → (∃ b, freqAt s b ≠ 0#32) →
    ∃ t r, exec .build s = .next t ∧
      execAll ([.pqInit] ++ (presentSyms s).map .leaf ++ List.replicate ((presentSyms s).length - 1) .merge) s =
        .next { t with rsp := r } ∧
      t.rsp = s.rsp ++ [⟨false, (heapAt t 0).setWidth 32⟩] ∧ (heapAt t 0).toNat + 1 = t.nnodes.toNat

/-- The result of `BUILD` with n byte values present (rule R133, rule R134 for n = 1), and its frame. -/
def Obligations.BuildResult : Prop :=
  ∀ s : State, s.fault = false → (∃ b, freqAt s b ≠ 0#32) →
    ∃ t, exec .build s = .next t ∧
      t = { s with
        node := t.node, nnodes := t.nnodes, heap := t.heap, size := 1#9, nextsym := t.nextsym
        rsp := s.rsp ++ [⟨false, (heapAt t 0).setWidth 32⟩] } ∧
      t.nnodes.toNat = 2 * (presentSyms s).length - 1 ∧ (heapAt t 0).toNat = 2 * (presentSyms s).length - 2 ∧
      (∀ (k : Nat) (hk : k < (presentSyms s).length), nodeAt t (BitVec.ofNat 9 k) =
        ⟨.leaf, (presentSyms s)[k], (freqAt s (presentSyms s)[k]).setWidth 40, 0x1FF#9, 0x1FF#9⟩) ∧
      (∀ h : Handle, (presentSyms s).length ≤ h.toNat → h.toNat < t.nnodes.toNat → (nodeAt t h).kind = .internal) ∧
      (∃ b, (presentSyms s).getLast? = some b ∧ t.nextsym = b.setWidth 9 + 1#9) ∧
      (wt t (heapAt t 0)).toNat = freqTotal s

/-- `BUILD` with every FREQ entry 0 raises ERR_EMPTY (3); the previous queue, arena and NEXTSYM survive (rule R131). -/
def Obligations.BuildOfNothingFaults : Prop :=
  ∀ s : State, s.fault = false → (∀ b, freqAt s b = 0#32) → exec .build s = .next (faultedWith 3#4 s)

/-! ## Code Generator (43_code_generator.md) -/

/-- `GEN` gives the leaf at the end of a path from the root that path as its code, gives the one-bit code "0" to a root that is a leaf, gives
no code to any other byte value, sets CODE_VALID and writes nothing else (rule R140, rule R141, rule R142). -/
def Obligations.GenAssignsTheTreePaths : Prop :=
  ∀ s : State, Invariants s → s.fault = false → s.cnt = 0#3 → s.size = 1#9 →
    ∃ t, exec .gen s = .next t ∧
      t = { s with clen := t.clen, cbits := t.cbits, codeValid := true, rsp := s.rsp ++ [⟨false, 0#32⟩] } ∧
      ((nodeAt s (heapAt s 0)).kind = .internal → ∀ p l, TreePath s (heapAt s 0) p l →
        codeOf t (nodeAt s l).sym = p ∧ (clenAt t (nodeAt s l).sym).toNat = p.length) ∧
      ((nodeAt s (heapAt s 0)).kind = .leaf →
        codeOf t (nodeAt s (heapAt s 0)).sym = [false] ∧ clenAt t (nodeAt s (heapAt s 0)).sym = 1#9) ∧
      (∀ b, (∀ p l, TreePath s (heapAt s 0) p l → (nodeAt s l).sym ≠ b) → clenAt t b = 0#9)

/-- The faults of `GEN` in the order checked: ERR_SEQ (2) with bits pending, ERR_EMPTY (3) with no root, ERR_SEQ (2) with two or more roots
(rule R141, 60_exceptions.md rule R171). -/
def Obligations.GenFaultsInOrder : Prop :=
  ∀ s : State, s.fault = false →
    (s.cnt ≠ 0#3 → exec .gen s = .next (faultedWith 2#4 s)) ∧
    (s.cnt = 0#3 → s.size = 0#9 → exec .gen s = .next (faultedWith 3#4 s)) ∧
    (s.cnt = 0#3 → s.size ≠ 0#9 → s.size ≠ 1#9 → exec .gen s = .next (faultedWith 2#4 s))

/-- The generated table (rule R144): the byte values with a code are those of the tree's leaves; (a) a prefix code, (b) with n ≥ 2 coded
byte values lengths from 1 to n - 1, (c) the sum of 2^(-CLEN) is exactly 1 (here times 2^256); with n = 1 the single code "0". -/
def Obligations.GeneratedTableIsACompletePrefixCode : Prop :=
  ∀ s t : State, Invariants s → s.fault = false → exec .gen s = .next t → t.fault = false →
    (∀ b, HasCode t b ↔ ∃ p l, TreePath s (heapAt s 0) p l ∧ (nodeAt s l).sym = b) ∧
    PrefixCode t ∧ 1 ≤ (codedSyms t).length ∧
    (2 ≤ (codedSyms t).length →
      (∀ b, HasCode t b → 1 ≤ (clenAt t b).toNat ∧ (clenAt t b).toNat ≤ (codedSyms t).length - 1) ∧
      ((codedSyms t).map fun b => 2 ^ (256 - (clenAt t b).toNat)).sum = 2 ^ 256) ∧
    (∀ b, codedSyms t = [b] → codeOf t b = [false])

/-! ## Bit-Packing Encoder (44_bit_packer.md) -/

/-- `ENC` appends the code of sym, first bit first, behind the pending bits; full bytes leave as they fill; it writes ACC, CNT and OUT alone;
ERR_SEQ (2) before ERR_NOCODE (7) (rule R150, rule R151, 20_memory.md rule R53). -/
def Obligations.EncAppendsTheCode : Prop :=
  ∀ (s : State) (sym : Byte), s.fault = false →
    (s.codeValid = true → clenAt s sym ≠ 0#9 →
      ∃ t bs, exec (.enc sym) s = .next t ∧
        t = { s with acc := t.acc, cnt := t.cnt, out := s.out ++ bs, rsp := s.rsp ++ [⟨false, 0#32⟩] } ∧
        streamBits bs ++ pendingBits t = pendingBits s ++ codeOf s sym ∧
        bs.length = (s.cnt.toNat + (clenAt s sym).toNat) / 8 ∧ t.cnt.toNat = (s.cnt.toNat + (clenAt s sym).toNat) % 8 ∧
        (s.acc.toNat < 2 ^ s.cnt.toNat → t.acc.toNat < 2 ^ t.cnt.toNat)) ∧
    (s.codeValid = false → exec (.enc sym) s = .next (faultedWith 2#4 s)) ∧
    (s.codeValid = true → clenAt s sym = 0#9 → exec (.enc sym) s = .next (faultedWith 7#4 s))

/-- `FLUSH` emits the 1 to 7 pending bits as the high bits of one byte, zeros below, and empties the buffer; with CNT = 0 it emits nothing
(rule R152). -/
def Obligations.FlushPadsTheLastByte : Prop :=
  ∀ s : State, s.fault = false →
    (s.cnt = 0#3 → exec .flush s = .next { s with rsp := s.rsp ++ [⟨false, 0#32⟩] }) ∧
    (s.cnt ≠ 0#3 → ∃ b : Byte,
      exec .flush s = .next { s with acc := 0#8, cnt := 0#3, out := s.out ++ [b], rsp := s.rsp ++ [⟨false, 0#32⟩] } ∧
      byteBits b = pendingBits s ++ List.replicate (8 - s.cnt.toNat) false)

/-- The length law (rule R153): from CNT = 0, `ENC` of each symbol and one `FLUSH` append ceil(T / 8) bytes, whose bits are the codes back to
back and then (8 - T mod 8) mod 8 zeros. -/
def Obligations.OutputStreamIsTheCodesPadded : Prop :=
  ∀ (s : State) (syms : List Byte), s.cnt = 0#3 → s.fault = false → s.codeValid = true → (∀ b ∈ syms, HasCode s b) →
    ∃ t bs, execAll (syms.map .enc ++ [.flush]) s = .next t ∧ t.fault = false ∧ t.cnt = 0#3 ∧ t.out = s.out ++ bs ∧
      t.clen = s.clen ∧ t.cbits = s.cbits ∧
      bs.length = ((syms.map fun b => (clenAt s b).toNat).sum + 7) / 8 ∧
      streamBits bs = codeBits s syms ++
        List.replicate ((8 - (syms.map fun b => (clenAt s b).toNat).sum % 8) % 8) false

/-- The round-trip law (rule R155): with one code table and the number of symbols known, the output determines the symbols. -/
def Obligations.OutputDeterminesTheSymbols : Prop :=
  ∀ (s t u : State) (xs ys : List Byte), Invariants s → s.cnt = 0#3 → s.fault = false → s.codeValid = true →
    (∀ b ∈ xs, HasCode s b) → (∀ b ∈ ys, HasCode s b) → xs.length = ys.length →
    execAll (xs.map .enc ++ [.flush]) s = .next t → execAll (ys.map .enc ++ [.flush]) s = .next u →
    t.out = u.out → xs = ys

/-! ## Read commands (45_read_commands.md) -/

/-- `RD_STATUS` returns the STATUS layout, whether FAULT is 0 or 1, and changes nothing (rule R160, 10_state.md rule R32). -/
def Obligations.RdStatusReturnsTheLayout : Prop :=
  ∀ s : State, ∃ d : Word, exec .rdStatus s = .next { s with rsp := s.rsp ++ [⟨false, d⟩] } ∧
    d.getLsbD 0 = s.fault ∧ d.getLsbD 1 = s.codeValid ∧ d.extractLsb' 2 2 = 0#2 ∧ d.extractLsb' 4 4 = s.err ∧
    d.extractLsb' 8 3 = s.cnt ∧ d.extractLsb' 11 5 = 0#5 ∧ d.extractLsb' 16 8 = s.acc ∧ d.extractLsb' 24 8 = 0#8

/-- `RD_PQSTAT` returns the PQSTAT layout, whether FAULT is 0 or 1, and changes nothing (rule R161, 10_state.md rule R33). -/
def Obligations.RdPqstatReturnsTheLayout : Prop :=
  ∀ s : State, ∃ d : Word, exec .rdPqstat s = .next { s with rsp := s.rsp ++ [⟨false, d⟩] } ∧
    d.extractLsb' 0 9 = s.size ∧ d.extractLsb' 9 1 = 0#1 ∧ d.extractLsb' 10 9 = s.nnodes ∧ d.extractLsb' 19 1 = 0#1 ∧
    d.extractLsb' 20 9 = s.nextsym ∧ d.extractLsb' 29 3 = 0#3

/-- `RD_FREQ` returns the count (rule R162). -/
def Obligations.RdFreqReturnsTheCount : Prop :=
  ∀ (s : State) (sym : Byte), exec (.rdFreq sym) s = .next { s with rsp := s.rsp ++ [⟨false, freqAt s sym⟩] }

/-- `RD_PQ` returns the handle at a live position; at any other it raises ERR_RANGE (9), or is refused while FAULT = 1 (rule R163, rule
R167). -/
def Obligations.RdPqReturnsTheLiveHandle : Prop :=
  ∀ (s : State) (idx : BitVec 9),
    (idx.toNat < s.size.toNat →
      exec (.rdPq idx) s = .next { s with rsp := s.rsp ++ [⟨false, (heapAt s idx.toNat).setWidth 32⟩] }) ∧
    (s.size.toNat ≤ idx.toNat → s.fault = false → exec (.rdPq idx) s = .next (faultedWith 9#4 s)) ∧
    (s.size.toNat ≤ idx.toNat → s.fault = true → exec (.rdPq idx) s = .next (refusedIn s))

/-- `RD_NODE` returns the selected part of an allocated record: LINKS (bit 26 kind, 25:18 sym, 17:9 right, 8:0 left), WT_LO or WT_HI; for
h ≥ NNODES it raises ERR_RANGE (9), or is refused while FAULT = 1 (rule R164, rule R167). -/
def Obligations.RdNodeReturnsThePart : Prop :=
  ∀ (s : State) (h : Handle),
    (h.toNat < s.nnodes.toNat →
      (∃ d : Word, exec (.rdNode h 0#2) s = .next { s with rsp := s.rsp ++ [⟨false, d⟩] } ∧
        (d.getLsbD 26 = true ↔ (nodeAt s h).kind = .leaf) ∧ d.extractLsb' 18 8 = (nodeAt s h).sym ∧
        d.extractLsb' 9 9 = (nodeAt s h).right ∧ d.extractLsb' 0 9 = (nodeAt s h).left ∧ d.extractLsb' 27 5 = 0#5) ∧
      (∃ d : Word, exec (.rdNode h 1#2) s = .next { s with rsp := s.rsp ++ [⟨false, d⟩] } ∧
        d.toNat = (wt s h).toNat % 2 ^ 32) ∧
      (∃ d : Word, exec (.rdNode h 2#2) s = .next { s with rsp := s.rsp ++ [⟨false, d⟩] } ∧
        d.toNat = (wt s h).toNat / 2 ^ 32)) ∧
    (s.nnodes.toNat ≤ h.toNat → ∀ sel : BitVec 2, sel ≠ 3#2 →
      (s.fault = false → exec (.rdNode h sel) s = .next (faultedWith 9#4 s)) ∧
      (s.fault = true → exec (.rdNode h sel) s = .next (refusedIn s)))

/-- `RD_CLEN` returns the code length; it does not require CODE_VALID (rule R165). -/
def Obligations.RdClenReturnsTheLength : Prop :=
  ∀ (s : State) (sym : Byte),
    exec (.rdClen sym) s = .next { s with rsp := s.rsp ++ [⟨false, (clenAt s sym).setWidth 32⟩] }

/-- `RD_CODE` returns code bits 32j to 32j + 31, the first in bit 31, and 0 at positions from CLEN on (rule R166). -/
def Obligations.RdCodeReturnsTheBits : Prop :=
  ∀ (s : State) (sym : Byte) (j : BitVec 3), ∃ d : Word,
    exec (.rdCode sym j) s = .next { s with rsp := s.rsp ++ [⟨false, d⟩] } ∧
    ∀ i, i < 32 → d.getLsbD (31 - i) = ((codeOf s sym)[32 * j.toNat + i]?).getD false

/-- A read command with its index in range completes whether FAULT is 0 or 1 and changes nothing; repeated while only responses are added,
it returns the same data; with its index out of range it raises ERR_RANGE (9) with FAULT = 0 and is refused with FAULT = 1, ERR keeping the first cause; only `RD_PQ` and
`RD_NODE` have such an index (rule R167). -/
def Obligations.ReadsChangeNothing : Prop :=
  ∀ (i : Instr) (s : State), i.isRead = true → i.wellFormed = true →
    (firstFault i s = none → ∃ d, exec i s = .next (answered d s) ∧
      ∀ r, exec i { s with rsp := r } = .next (answered d { s with rsp := r })) ∧
    (firstFault i s ≠ none → ((∃ idx, i = .rdPq idx) ∨ ∃ h sel, i = .rdNode h sel) ∧
      (s.fault = false → exec i s = .next (faultedWith 9#4 s)) ∧ (s.fault = true → exec i s = .next (refusedIn s)))

/-! ## Faults (60_exceptions.md) -/

/-- Faults are precise: a command that faults changes FAULT and ERR alone, emits nothing and responds (1, 0); the code is one of 1 to 11
(rule R172, rule R173). In states no run reaches, too: the model raises every check in the state before the command (log entry 8). -/
def Obligations.FaultsArePrecise : Prop :=
  ∀ (i : Instr) (s t : State), s.fault = false → exec i s = .next t → t.fault = true →
    ∃ code : BitVec 4, 1 ≤ code.toNat ∧ code.toNat ≤ 11 ∧ t = faultedWith code s

/-- While FAULT = 1 every command but `CLR` and the reads is refused: the response (1, 0) and nothing else, ERR not overwritten. `CLR` and the
reads execute, and a read with its index out of range is refused (rule R175). The ill-formed term `RD_NODE h, 3` is no read command; it has
Obligations.SelectorThreeRunsAsIllegal. -/
def Obligations.FaultedCoreRefuses : Prop :=
  ∀ (i : Instr) (s : State), s.fault = true →
    (i ≠ .clr → i.isRead = false → exec i s = .next (refusedIn s)) ∧
    (i.isRead = true → firstFault i s = none → ∃ d, exec i s = .next (answered d s)) ∧
    (i.isRead = true → i.wellFormed = true → firstFault i s ≠ none → exec i s = .next (refusedIn s)) ∧
    (i = .clr → ∃ t, exec i s = .next t ∧ t.fault = false)

/-- The faulted state is left only by `CLR` or reset, both of which discard the tables, the tree and the pending bits, and until then ERR keeps the first cause (rule R176, rule R172). -/
def Obligations.OnlyClrOrResetLeavesTheFaultedState : Prop :=
  ∀ s t : State, s.fault = true → step s = .next t →
    (t.fault = true ∧ t.err = s.err) ∨
    (∃ e rest, s.cmd = e :: rest ∧
      (e = .rst ∨ (∃ w n, e = .commandThenRst w n) ∨
        (∃ w, decode w = .ok .clr ∧ (e = .command w ∨ ∃ n, e = .commandWithStalledSink w n))) ∧
      ResetValues t)

/-- Which command raises what (rule R171): with FAULT = 0 a command raises the fault of its first failing check and no other, completes
without a fault when none fails, and an illegal word raises ERR_ILLCMD (1). The ill-formed term `RD_NODE h, 3` is no command; it has
Obligations.SelectorThreeRunsAsIllegal. -/
def Obligations.TheFirstFailingCheckIsReported : Prop :=
  ∀ (i : Instr) (s : State), i.wellFormed = true → Invariants s → s.fault = false →
    (∀ code, firstFault i s = some code → exec i s = .next (faultedWith code s)) ∧
    (firstFault i s = none → ∃ t, exec i s = .next t ∧ t.fault = false) ∧
    (∀ w r, decode w = .error r → runWord w s = .next (faultedWith 1#4 s))

/-- ERR_DEPTH (10) and ERR_CAP (11) are unreachable (rule R170, 43_code_generator.md rule R143, 10_state.md rule R35 item 8): from a state
with the invariants no step produces them. -/
def Obligations.DepthAndCapacityFaultsNeverHappen : Prop :=
  ∀ s t : State, Invariants s → s.err ≠ 10#4 → s.err ≠ 11#4 → step s = .next t → t.err ≠ 10#4 ∧ t.err ≠ 11#4

/-! ## The whole machine -/

/-- Each state element is written by the commands that the rules name and by no other (20_memory.md rule R51, 10_state.md rule R22 to rule
R31); FAULT and ERR by `CLR` and by a fault, which writes nothing else. What HEAP, NODE and CBITS hold after `CLR` is unspecified (10_state.md
rule R36, log entry 2) and not stated. -/
def Obligations.OnlyTheNamedCommandsWriteAnElement : Prop :=
  ∀ (i : Instr) (s t : State), exec i s = .next t →
    (t.freq = s.freq ∨ (∃ sym, i = .count sym) ∨ i = .clr) ∧
    (t.heap = s.heap ∨ (∃ sym, i = .leaf sym) ∨ i = .pqExt ∨ i = .merge ∨ i = .build ∨ i = .clr) ∧
    (t.node = s.node ∨ (∃ sym, i = .leaf sym) ∨ i = .merge ∨ i = .build ∨ i = .clr) ∧
    (t.size = s.size ∨ (∃ sym, i = .leaf sym) ∨ i = .pqExt ∨ i = .merge ∨ i = .build ∨ i = .pqInit ∨ i = .clr) ∧
    (t.nnodes = s.nnodes ∨ (∃ sym, i = .leaf sym) ∨ i = .merge ∨ i = .build ∨ i = .pqInit ∨ i = .clr) ∧
    (t.nextsym = s.nextsym ∨ (∃ sym, i = .leaf sym) ∨ i = .build ∨ i = .pqInit ∨ i = .clr) ∧
    (t.clen = s.clen ∧ t.cbits = s.cbits ∧ t.codeValid = s.codeValid ∨ i = .gen ∨ i = .clr) ∧
    (t.acc = s.acc ∧ t.cnt = s.cnt ∨ (∃ sym, i = .enc sym) ∨ i = .flush ∨ i = .clr) ∧
    (t.fault = s.fault ∧ t.err = s.err ∨ (s.fault = false ∧ ∃ code, t = faultedWith code s) ∨ i = .clr) ∧
    t.cmd = s.cmd

/-- The invariants of 10_state.md rule R35 hold after reset, and every step keeps them, from every state that has them and whatever the host
does. The record `Invariants` holds all twelve items, and two facts more: rule R165's that all lengths are 0 while CODE_VALID = 0, and the
model's own that every bit of a code is held (log entry 4). -/
def Obligations.EveryStepKeepsTheInvariants : Prop :=
  Invariants State.reset ∧ ∀ s t : State, Invariants s → step s = .next t → Invariants t

/-- The state after reset has the invariants (10_state.md rule R35, 45_read_commands.md rule R165, log entry 4). -/
def Obligations.ResetStateHasTheInvariants : Prop := Invariants State.reset

/-- No response, output or later state depends on an array element outside its live range (10_state.md rule R36): states that differ in dead
storage alone step to states that differ in dead storage alone, with the same responses and output. -/
def Obligations.DeadStorageIsUnobservable : Prop :=
  ∀ s t : State, SameLive s t → Invariants s →
    (∀ s', step s = .next s' → ∃ t', step t = .next t' ∧ SameLive s' t') ∧
    (∀ r, step s = .fault r → step t = .fault r)

/-- A compression run (70_reset_and_hazards.md rule R193, rule R202): from any state, for any non-empty input in which no byte value occurs
2^32 times, every command of `COMPRESS` completes with error bit 0, every byte of the input has a code of a prefix code, and OUT receives
the codes back to back, zero-padded to ceil(T / 8) bytes. -/
def Obligations.CompressionRunProducesThePackedCodes : Prop :=
  ∀ (s : State) (syms : List Byte), syms ≠ [] → (∀ b, syms.count b < 2 ^ 32) →
    ∃ t bs rs, execAll (compress syms) s = .next t ∧ t.fault = false ∧
      t.rsp = s.rsp ++ rs ∧ rs.length = 2 * syms.length + 4 ∧ (∀ r ∈ rs, r.err = false) ∧
      PrefixCode t ∧ (∀ b ∈ syms, HasCode t b) ∧ t.cnt = 0#3 ∧ t.out = s.out ++ bs ∧
      bs.length = ((codeBits t syms).length + 7) / 8 ∧
      streamBits bs = codeBits t syms ++ List.replicate ((8 - (codeBits t syms).length % 8) % 8) false

/-- "identical input bytes always produce an identical compressed output and an identical code table" (41_priority_queue.md rule R121): runs of
`COMPRESS` on one input, from any two states, append the same bytes and leave the same codes. -/
def Obligations.CompressionIsDeterministic : Prop :=
  ∀ (s s' t t' : State) (syms : List Byte), execAll (compress syms) s = .next t → execAll (compress syms) s' = .next t' →
    syms ≠ [] → (∀ b, syms.count b < 2 ^ 32) →
    (∃ bs, t.out = s.out ++ bs ∧ t'.out = s'.out ++ bs) ∧ ∀ b, codeOf t b = codeOf t' b

end
end

