-- ==== Sys2Proof/Laws/State.lean ====
section
/-! SUPPORT. What each state update writes and what it leaves: one lemma per field per update. -/

namespace Sys2Proof.Machine

/-! ## respond -/

@[simp] theorem respond_freq (d : Word) (s : State) : (respond d s).freq = s.freq := rfl
@[simp] theorem respond_node (d : Word) (s : State) : (respond d s).node = s.node := rfl
@[simp] theorem respond_nnodes (d : Word) (s : State) : (respond d s).nnodes = s.nnodes := rfl
@[simp] theorem respond_heap (d : Word) (s : State) : (respond d s).heap = s.heap := rfl
@[simp] theorem respond_size (d : Word) (s : State) : (respond d s).size = s.size := rfl
@[simp] theorem respond_nextsym (d : Word) (s : State) : (respond d s).nextsym = s.nextsym := rfl
@[simp] theorem respond_clen (d : Word) (s : State) : (respond d s).clen = s.clen := rfl
@[simp] theorem respond_cbits (d : Word) (s : State) : (respond d s).cbits = s.cbits := rfl
@[simp] theorem respond_codeValid (d : Word) (s : State) : (respond d s).codeValid = s.codeValid := rfl
@[simp] theorem respond_acc (d : Word) (s : State) : (respond d s).acc = s.acc := rfl
@[simp] theorem respond_cnt (d : Word) (s : State) : (respond d s).cnt = s.cnt := rfl
@[simp] theorem respond_fault (d : Word) (s : State) : (respond d s).fault = s.fault := rfl
@[simp] theorem respond_err (d : Word) (s : State) : (respond d s).err = s.err := rfl
@[simp] theorem respond_cmd (d : Word) (s : State) : (respond d s).cmd = s.cmd := rfl
@[simp] theorem respond_rsp (d : Word) (s : State) : (respond d s).rsp = s.rsp ++ [⟨false, d⟩] := rfl
@[simp] theorem respond_out (d : Word) (s : State) : (respond d s).out = s.out := rfl

/-! ## refuse -/

@[simp] theorem refuse_freq (s : State) : (refuse s).freq = s.freq := rfl
@[simp] theorem refuse_node (s : State) : (refuse s).node = s.node := rfl
@[simp] theorem refuse_nnodes (s : State) : (refuse s).nnodes = s.nnodes := rfl
@[simp] theorem refuse_heap (s : State) : (refuse s).heap = s.heap := rfl
@[simp] theorem refuse_size (s : State) : (refuse s).size = s.size := rfl
@[simp] theorem refuse_nextsym (s : State) : (refuse s).nextsym = s.nextsym := rfl
@[simp] theorem refuse_clen (s : State) : (refuse s).clen = s.clen := rfl
@[simp] theorem refuse_cbits (s : State) : (refuse s).cbits = s.cbits := rfl
@[simp] theorem refuse_codeValid (s : State) : (refuse s).codeValid = s.codeValid := rfl
@[simp] theorem refuse_acc (s : State) : (refuse s).acc = s.acc := rfl
@[simp] theorem refuse_cnt (s : State) : (refuse s).cnt = s.cnt := rfl
@[simp] theorem refuse_fault (s : State) : (refuse s).fault = s.fault := rfl
@[simp] theorem refuse_err (s : State) : (refuse s).err = s.err := rfl
@[simp] theorem refuse_cmd (s : State) : (refuse s).cmd = s.cmd := rfl
@[simp] theorem refuse_rsp (s : State) : (refuse s).rsp = s.rsp ++ [⟨true, 0#32⟩] := rfl
@[simp] theorem refuse_out (s : State) : (refuse s).out = s.out := rfl

/-! ## raise -/

@[simp] theorem raise_freq (c : Cause) (s : State) : (raise c s).freq = s.freq := rfl
@[simp] theorem raise_node (c : Cause) (s : State) : (raise c s).node = s.node := rfl
@[simp] theorem raise_nnodes (c : Cause) (s : State) : (raise c s).nnodes = s.nnodes := rfl
@[simp] theorem raise_heap (c : Cause) (s : State) : (raise c s).heap = s.heap := rfl
@[simp] theorem raise_size (c : Cause) (s : State) : (raise c s).size = s.size := rfl
@[simp] theorem raise_nextsym (c : Cause) (s : State) : (raise c s).nextsym = s.nextsym := rfl
@[simp] theorem raise_clen (c : Cause) (s : State) : (raise c s).clen = s.clen := rfl
@[simp] theorem raise_cbits (c : Cause) (s : State) : (raise c s).cbits = s.cbits := rfl
@[simp] theorem raise_codeValid (c : Cause) (s : State) : (raise c s).codeValid = s.codeValid := rfl
@[simp] theorem raise_acc (c : Cause) (s : State) : (raise c s).acc = s.acc := rfl
@[simp] theorem raise_cnt (c : Cause) (s : State) : (raise c s).cnt = s.cnt := rfl
@[simp] theorem raise_fault (c : Cause) (s : State) : (raise c s).fault = true := rfl
@[simp] theorem raise_err (c : Cause) (s : State) : (raise c s).err = c.code := rfl
@[simp] theorem raise_cmd (c : Cause) (s : State) : (raise c s).cmd = s.cmd := rfl
@[simp] theorem raise_rsp (c : Cause) (s : State) : (raise c s).rsp = s.rsp ++ [⟨true, 0#32⟩] := rfl
@[simp] theorem raise_out (c : Cause) (s : State) : (raise c s).out = s.out := rfl

/-! ## emit -/

@[simp] theorem emit_freq (b : Byte) (s : State) : (emit b s).freq = s.freq := rfl
@[simp] theorem emit_node (b : Byte) (s : State) : (emit b s).node = s.node := rfl
@[simp] theorem emit_nnodes (b : Byte) (s : State) : (emit b s).nnodes = s.nnodes := rfl
@[simp] theorem emit_heap (b : Byte) (s : State) : (emit b s).heap = s.heap := rfl
@[simp] theorem emit_size (b : Byte) (s : State) : (emit b s).size = s.size := rfl
@[simp] theorem emit_nextsym (b : Byte) (s : State) : (emit b s).nextsym = s.nextsym := rfl
@[simp] theorem emit_clen (b : Byte) (s : State) : (emit b s).clen = s.clen := rfl
@[simp] theorem emit_cbits (b : Byte) (s : State) : (emit b s).cbits = s.cbits := rfl
@[simp] theorem emit_codeValid (b : Byte) (s : State) : (emit b s).codeValid = s.codeValid := rfl
@[simp] theorem emit_acc (b : Byte) (s : State) : (emit b s).acc = s.acc := rfl
@[simp] theorem emit_cnt (b : Byte) (s : State) : (emit b s).cnt = s.cnt := rfl
@[simp] theorem emit_fault (b : Byte) (s : State) : (emit b s).fault = s.fault := rfl
@[simp] theorem emit_err (b : Byte) (s : State) : (emit b s).err = s.err := rfl
@[simp] theorem emit_cmd (b : Byte) (s : State) : (emit b s).cmd = s.cmd := rfl
@[simp] theorem emit_rsp (b : Byte) (s : State) : (emit b s).rsp = s.rsp := rfl
@[simp] theorem emit_out (b : Byte) (s : State) : (emit b s).out = s.out ++ [b] := rfl

/-! ## setFreq -/

@[simp] theorem setFreq_freq (b : Byte) (v : Freq) (s : State) : (setFreq b v s).freq = s.freq.set b.toNat v b.isLt := rfl
@[simp] theorem setFreq_node (b : Byte) (v : Freq) (s : State) : (setFreq b v s).node = s.node := rfl
@[simp] theorem setFreq_nnodes (b : Byte) (v : Freq) (s : State) : (setFreq b v s).nnodes = s.nnodes := rfl
@[simp] theorem setFreq_heap (b : Byte) (v : Freq) (s : State) : (setFreq b v s).heap = s.heap := rfl
@[simp] theorem setFreq_size (b : Byte) (v : Freq) (s : State) : (setFreq b v s).size = s.size := rfl
@[simp] theorem setFreq_nextsym (b : Byte) (v : Freq) (s : State) : (setFreq b v s).nextsym = s.nextsym := rfl
@[simp] theorem setFreq_clen (b : Byte) (v : Freq) (s : State) : (setFreq b v s).clen = s.clen := rfl
@[simp] theorem setFreq_cbits (b : Byte) (v : Freq) (s : State) : (setFreq b v s).cbits = s.cbits := rfl
@[simp] theorem setFreq_codeValid (b : Byte) (v : Freq) (s : State) : (setFreq b v s).codeValid = s.codeValid := rfl
@[simp] theorem setFreq_acc (b : Byte) (v : Freq) (s : State) : (setFreq b v s).acc = s.acc := rfl
@[simp] theorem setFreq_cnt (b : Byte) (v : Freq) (s : State) : (setFreq b v s).cnt = s.cnt := rfl
@[simp] theorem setFreq_fault (b : Byte) (v : Freq) (s : State) : (setFreq b v s).fault = s.fault := rfl
@[simp] theorem setFreq_err (b : Byte) (v : Freq) (s : State) : (setFreq b v s).err = s.err := rfl
@[simp] theorem setFreq_cmd (b : Byte) (v : Freq) (s : State) : (setFreq b v s).cmd = s.cmd := rfl
@[simp] theorem setFreq_rsp (b : Byte) (v : Freq) (s : State) : (setFreq b v s).rsp = s.rsp := rfl
@[simp] theorem setFreq_out (b : Byte) (v : Freq) (s : State) : (setFreq b v s).out = s.out := rfl

/-! ## setCode -/

@[simp] theorem setCode_freq (b : Byte) (p : List Bool) (s : State) : (setCode b p s).freq = s.freq := rfl
@[simp] theorem setCode_node (b : Byte) (p : List Bool) (s : State) : (setCode b p s).node = s.node := rfl
@[simp] theorem setCode_nnodes (b : Byte) (p : List Bool) (s : State) : (setCode b p s).nnodes = s.nnodes := rfl
@[simp] theorem setCode_heap (b : Byte) (p : List Bool) (s : State) : (setCode b p s).heap = s.heap := rfl
@[simp] theorem setCode_size (b : Byte) (p : List Bool) (s : State) : (setCode b p s).size = s.size := rfl
@[simp] theorem setCode_nextsym (b : Byte) (p : List Bool) (s : State) : (setCode b p s).nextsym = s.nextsym := rfl
@[simp] theorem setCode_clen (b : Byte) (p : List Bool) (s : State) : (setCode b p s).clen = s.clen.set b.toNat (BitVec.ofNat 9 p.length) b.isLt := rfl
@[simp] theorem setCode_cbits (b : Byte) (p : List Bool) (s : State) : (setCode b p s).cbits = s.cbits.set b.toNat p b.isLt := rfl
@[simp] theorem setCode_codeValid (b : Byte) (p : List Bool) (s : State) : (setCode b p s).codeValid = s.codeValid := rfl
@[simp] theorem setCode_acc (b : Byte) (p : List Bool) (s : State) : (setCode b p s).acc = s.acc := rfl
@[simp] theorem setCode_cnt (b : Byte) (p : List Bool) (s : State) : (setCode b p s).cnt = s.cnt := rfl
@[simp] theorem setCode_fault (b : Byte) (p : List Bool) (s : State) : (setCode b p s).fault = s.fault := rfl
@[simp] theorem setCode_err (b : Byte) (p : List Bool) (s : State) : (setCode b p s).err = s.err := rfl
@[simp] theorem setCode_cmd (b : Byte) (p : List Bool) (s : State) : (setCode b p s).cmd = s.cmd := rfl
@[simp] theorem setCode_rsp (b : Byte) (p : List Bool) (s : State) : (setCode b p s).rsp = s.rsp := rfl
@[simp] theorem setCode_out (b : Byte) (p : List Bool) (s : State) : (setCode b p s).out = s.out := rfl

/-! ## emptyQueue -/

@[simp] theorem emptyQueue_freq (s : State) : (emptyQueue s).freq = s.freq := rfl
@[simp] theorem emptyQueue_node (s : State) : (emptyQueue s).node = s.node := rfl
@[simp] theorem emptyQueue_nnodes (s : State) : (emptyQueue s).nnodes = 0#9 := rfl
@[simp] theorem emptyQueue_heap (s : State) : (emptyQueue s).heap = s.heap := rfl
@[simp] theorem emptyQueue_size (s : State) : (emptyQueue s).size = 0#9 := rfl
@[simp] theorem emptyQueue_nextsym (s : State) : (emptyQueue s).nextsym = 0#9 := rfl
@[simp] theorem emptyQueue_clen (s : State) : (emptyQueue s).clen = s.clen := rfl
@[simp] theorem emptyQueue_cbits (s : State) : (emptyQueue s).cbits = s.cbits := rfl
@[simp] theorem emptyQueue_codeValid (s : State) : (emptyQueue s).codeValid = s.codeValid := rfl
@[simp] theorem emptyQueue_acc (s : State) : (emptyQueue s).acc = s.acc := rfl
@[simp] theorem emptyQueue_cnt (s : State) : (emptyQueue s).cnt = s.cnt := rfl
@[simp] theorem emptyQueue_fault (s : State) : (emptyQueue s).fault = s.fault := rfl
@[simp] theorem emptyQueue_err (s : State) : (emptyQueue s).err = s.err := rfl
@[simp] theorem emptyQueue_cmd (s : State) : (emptyQueue s).cmd = s.cmd := rfl
@[simp] theorem emptyQueue_rsp (s : State) : (emptyQueue s).rsp = s.rsp := rfl
@[simp] theorem emptyQueue_out (s : State) : (emptyQueue s).out = s.out := rfl

/-! ## clearState -/

@[simp] theorem clearState_freq (s : State) : (clearState s).freq = Vector.replicate 256 0#32 := rfl
@[simp] theorem clearState_node (s : State) : (clearState s).node = s.node := rfl
@[simp] theorem clearState_nnodes (s : State) : (clearState s).nnodes = 0#9 := rfl
@[simp] theorem clearState_heap (s : State) : (clearState s).heap = s.heap := rfl
@[simp] theorem clearState_size (s : State) : (clearState s).size = 0#9 := rfl
@[simp] theorem clearState_nextsym (s : State) : (clearState s).nextsym = 0#9 := rfl
@[simp] theorem clearState_clen (s : State) : (clearState s).clen = Vector.replicate 256 0#9 := rfl
@[simp] theorem clearState_cbits (s : State) : (clearState s).cbits = s.cbits := rfl
@[simp] theorem clearState_codeValid (s : State) : (clearState s).codeValid = false := rfl
@[simp] theorem clearState_acc (s : State) : (clearState s).acc = 0#8 := rfl
@[simp] theorem clearState_cnt (s : State) : (clearState s).cnt = 0#3 := rfl
@[simp] theorem clearState_fault (s : State) : (clearState s).fault = false := rfl
@[simp] theorem clearState_err (s : State) : (clearState s).err = 0#4 := rfl
@[simp] theorem clearState_cmd (s : State) : (clearState s).cmd = s.cmd := rfl
@[simp] theorem clearState_rsp (s : State) : (clearState s).rsp = s.rsp := rfl
@[simp] theorem clearState_out (s : State) : (clearState s).out = s.out := rfl

/-! ## resetCore -/

@[simp] theorem resetCore_freq (s : State) : (resetCore s).freq = State.reset.freq := rfl
@[simp] theorem resetCore_node (s : State) : (resetCore s).node = State.reset.node := rfl
@[simp] theorem resetCore_nnodes (s : State) : (resetCore s).nnodes = State.reset.nnodes := rfl
@[simp] theorem resetCore_heap (s : State) : (resetCore s).heap = State.reset.heap := rfl
@[simp] theorem resetCore_size (s : State) : (resetCore s).size = State.reset.size := rfl
@[simp] theorem resetCore_nextsym (s : State) : (resetCore s).nextsym = State.reset.nextsym := rfl
@[simp] theorem resetCore_clen (s : State) : (resetCore s).clen = State.reset.clen := rfl
@[simp] theorem resetCore_cbits (s : State) : (resetCore s).cbits = State.reset.cbits := rfl
@[simp] theorem resetCore_codeValid (s : State) : (resetCore s).codeValid = State.reset.codeValid := rfl
@[simp] theorem resetCore_acc (s : State) : (resetCore s).acc = State.reset.acc := rfl
@[simp] theorem resetCore_cnt (s : State) : (resetCore s).cnt = State.reset.cnt := rfl
@[simp] theorem resetCore_fault (s : State) : (resetCore s).fault = State.reset.fault := rfl
@[simp] theorem resetCore_err (s : State) : (resetCore s).err = State.reset.err := rfl
@[simp] theorem resetCore_cmd (s : State) : (resetCore s).cmd = s.cmd := rfl
@[simp] theorem resetCore_rsp (s : State) : (resetCore s).rsp = s.rsp := rfl
@[simp] theorem resetCore_out (s : State) : (resetCore s).out = s.out := rfl

/-! ## The array accessors under the updates that leave the array -/

@[simp] theorem freqAt_respond (d : Word) (s : State) (x : Byte) : freqAt (respond d s) x = freqAt s x := rfl
@[simp] theorem nodeAt_respond (d : Word) (s : State) (x : Handle) : nodeAt (respond d s) x = nodeAt s x := rfl
@[simp] theorem wt_respond (d : Word) (s : State) (x : Handle) : wt (respond d s) x = wt s x := rfl
@[simp] theorem heapAt_respond (d : Word) (s : State) (x : Nat) : heapAt (respond d s) x = heapAt s x := rfl
@[simp] theorem clenAt_respond (d : Word) (s : State) (x : Byte) : clenAt (respond d s) x = clenAt s x := rfl
@[simp] theorem cbitsAt_respond (d : Word) (s : State) (x : Byte) : cbitsAt (respond d s) x = cbitsAt s x := rfl
@[simp] theorem codeBit_respond (d : Word) (s : State) (x : Byte) (k : Nat) : codeBit (respond d s) x k = codeBit s x k := rfl
@[simp] theorem codeOf_respond (d : Word) (s : State) (x : Byte) : codeOf (respond d s) x = codeOf s x := rfl

@[simp] theorem freqAt_refuse (s : State) (x : Byte) : freqAt (refuse s) x = freqAt s x := rfl
@[simp] theorem nodeAt_refuse (s : State) (x : Handle) : nodeAt (refuse s) x = nodeAt s x := rfl
@[simp] theorem wt_refuse (s : State) (x : Handle) : wt (refuse s) x = wt s x := rfl
@[simp] theorem heapAt_refuse (s : State) (x : Nat) : heapAt (refuse s) x = heapAt s x := rfl
@[simp] theorem clenAt_refuse (s : State) (x : Byte) : clenAt (refuse s) x = clenAt s x := rfl
@[simp] theorem cbitsAt_refuse (s : State) (x : Byte) : cbitsAt (refuse s) x = cbitsAt s x := rfl
@[simp] theorem codeBit_refuse (s : State) (x : Byte) (k : Nat) : codeBit (refuse s) x k = codeBit s x k := rfl
@[simp] theorem codeOf_refuse (s : State) (x : Byte) : codeOf (refuse s) x = codeOf s x := rfl

@[simp] theorem freqAt_raise (c : Cause) (s : State) (x : Byte) : freqAt (raise c s) x = freqAt s x := rfl
@[simp] theorem nodeAt_raise (c : Cause) (s : State) (x : Handle) : nodeAt (raise c s) x = nodeAt s x := rfl
@[simp] theorem wt_raise (c : Cause) (s : State) (x : Handle) : wt (raise c s) x = wt s x := rfl
@[simp] theorem heapAt_raise (c : Cause) (s : State) (x : Nat) : heapAt (raise c s) x = heapAt s x := rfl
@[simp] theorem clenAt_raise (c : Cause) (s : State) (x : Byte) : clenAt (raise c s) x = clenAt s x := rfl
@[simp] theorem cbitsAt_raise (c : Cause) (s : State) (x : Byte) : cbitsAt (raise c s) x = cbitsAt s x := rfl
@[simp] theorem codeBit_raise (c : Cause) (s : State) (x : Byte) (k : Nat) : codeBit (raise c s) x k = codeBit s x k := rfl
@[simp] theorem codeOf_raise (c : Cause) (s : State) (x : Byte) : codeOf (raise c s) x = codeOf s x := rfl

@[simp] theorem freqAt_emit (b : Byte) (s : State) (x : Byte) : freqAt (emit b s) x = freqAt s x := rfl
@[simp] theorem nodeAt_emit (b : Byte) (s : State) (x : Handle) : nodeAt (emit b s) x = nodeAt s x := rfl
@[simp] theorem wt_emit (b : Byte) (s : State) (x : Handle) : wt (emit b s) x = wt s x := rfl
@[simp] theorem heapAt_emit (b : Byte) (s : State) (x : Nat) : heapAt (emit b s) x = heapAt s x := rfl
@[simp] theorem clenAt_emit (b : Byte) (s : State) (x : Byte) : clenAt (emit b s) x = clenAt s x := rfl
@[simp] theorem cbitsAt_emit (b : Byte) (s : State) (x : Byte) : cbitsAt (emit b s) x = cbitsAt s x := rfl
@[simp] theorem codeBit_emit (b : Byte) (s : State) (x : Byte) (k : Nat) : codeBit (emit b s) x k = codeBit s x k := rfl
@[simp] theorem codeOf_emit (b : Byte) (s : State) (x : Byte) : codeOf (emit b s) x = codeOf s x := rfl

@[simp] theorem nodeAt_setFreq (b : Byte) (v : Freq) (s : State) (x : Handle) : nodeAt (setFreq b v s) x = nodeAt s x := rfl
@[simp] theorem wt_setFreq (b : Byte) (v : Freq) (s : State) (x : Handle) : wt (setFreq b v s) x = wt s x := rfl
@[simp] theorem heapAt_setFreq (b : Byte) (v : Freq) (s : State) (x : Nat) : heapAt (setFreq b v s) x = heapAt s x := rfl
@[simp] theorem clenAt_setFreq (b : Byte) (v : Freq) (s : State) (x : Byte) : clenAt (setFreq b v s) x = clenAt s x := rfl
@[simp] theorem cbitsAt_setFreq (b : Byte) (v : Freq) (s : State) (x : Byte) : cbitsAt (setFreq b v s) x = cbitsAt s x := rfl
@[simp] theorem codeBit_setFreq (b : Byte) (v : Freq) (s : State) (x : Byte) (k : Nat) : codeBit (setFreq b v s) x k = codeBit s x k := rfl
@[simp] theorem codeOf_setFreq (b : Byte) (v : Freq) (s : State) (x : Byte) : codeOf (setFreq b v s) x = codeOf s x := rfl

@[simp] theorem freqAt_setCode (b : Byte) (p : List Bool) (s : State) (x : Byte) : freqAt (setCode b p s) x = freqAt s x := rfl
@[simp] theorem nodeAt_setCode (b : Byte) (p : List Bool) (s : State) (x : Handle) : nodeAt (setCode b p s) x = nodeAt s x := rfl
@[simp] theorem wt_setCode (b : Byte) (p : List Bool) (s : State) (x : Handle) : wt (setCode b p s) x = wt s x := rfl
@[simp] theorem heapAt_setCode (b : Byte) (p : List Bool) (s : State) (x : Nat) : heapAt (setCode b p s) x = heapAt s x := rfl

@[simp] theorem freqAt_emptyQueue (s : State) (x : Byte) : freqAt (emptyQueue s) x = freqAt s x := rfl
@[simp] theorem nodeAt_emptyQueue (s : State) (x : Handle) : nodeAt (emptyQueue s) x = nodeAt s x := rfl
@[simp] theorem wt_emptyQueue (s : State) (x : Handle) : wt (emptyQueue s) x = wt s x := rfl
@[simp] theorem heapAt_emptyQueue (s : State) (x : Nat) : heapAt (emptyQueue s) x = heapAt s x := rfl
@[simp] theorem clenAt_emptyQueue (s : State) (x : Byte) : clenAt (emptyQueue s) x = clenAt s x := rfl
@[simp] theorem cbitsAt_emptyQueue (s : State) (x : Byte) : cbitsAt (emptyQueue s) x = cbitsAt s x := rfl
@[simp] theorem codeBit_emptyQueue (s : State) (x : Byte) (k : Nat) : codeBit (emptyQueue s) x k = codeBit s x k := rfl
@[simp] theorem codeOf_emptyQueue (s : State) (x : Byte) : codeOf (emptyQueue s) x = codeOf s x := rfl

@[simp] theorem nodeAt_clearState (s : State) (x : Handle) : nodeAt (clearState s) x = nodeAt s x := rfl
@[simp] theorem wt_clearState (s : State) (x : Handle) : wt (clearState s) x = wt s x := rfl
@[simp] theorem heapAt_clearState (s : State) (x : Nat) : heapAt (clearState s) x = heapAt s x := rfl
@[simp] theorem cbitsAt_clearState (s : State) (x : Byte) : cbitsAt (clearState s) x = cbitsAt s x := rfl
@[simp] theorem codeBit_clearState (s : State) (x : Byte) (k : Nat) : codeBit (clearState s) x k = codeBit s x k := rfl

end Sys2Proof.Machine
end

