-- ==== Sys2Proof/Laws/Arrays.lean ====
section
/-! SUPPORT. Reading an array element after a write: the value written there, and every other element as before. -/

namespace Sys2Proof.Machine

theorem freqAt_setFreq (b c : Byte) (v : Freq) (s : State) :
    freqAt (setFreq b v s) c = if c = b then v else freqAt s c := by
  by_cases h : c = b
  · subst h; simp [freqAt]
  · have : b.toNat ≠ c.toNat := fun e => h (BitVec.eq_of_toNat_eq e.symm)
    simp [freqAt, h, Vector.getElem_set_ne, this]

theorem freqAt_of_freq_eq {s t : State} (h : s.freq = t.freq) (b : Byte) : freqAt s b = freqAt t b := by
  simp [freqAt, h]

theorem nodeAt_of_node_eq {s t : State} (h : s.node = t.node) (x : Handle) : nodeAt s x = nodeAt t x := by
  simp [nodeAt, h]

theorem wt_of_node_eq {s t : State} (h : s.node = t.node) : wt s = wt t := by
  funext x; simp [wt, nodeAt_of_node_eq h]

theorem clenAt_of_clen_eq {s t : State} (h : s.clen = t.clen) (b : Byte) : clenAt s b = clenAt t b := by
  simp [clenAt, h]

theorem cbitsAt_of_cbits_eq {s t : State} (h : s.cbits = t.cbits) (b : Byte) : cbitsAt s b = cbitsAt t b := by
  simp [cbitsAt, h]

theorem codeOf_of_table_eq {s t : State} (h : s.clen = t.clen) (h' : s.cbits = t.cbits) (b : Byte) :
    codeOf s b = codeOf t b := by
  have : codeBit s b = codeBit t b := by funext k; simp [codeBit, cbitsAt_of_cbits_eq h']
  simp [codeOf, clenAt_of_clen_eq h, this]

theorem heapAt_of_heap_eq {s t : State} (h : s.heap = t.heap) (i : Nat) : heapAt s i = heapAt t i := by
  simp [heapAt, h]

theorem liveHeap_of_heap_eq {s t : State} (h : s.heap = t.heap) (h' : s.size = t.size) : liveHeap s = liveHeap t := by
  have : heapAt s = heapAt t := funext (heapAt_of_heap_eq h)
  simp [liveHeap, h', this]

theorem heapGet_heapSet {i : Nat} (hi : i < 256) (a : Vector Handle 256) (v : Handle) (j : Nat) :
    heapGet (heapSet a i v) j = if j = i then v else heapGet a j := by
  by_cases hj : j < 256
  · by_cases h : j = i
    · subst h; simp [heapGet, heapSet, hi]
    · simp [heapGet, heapSet, hi, hj, h, Vector.getElem_set_ne, Ne.symm h]
  · have : j ≠ i := by omega
    simp [heapGet, hj, this]

theorem heapGet_heapSwap {i j : Nat} (hi : i < 256) (hj : j < 256) (a : Vector Handle 256) (k : Nat) :
    heapGet (heapSwap a i j) k = if k = j then heapGet a i else if k = i then heapGet a j else heapGet a k := by
  simp [heapSwap, heapGet_heapSet, hi, hj]

theorem nodeAt_nodeSet {s : State} {a : Vector Node 511} {h : Handle} {n : Node} (hs : s.node = nodeSet a h n)
    (hh : h.toNat < 511) (x : Handle) :
    nodeAt s x = if x = h then n else if hx : x.toNat < 511 then a[x.toNat] else Config.nodeOfNil := by
  by_cases e : x = h
  · subst e; simp [nodeAt, hs, nodeSet, hh]
  · have : h.toNat ≠ x.toNat := fun q => e (BitVec.eq_of_toNat_eq q.symm)
    simp [nodeAt, hs, nodeSet, hh, e, Vector.getElem_set_ne, this]

theorem clenAt_setCode (b c : Byte) (p : List Bool) (s : State) :
    clenAt (setCode b p s) c = if c = b then BitVec.ofNat 9 p.length else clenAt s c := by
  by_cases h : c = b
  · subst h; simp [clenAt]
  · have : b.toNat ≠ c.toNat := fun e => h (BitVec.eq_of_toNat_eq e.symm)
    simp [clenAt, h, Vector.getElem_set_ne, this]

theorem cbitsAt_setCode (b c : Byte) (p : List Bool) (s : State) :
    cbitsAt (setCode b p s) c = if c = b then p else cbitsAt s c := by
  by_cases h : c = b
  · subst h; simp [cbitsAt]
  · have : b.toNat ≠ c.toNat := fun e => h (BitVec.eq_of_toNat_eq e.symm)
    simp [cbitsAt, h, Vector.getElem_set_ne, this]

/-- A code whose length and bits are those of p is p. -/
theorem codeOf_eq_of_held {s : State} {b : Byte} {p : List Bool} (hl : (clenAt s b).toNat = p.length)
    (hb : cbitsAt s b = p) : codeOf s b = p := by
  apply List.ext_getElem
  · simp [codeOf, hl]
  · intro k h1 h2
    simp [codeOf, codeBit, hb, h2]

@[simp] theorem length_codeOf (s : State) (b : Byte) : (codeOf s b).length = (clenAt s b).toNat := by
  simp [codeOf]

@[simp] theorem mem_allSyms (b : Byte) : b ∈ allSyms := by
  simp only [allSyms, List.mem_map, List.mem_range]
  exact ⟨b.toNat, b.isLt, by simp⟩

theorem nodup_allSyms : allSyms.Nodup := by
  refine List.Nodup.map_on ?_ List.nodup_range
  intro x hx y hy h
  simp only [List.mem_range] at hx hy
  have := congrArg BitVec.toNat h
  simp only [BitVec.toNat_ofNat] at this
  omega

@[simp] theorem length_allSyms : allSyms.length = 256 := by simp [allSyms]

theorem freqAt_clearState (s : State) (b : Byte) : freqAt (clearState s) b = 0 := by simp [freqAt]

theorem clenAt_clearState (s : State) (b : Byte) : clenAt (clearState s) b = 0 := by simp [clenAt]

theorem freqAt_resetCore (s : State) (b : Byte) : freqAt (resetCore s) b = 0 := by simp [freqAt, State.reset]

theorem clenAt_resetCore (s : State) (b : Byte) : clenAt (resetCore s) b = 0 := by simp [clenAt, State.reset]

end Sys2Proof.Machine
end

