-- ==== Sys2Proof/Laws/Heap.lean ====
section
/-! SUPPORT. The sift loops of the priority queue (41_priority_queue.md rule R112, rule R115): they permute the live entries
and restore the min-heap property (rule R122). -/

namespace Sys2Proof.Machine

/-- The first n entries of a heap array. -/
def entries (a : Vector Handle 256) (n : Nat) : List Handle := (List.range n).map (heapGet a)

/-- The min-heap property of the first n entries, for the weight w. -/
def Ordered (w : Handle → Weight) (a : Vector Handle 256) (n : Nat) : Prop :=
  ∀ j, 1 ≤ j → j < n → (w (heapGet a ((j - 1) / 2))).toNat ≤ (w (heapGet a j)).toNat

theorem liveHeap_eq (s : State) : liveHeap s = entries s.heap s.size.toNat := rfl

theorem heapOrdered_iff (s : State) : HeapOrdered s ↔ Ordered (wt s) s.heap s.size.toNat := by
  simp only [HeapOrdered, Ordered, BitVec.le_def, heapAt]

theorem mem_entries {a : Vector Handle 256} {n : Nat} {h : Handle} :
    h ∈ entries a n ↔ ∃ i, i < n ∧ heapGet a i = h := by
  simp [entries]

@[simp] theorem length_entries (a : Vector Handle 256) (n : Nat) : (entries a n).length = n := by simp [entries]

theorem entries_heapSwap {i j n : Nat} (hn : n ≤ 256) (hi : i < n) (hj : j < n) (a : Vector Handle 256) :
    (entries (heapSwap a i j) n).Perm (entries a n) := by
  have e : entries (heapSwap a i j) n = ((List.range n).map (Equiv.swap i j)).map (heapGet a) := by
    rw [List.map_map]
    refine List.map_congr_left fun k _ => ?_
    rw [heapGet_heapSwap (by omega) (by omega)]
    simp only [Function.comp, Equiv.swap_apply_def]
    split_ifs <;> simp_all
  rw [e]
  refine List.Perm.map _ ((List.perm_ext_iff_of_nodup ?_ List.nodup_range).2 fun k => ?_)
  · exact List.nodup_range.map (Equiv.swap i j).injective
  · simp only [List.mem_map, List.mem_range]
    constructor
    · rintro ⟨m, hm, rfl⟩
      rw [Equiv.swap_apply_def]; split_ifs <;> omega
    · intro hk
      refine ⟨Equiv.swap i j k, ?_, Equiv.swap_apply_self i j k⟩
      rw [Equiv.swap_apply_def]; split_ifs <;> omega

theorem siftUp_perm (w : Handle → Weight) {n : Nat} (hn : n ≤ 256) :
    ∀ (fuel : Nat) (a : Vector Handle 256) (i : Nat), i < n → (entries (siftUp w fuel a i) n).Perm (entries a n)
  | 0, _, _, _ => List.Perm.refl _
  | fuel + 1, a, i, hi => by
    simp only [siftUp]
    split_ifs
    · exact List.Perm.refl _
    · exact (siftUp_perm w hn fuel _ _ (by omega)).trans (entries_heapSwap hn hi (by omega) a)
    · exact List.Perm.refl _

theorem siftChoice_cases (w : Handle → Weight) (n : Nat) (a : Vector Handle 256) (i : Nat) :
    siftChoice w n a i = i ∨ (siftChoice w n a i = 2 * i + 1 ∧ 2 * i + 1 < n) ∨
      (siftChoice w n a i = 2 * i + 2 ∧ 2 * i + 2 < n) := by
  simp only [siftChoice]
  split_ifs <;> simp_all

theorem siftDown_perm (w : Handle → Weight) {n : Nat} (hn : n ≤ 256) :
    ∀ (fuel : Nat) (a : Vector Handle 256) (i : Nat), i < n → (entries (siftDown w n fuel a i) n).Perm (entries a n)
  | 0, _, _, _ => List.Perm.refl _
  | fuel + 1, a, i, hi => by
    have hc := siftChoice_cases w n a i
    simp only [siftDown]
    split_ifs
    · exact List.Perm.refl _
    · have hs : siftChoice w n a i < n := by omega
      exact (siftDown_perm w hn fuel _ _ hs).trans (entries_heapSwap hn hi hs a)

/-- The heap property is kept by the loop of insert: it may fail only between position i and its parent, and i's parent is not
heavier than i's children. -/
theorem siftUp_ordered (w : Handle → Weight) {n : Nat} (hn : n ≤ 256) :
    ∀ (fuel : Nat) (a : Vector Handle 256) (i : Nat), i ≤ fuel → i < n →
      (∀ j, 1 ≤ j → j < n → j ≠ i → (w (heapGet a ((j - 1) / 2))).toNat ≤ (w (heapGet a j)).toNat) →
      (∀ j, 1 ≤ j → j < n → (j - 1) / 2 = i → 1 ≤ i →
        (w (heapGet a ((i - 1) / 2))).toNat ≤ (w (heapGet a j)).toNat) →
      Ordered w (siftUp w fuel a i) n
  | 0, a, i, hf, _, h1, _ => fun j hj hjn => h1 j hj hjn (by omega)
  | fuel + 1, a, i, hf, hi, h1, h2 => by
    simp only [siftUp]
    split_ifs with h0 hlt
    · exact fun j hj hjn => h1 j hj hjn (by omega)
    · rw [BitVec.lt_def] at hlt
      have hp : (i - 1) / 2 < i := by omega
      refine siftUp_ordered w hn fuel _ _ (by omega) (by omega) ?_ ?_
      · intro j hj hjn hne
        rw [heapGet_heapSwap (by omega) (by omega), heapGet_heapSwap (by omega) (by omega)]
        have := h1 j hj hjn
        by_cases hji : j = i
        · subst hji; simp; split_ifs <;> omega
        · by_cases hpi : (j - 1) / 2 = i
          · have h2' := h2 j hj hjn hpi (by omega)
            rw [hpi, if_neg (by omega), if_pos rfl, if_neg (by omega), if_neg (by omega)]
            exact h2'
          · by_cases hpp : (j - 1) / 2 = (i - 1) / 2
            · have := this hji
              rw [hpp] at this ⊢
              rw [if_pos rfl, if_neg (by omega), if_neg (by omega)]
              omega
            · simp only [hpi, hpp, hne, hji, if_false]; exact this hji
      · intro j hj hjn hpj hp1
        have hpp : ((i - 1) / 2 - 1) / 2 ≠ i := by omega
        have hpp' : ((i - 1) / 2 - 1) / 2 ≠ (i - 1) / 2 := by omega
        rw [heapGet_heapSwap (by omega) (by omega), heapGet_heapSwap (by omega) (by omega)]
        simp only [hpp, hpp', if_false]
        have hgp := h1 ((i - 1) / 2) hp1 (by omega) (by omega)
        by_cases hji : j = i
        · subst hji; split_ifs <;> omega
        · have := h1 j hj hjn hji
          rw [hpj] at this
          split_ifs <;> omega
    · intro j hj hjn
      rw [BitVec.lt_def] at hlt
      by_cases hji : j = i
      · subst hji; omega
      · exact h1 j hj hjn hji

/-- The heap property is restored by `sift_down`: it may fail only between position i and its children, and i's parent is not
heavier than i's children. -/
theorem siftDown_ordered (w : Handle → Weight) {n : Nat} (hn : n ≤ 256) :
    ∀ (fuel : Nat) (a : Vector Handle 256) (i : Nat), n ≤ fuel + i → i < n →
      (∀ j, 1 ≤ j → j < n → (j - 1) / 2 ≠ i → (w (heapGet a ((j - 1) / 2))).toNat ≤ (w (heapGet a j)).toNat) →
      (∀ j, 1 ≤ j → j < n → (j - 1) / 2 = i → 1 ≤ i →
        (w (heapGet a ((i - 1) / 2))).toNat ≤ (w (heapGet a j)).toNat) →
      Ordered w (siftDown w n fuel a i) n
  | 0, a, i, hf, hi, _, _ => by omega
  | fuel + 1, a, i, hf, hi, h1, h2 => by
    have hc := siftChoice_cases w n a i
    -- the chosen position is not heavier than i and than each child
    have hmin : (w (heapGet a (siftChoice w n a i))).toNat ≤ (w (heapGet a i)).toNat ∧
        (2 * i + 1 < n → (w (heapGet a (siftChoice w n a i))).toNat ≤ (w (heapGet a (2 * i + 1))).toNat) ∧
        (2 * i + 2 < n → (w (heapGet a (siftChoice w n a i))).toNat ≤ (w (heapGet a (2 * i + 2))).toNat) := by
      simp only [siftChoice, BitVec.lt_def]
      split_ifs <;> refine ⟨?_, ?_, ?_⟩ <;> (try intro) <;> omega
    simp only [siftDown]
    split_ifs with hs
    · rw [hs] at hmin
      intro j hj hjn
      by_cases hpi : (j - 1) / 2 = i
      · rcases (by omega : j = 2 * i + 1 ∨ j = 2 * i + 2) with rfl | rfl
        · rw [hpi]; exact hmin.2.1 hjn
        · rw [hpi]; exact hmin.2.2 hjn
      · exact h1 j hj hjn hpi
    · generalize siftChoice w n a i = c at *
      have hcn : c < n := by omega
      have hpc : (c - 1) / 2 = i := by omega
      refine siftDown_ordered w hn fuel _ _ (by omega) hcn ?_ ?_
      · intro j hj hjn hne
        rw [heapGet_heapSwap (by omega) (by omega), heapGet_heapSwap (by omega) (by omega)]
        by_cases hpi : (j - 1) / 2 = i
        · have hic : i ≠ c := by omega
          have hji : j ≠ i := by omega
          simp only [hpi, hic, hji, if_true, if_false]
          rcases (by omega : j = 2 * i + 1 ∨ j = 2 * i + 2) with rfl | rfl
          · have := hmin.2.1 hjn
            split_ifs <;> omega
          · have := hmin.2.2 hjn
            split_ifs <;> omega
        · have hjc : j ≠ c := by rintro rfl; exact hpi hpc
          simp only [hpi, hne, hjc, if_false]
          by_cases hji : j = i
          · subst hji
            simp only [if_true]
            exact h2 c (by omega) hcn hpc hj
          · simp only [hji, if_false]; exact h1 j hj hjn hpi
      · intro j hj hjn hpj hc1
        have hic : i ≠ c := by omega
        have hjc : j ≠ c := by omega
        have hji : j ≠ i := by omega
        rw [heapGet_heapSwap (by omega) (by omega), heapGet_heapSwap (by omega) (by omega)]
        simp only [hpc, hic, hjc, hji, if_true, if_false]
        have := h1 j hj hjn (by omega)
        rwa [hpj] at this

end Sys2Proof.Machine
end

