-- ==== Sys2Proof/Laws/Ops.lean ====
section
/-! SUPPORT. What the shared operations of Machine/Ops.lean answer: the dispatch of a command, and for each internal operation
of the priority queue everything it does when it completes. -/

namespace Sys2Proof.Machine

/-! ## require, the dispatch, and the three answers -/

@[simp] theorem require_true (e : Cause) : require true e = .ok () := rfl

@[simp] theorem require_false (e : Cause) : require false e = .error e := rfl

@[simp] theorem except_ok_bind {α β : Type} (a : α) (f : α → Except Cause β) : (Except.ok a >>= f) = f a := rfl

@[simp] theorem except_error_bind {α β : Type} (e : Cause) (f : α → Except Cause β) :
    ((Except.error e : Except Cause α) >>= f) = .error e := rfl

@[simp] theorem except_pure {α : Type} (a : α) : (pure a : Except Cause α) = .ok a := rfl

theorem except_bind_ok {α β : Type} {x : Except Cause α} {f : α → Except Cause β} {b : β} :
    (x >>= f) = .ok b ↔ ∃ a, x = .ok a ∧ f a = .ok b := by
  cases x <;> simp

theorem except_bind_error {α β : Type} {x : Except Cause α} {f : α → Except Cause β} {e : Cause} :
    (x >>= f) = .error e ↔ x = .error e ∨ ∃ a, x = .ok a ∧ f a = .error e := by
  cases x <;> simp

theorem require_ok {c : Bool} {e : Cause} {u : Unit} : require c e = .ok u ↔ c = true := by
  cases c <;> simp

theorem require_error {c : Bool} {e e' : Cause} : require c e = .error e' ↔ c = false ∧ e = e' := by
  cases c <;> simp

theorem command_faulted {s : State} (h : s.fault = true) (b : Except Cause (State × Word)) :
    command s b = .next (refuse s) := by
  simp [command, h]

theorem command_ok {s t : State} {d : Word} (h : s.fault = false) : command s (.ok (t, d)) = .next (respond d t) := by
  simp [command, h, complete]

theorem command_error {s : State} {e : Cause} (h : s.fault = false) : command s (.error e) = .next (raise e s) := by
  simp [command, h, complete]

/-- The three answers of a command that is not a read: refused, its own effect, or a fault. -/
theorem command_cases {s t : State} {b : Except Cause (State × Word)} (h : command s b = .next t) :
    (s.fault = true ∧ t = refuse s) ∨ (s.fault = false ∧ ∃ u d, b = .ok (u, d) ∧ t = respond d u) ∨
      (s.fault = false ∧ ∃ e, b = .error e ∧ t = raise e s) := by
  simp only [command, Host.Outcome.next.injEq] at h
  cases hf : s.fault
  · rcases b with e | ⟨u, d⟩
    · exact .inr (.inr ⟨rfl, e, rfl, by simpa [hf, complete] using h.symm⟩)
    · exact .inr (.inl ⟨rfl, u, d, rfl, by simpa [hf, complete] using h.symm⟩)
  · exact .inl ⟨rfl, by simpa [hf] using h.symm⟩

/-- The three answers of a read command. -/
theorem readCommand_cases {s t : State} {b : Except Cause Word} (h : readCommand s b = .next t) :
    (∃ d, b = .ok d ∧ t = respond d s) ∨ (s.fault = true ∧ t = refuse s) ∨
      (s.fault = false ∧ ∃ e, b = .error e ∧ t = raise e s) := by
  simp only [readCommand, Host.Outcome.next.injEq] at h
  rcases b with e | d
  · cases hf : s.fault
    · exact .inr (.inr ⟨rfl, e, rfl, by simpa [hf] using h.symm⟩)
    · exact .inr (.inl ⟨rfl, by simpa [hf] using h.symm⟩)
  · exact .inl ⟨d, rfl, h.symm⟩

theorem command_next (s : State) (b : Except Cause (State × Word)) : ∃ t, command s b = .next t := ⟨_, rfl⟩

theorem readCommand_next (s : State) (b : Except Cause Word) : ∃ t, readCommand s b = .next t := ⟨_, rfl⟩

/-! ## The queue's operations -/

theorem pqInsert_ok {h : Handle} {s t : State} : pqInsert h s = .ok t ↔
    s.size.toNat < 256 ∧
      t = { s with
        heap := siftUp (wt s) s.size.toNat (heapSet s.heap s.size.toNat h) s.size.toNat
        size := s.size + 1#9 } := by
  by_cases hs : s.size.toNat < 256 <;> simp [pqInsert, hs, eq_comm]

theorem pqInsert_error {h : Handle} {s : State} {e : Cause} :
    pqInsert h s = .error e ↔ 256 ≤ s.size.toNat ∧ e = .cap := by
  by_cases hs : s.size.toNat < 256
  · simp [pqInsert, hs]
  · simpa [pqInsert, hs, eq_comm] using fun _ => Nat.le_of_not_lt hs

theorem pqExtractMin_ok {s t : State} {m : Handle} : pqExtractMin s = .ok (t, m) ↔
    1 ≤ s.size.toNat ∧ m = heapAt s 0 ∧
      t = { s with
        heap := siftDown (wt s) (s.size.toNat - 1) (s.size.toNat - 1) (heapSet s.heap 0 (heapAt s (s.size.toNat - 1))) 0
        size := s.size - 1#9 } := by
  by_cases hs : 1 ≤ s.size.toNat
  · simp [pqExtractMin, hs, eq_comm, and_comm]
  · simp [pqExtractMin, hs]

theorem pqExtractMin_error {s : State} {e : Cause} :
    pqExtractMin s = .error e ↔ s.size.toNat = 0 ∧ e = .pqEmpty := by
  by_cases hs : 1 ≤ s.size.toNat <;> simp [pqExtractMin, hs, eq_comm] <;> omega

theorem nodeAlloc_ok {n : Node} {s t : State} {h : Handle} : nodeAlloc n s = .ok (t, h) ↔
    s.nnodes.toNat < 511 ∧ h = s.nnodes ∧
      t = { s with node := nodeSet s.node s.nnodes n, nnodes := s.nnodes + 1#9 } := by
  by_cases hs : s.nnodes.toNat < 511
  · simp [nodeAlloc, hs, eq_comm, and_comm]
  · simp [nodeAlloc, hs]

theorem nodeAlloc_error {n : Node} {s : State} {e : Cause} :
    nodeAlloc n s = .error e ↔ s.nnodes.toNat = 511 ∧ e = .cap := by
  have := s.nnodes.isLt
  by_cases hs : s.nnodes.toNat < 511 <;> simp [nodeAlloc, hs, eq_comm] <;> omega

theorem pqInsert_completes (h : Handle) {s : State} (hs : s.size.toNat < 256) : ∃ t, pqInsert h s = .ok t :=
  ⟨_, pqInsert_ok.2 ⟨hs, rfl⟩⟩

theorem pqExtractMin_completes {s : State} (hs : 1 ≤ s.size.toNat) : ∃ t m, pqExtractMin s = .ok (t, m) :=
  ⟨_, _, pqExtractMin_ok.2 ⟨hs, rfl, rfl⟩⟩

theorem nodeAlloc_completes (n : Node) {s : State} (hs : s.nnodes.toNat < 511) : ∃ t, nodeAlloc n s = .ok (t, s.nnodes) :=
  ⟨_, nodeAlloc_ok.2 ⟨hs, rfl, rfl⟩⟩

/-- What `pq_insert` does (41_priority_queue.md rule R112, rule R122): it writes HEAP and SIZE alone, adds h to the live
entries, and keeps the min-heap property. -/
theorem pqInsert_spec {h : Handle} {s t : State} (e : pqInsert h s = .ok t) :
    s.size.toNat < 256 ∧ t.size.toNat = s.size.toNat + 1 ∧
      t = { s with heap := t.heap, size := t.size } ∧
      (liveHeap t).Perm (h :: liveHeap s) ∧ (HeapOrdered s → HeapOrdered t) := by
  obtain ⟨hs, rfl⟩ := pqInsert_ok.1 e
  have hsz : (s.size + 1#9).toNat = s.size.toNat + 1 := by
    rw [BitVec.toNat_add]; simp; omega
  refine ⟨hs, hsz, rfl, ?_, ?_⟩
  · rw [liveHeap_eq, liveHeap_eq]
    simp only [hsz]
    refine (siftUp_perm _ (by omega) _ _ _ (by omega)).trans ?_
    have : entries (heapSet s.heap s.size.toNat h) (s.size.toNat + 1) = entries s.heap s.size.toNat ++ [h] := by
      simp only [entries, List.range_succ, List.map_append, List.map_cons, List.map_nil]
      congr 1
      · refine List.map_congr_left fun k hk => ?_
        rw [heapGet_heapSet hs, if_neg (by have := List.mem_range.1 hk; omega)]
      · rw [heapGet_heapSet hs, if_pos rfl]
    rw [this]
    exact List.perm_append_singleton h _
  · intro ho
    rw [heapOrdered_iff] at ho ⊢
    simp only [hsz]
    refine siftUp_ordered _ (by omega) _ _ _ (by omega) (by omega) ?_ (fun j _ _ _ _ => by omega)
    intro j hj hjn hne
    rw [heapGet_heapSet hs, heapGet_heapSet hs, if_neg (by omega), if_neg hne]
    exact ho j hj (by omega)

/-- What `pq_extract_min` does (41_priority_queue.md rule R114, rule R122): it writes HEAP and SIZE alone, removes the entry at
position 0 from the live entries, keeps the min-heap property, and the removed entry is not heavier than any other. -/
theorem pqExtractMin_spec {s t : State} {m : Handle} (e : pqExtractMin s = .ok (t, m)) (hs : s.size.toNat ≤ 256) :
    1 ≤ s.size.toNat ∧ t.size.toNat = s.size.toNat - 1 ∧ m = heapAt s 0 ∧
      t = { s with heap := t.heap, size := t.size } ∧
      (liveHeap s).Perm (m :: liveHeap t) ∧ (HeapOrdered s → HeapOrdered t) := by
  obtain ⟨h1, rfl, rfl⟩ := pqExtractMin_ok.1 e
  have hsz : (s.size - 1#9).toNat = s.size.toNat - 1 := by
    rw [BitVec.toNat_sub]; simp; omega
  refine ⟨h1, hsz, rfl, rfl, ?_, ?_⟩
  · rw [liveHeap_eq, liveHeap_eq]
    simp only [hsz]
    obtain ⟨n, hn⟩ : ∃ n, s.size.toNat = n + 1 := ⟨s.size.toNat - 1, by omega⟩
    rw [hn, Nat.add_sub_cancel]
    simp only [heapAt]
    by_cases h0 : n = 0
    · subst h0; simp [entries, siftDown]
    · have hp := siftDown_perm (wt s) (n := n) (by omega) n (heapSet s.heap 0 (heapGet s.heap n)) 0 (by omega)
      refine List.Perm.trans ?_ (List.Perm.cons _ hp.symm)
      obtain ⟨k, rfl⟩ : ∃ k, n = k + 1 := ⟨n - 1, by omega⟩
      have e1 : entries (heapSet s.heap 0 (heapGet s.heap (k + 1))) (k + 1) =
          heapGet s.heap (k + 1) :: (List.range k).map (fun i => heapGet s.heap (i + 1)) := by
        simp only [entries, List.range_succ_eq_map, List.map_cons, List.map_map, heapGet_heapSet (by omega : 0 < 256), if_true]
        congr 1
        exact List.map_congr_left fun i _ => by simp [heapGet_heapSet (by omega : 0 < 256)]
      have e2 : entries s.heap (k + 1 + 1) =
          heapGet s.heap 0 :: ((List.range k).map (fun i => heapGet s.heap (i + 1)) ++ [heapGet s.heap (k + 1)]) := by
        rw [entries, List.range_succ_eq_map, List.range_succ]
        simp [Function.comp_def]
      rw [e1, e2]
      exact List.Perm.cons _ (List.perm_append_singleton _ _)
  · intro ho
    rw [heapOrdered_iff] at ho ⊢
    simp only [hsz]
    by_cases h0 : s.size.toNat - 1 = 0
    · rw [h0]; intro j hj hjn; omega
    · refine siftDown_ordered _ (by omega) _ _ _ (by omega) (by omega) ?_ (fun j _ _ _ _ => by omega)
      intro j hj hjn hne
      rw [heapGet_heapSet (by omega), heapGet_heapSet (by omega), if_neg hne, if_neg (by omega)]
      exact ho j hj (by omega)

/-- "HEAP[0] ... refers to a node of minimum weight among the live entries" (10_state.md rule R25). -/
theorem root_minimum {s : State} (ho : HeapOrdered s) :
    ∀ i, i < s.size.toNat → (wt s (heapAt s 0)).toNat ≤ (wt s (heapAt s i)).toNat := by
  intro i
  induction i using Nat.strong_induction_on with
  | _ i ih =>
    intro hi
    by_cases h0 : i = 0
    · subst h0; exact le_rfl
    · have := ho i (by omega) hi
      rw [BitVec.le_def] at this
      exact (ih ((i - 1) / 2) (by omega) (by omega)).trans this

theorem mem_liveHeap {s : State} {h : Handle} : h ∈ liveHeap s ↔ ∃ i, i < s.size.toNat ∧ heapAt s i = h := by
  simp [liveHeap]

@[simp] theorem length_liveHeap (s : State) : (liveHeap s).length = s.size.toNat := by simp [liveHeap]

theorem heapAllocated_iff (s : State) : HeapAllocated s ↔ ∀ h ∈ liveHeap s, Allocated s h := by
  simp only [HeapAllocated, mem_liveHeap]
  exact ⟨fun h _ ⟨i, hi, e⟩ => e ▸ h i hi, fun h i hi => h _ ⟨i, hi, rfl⟩⟩

/-- What `node_alloc` does (41_priority_queue.md rule R117): record NNODES is written, and the records before it stay. -/
theorem nodeAlloc_spec {n : Node} {s t : State} {h : Handle} (e : nodeAlloc n s = .ok (t, h)) :
    s.nnodes.toNat < 511 ∧ h = s.nnodes ∧ t.nnodes.toNat = s.nnodes.toNat + 1 ∧
      t = { s with node := t.node, nnodes := t.nnodes } ∧ nodeAt t h = n ∧ (∀ x, x ≠ h → nodeAt t x = nodeAt s x) := by
  obtain ⟨hs, rfl, rfl⟩ := nodeAlloc_ok.1 e
  refine ⟨hs, rfl, ?_, rfl, ?_, ?_⟩
  · rw [BitVec.toNat_add]; simp; omega
  · rw [nodeAt_nodeSet rfl hs, if_pos rfl]
  · intro x hx
    rw [nodeAt_nodeSet rfl hs, if_neg hx]
    rfl

/-- The weights of allocated handles are as before an allocation. -/
theorem nodeAt_of_alloc {n : Node} {s t : State} {h x : Handle} (e : nodeAlloc n s = .ok (t, h)) (hx : Allocated s x) :
    nodeAt t x = nodeAt s x := by
  obtain ⟨-, rfl, -, -, -, hk⟩ := nodeAlloc_spec e
  refine hk x fun q => ?_
  subst q
  exact absurd hx (by simp [Allocated])

/-- The min-heap property depends on the weights of the live entries alone. -/
theorem heapOrdered_congr {s t : State} (hh : s.heap = t.heap) (hn : s.size = t.size)
    (hw : ∀ i, i < s.size.toNat → wt s (heapAt s i) = wt t (heapAt s i)) (ho : HeapOrdered s) : HeapOrdered t := by
  intro j hj hjn
  rw [← hn] at hjn
  rw [heapAt_of_heap_eq hh.symm, heapAt_of_heap_eq hh.symm, ← hw _ (by omega), ← hw _ hjn]
  exact ho j hj hjn

/-- What creating a leaf does (41_priority_queue.md rule R119, 42_tree_builder.md rule R131). -/
theorem leafStep_spec {sym : Byte} {s t : State} {h : Handle} (e : leafStep sym s = .ok (t, h)) :
    s.nnodes.toNat < 511 ∧ s.size.toNat < 256 ∧ h = s.nnodes ∧ t.nnodes.toNat = s.nnodes.toNat + 1 ∧
      t.size.toNat = s.size.toNat + 1 ∧ t.nextsym = sym.setWidth 9 + 1#9 ∧
      t = { s with node := t.node, nnodes := t.nnodes, heap := t.heap, size := t.size, nextsym := t.nextsym } ∧
      nodeAt t h = ⟨.leaf, sym, (freqAt s sym).setWidth 40, Config.nil, Config.nil⟩ ∧
      (∀ x, x ≠ h → nodeAt t x = nodeAt s x) ∧ (liveHeap t).Perm (h :: liveHeap s) ∧
      (HeapAllocated s → HeapOrdered s → HeapOrdered t) := by
  simp only [leafStep, except_bind_ok, except_pure, Except.ok.injEq, Prod.mk.injEq] at e
  obtain ⟨⟨u, h'⟩, ha, v, hi, rfl, rfl⟩ := e
  obtain ⟨h1, h2, h3, h4, h5, h6⟩ := nodeAlloc_spec ha
  obtain ⟨i1, i2, i3, i4, i5⟩ := pqInsert_spec hi
  have us : u.size = s.size := by rw [h4]
  have uh : u.heap = s.heap := by rw [h4]
  have vn : v.node = u.node := by rw [i3]
  refine ⟨h1, us ▸ i1, h2, ?_, ?_, rfl, ?_, ?_, ?_, ?_, ?_⟩
  · rw [← h3, i3]
  · rw [← us, ← i2]
  · rw [i3, h4]
  · rw [← h5]; exact nodeAt_of_node_eq vn _
  · intro x hx; rw [← h6 x hx]; exact nodeAt_of_node_eq vn _
  · have : liveHeap u = liveHeap s := liveHeap_of_heap_eq uh us
    exact this ▸ i4
  · intro hal ho
    refine heapOrdered_congr (s := v) rfl rfl (fun _ _ => rfl) (i5 ?_)
    refine heapOrdered_congr uh.symm us.symm (fun i hi => ?_) ho
    simp only [wt]
    rw [nodeAt_of_alloc ha (hal i hi)]

theorem leafStep_completes (sym : Byte) {s : State} (h1 : s.nnodes.toNat < 511) (h2 : s.size.toNat < 256) :
    ∃ t, leafStep sym s = .ok (t, s.nnodes) := by
  simp [leafStep, nodeAlloc, pqInsert, h1, h2]

/-- What one merge step does (42_tree_builder.md rule R130, rule R131). -/
theorem mergeStep_spec {s t : State} {p : Handle} (e : mergeStep s = .ok (t, p)) (hs : s.size.toNat ≤ 256) :
    ∃ l r rest, 2 ≤ s.size.toNat ∧ s.nnodes.toNat < 511 ∧ p = s.nnodes ∧ t.nnodes.toNat = s.nnodes.toNat + 1 ∧
      t.size.toNat = s.size.toNat - 1 ∧
      t = { s with node := t.node, nnodes := t.nnodes, heap := t.heap, size := t.size } ∧
      nodeAt t p = ⟨.internal, 0#8, wt s l + wt s r, l, r⟩ ∧ (∀ x, x ≠ p → nodeAt t x = nodeAt s x) ∧
      (liveHeap s).Perm (l :: r :: rest) ∧ (liveHeap t).Perm (p :: rest) ∧
      (HeapOrdered s → wt s l ≤ wt s r ∧ (∀ x ∈ rest, wt s r ≤ wt s x) ∧ (HeapAllocated s → HeapOrdered t)) := by
  simp only [mergeStep, except_bind_ok, except_pure, Except.ok.injEq, Prod.mk.injEq] at e
  obtain ⟨⟨a, l⟩, ea, ⟨b, r⟩, eb, ⟨c, q⟩, ec, d, ed, rfl, rfl⟩ := e
  simp only at eb ec ed
  obtain ⟨a1, a2, a3, a4, a5, a6⟩ := pqExtractMin_spec ea hs
  obtain ⟨b1, b2, b3, b4, b5, b6⟩ := pqExtractMin_spec eb (by omega)
  obtain ⟨c1, c2, c3, c4, c5, c6⟩ := nodeAlloc_spec ec
  obtain ⟨d1, d2, d3, d4, d5⟩ := pqInsert_spec ed
  have an : a.node = s.node := by rw [a4]
  have bn : b.node = s.node := by rw [b4]; exact an
  have bnn : b.nnodes = s.nnodes := by rw [b4, a4]
  have cs : c.size = b.size := by rw [c4]
  have ch : c.heap = b.heap := by rw [c4]
  have dn : d.node = c.node := by rw [d3]
  have wb : wt b = wt s := wt_of_node_eq bn
  have wa : wt a = wt s := wt_of_node_eq an
  have lb : liveHeap c = liveHeap b := liveHeap_of_heap_eq ch cs
  refine ⟨l, r, liveHeap b, by omega, bnn ▸ c1, c2.trans bnn, ?_, ?_, ?_, ?_, ?_, ?_, lb ▸ d4, ?_⟩
  · rw [← bnn, ← c3, d3]
  · rw [d2, cs, b2, a2]; omega
  · rw [d3, c4, b4, a4]
  · rw [nodeAt_of_node_eq dn, c5, wb]
  · intro x hx; rw [nodeAt_of_node_eq dn, c6 x hx, nodeAt_of_node_eq bn]
  · exact a5.trans (List.Perm.cons _ b5)
  · intro ho
    have hoa := a6 ho
    have hob := b6 hoa
    have ra : r ∈ liveHeap a := b5.mem_iff.2 List.mem_cons_self
    refine ⟨?_, ?_, ?_⟩
    · obtain ⟨i, hi, hr⟩ := mem_liveHeap.1 (a5.mem_iff.2 (List.mem_cons_of_mem _ ra))
      rw [BitVec.le_def, ← hr, a3]
      exact root_minimum ho i hi
    · intro x hx
      obtain ⟨i, hi, hx'⟩ := mem_liveHeap.1 (b5.mem_iff.2 (List.mem_cons_of_mem _ hx))
      have := root_minimum hoa i hi
      rw [wa] at this
      rw [BitVec.le_def, ← hx', b3]
      exact this
    · intro hal
      refine d5 (heapOrdered_congr ch.symm cs.symm (fun i hi => ?_) hob)
      have hb : heapAt b i ∈ liveHeap b := mem_liveHeap.2 ⟨i, hi, rfl⟩
      have : Allocated s (heapAt b i) := (heapAllocated_iff s).1 hal _
        (a5.mem_iff.2 (List.mem_cons_of_mem _ (b5.mem_iff.2 (List.mem_cons_of_mem _ hb))))
      simp only [wt]
      rw [nodeAt_of_alloc ec]
      simpa [Allocated, bnn] using this

theorem mergeStep_completes {s : State} (h1 : s.nnodes.toNat < 511) (h2 : 2 ≤ s.size.toNat) (h3 : s.size.toNat ≤ 256) :
    ∃ t, mergeStep s = .ok (t, s.nnodes) := by
  obtain ⟨a, l, ea⟩ := pqExtractMin_completes (s := s) (by omega)
  obtain ⟨-, a2, -, a4, -⟩ := pqExtractMin_spec ea h3
  obtain ⟨b, r, eb⟩ := pqExtractMin_completes (s := a) (by omega)
  obtain ⟨-, b2, -, b4, -⟩ := pqExtractMin_spec eb (by omega)
  have bnn : b.nnodes = s.nnodes := by rw [b4, a4]
  obtain ⟨c, ec⟩ := nodeAlloc_completes ⟨.internal, 0#8, wt b l + wt b r, l, r⟩ (s := b) (by rw [bnn]; exact h1)
  obtain ⟨-, -, -, c4, -⟩ := nodeAlloc_spec ec
  have cs : c.size = b.size := by rw [c4]
  obtain ⟨d, ed⟩ := pqInsert_completes s.nnodes (s := c) (by rw [cs]; omega)
  exact ⟨d, by simp only [mergeStep, ea, eb, ec, ed, bnn, except_ok_bind, except_pure]⟩

end Sys2Proof.Machine
end

