-- ==== Sys2Proof/Laws/Exec.lean ====
section
/-! SUPPORT. What a command can do, said once (60_exceptions.md rule R172 to rule R175): it is refused, it raises a fault, or it
has its own effect, and then it writes only the state elements of its unit. -/

namespace Sys2Proof.Machine

/-! ## The parts of the state that a unit writes -/

/-- s with the queue, arena and NEXTSYM of t. -/
def withQueue (s t : State) : State :=
  { s with node := t.node, nnodes := t.nnodes, heap := t.heap, size := t.size, nextsym := t.nextsym }

/-- s with the code table and CODE_VALID of t. -/
def withTable (s t : State) : State := { s with clen := t.clen, cbits := t.cbits, codeValid := t.codeValid }

/-- s with the bit buffer and output of t. -/
def withBuffer (s t : State) : State := { s with acc := t.acc, cnt := t.cnt, out := t.out }

theorem withQueue_trans {s t u : State} (h : t = withQueue s t) (h' : u = withQueue t u) : u = withQueue s u := by
  rw [h', h]; rfl

theorem withTable_trans {s t u : State} (h : t = withTable s t) (h' : u = withTable t u) : u = withTable s u := by
  rw [h', h]; rfl

theorem withBuffer_trans {s t u : State} (h : t = withBuffer s t) (h' : u = withBuffer t u) : u = withBuffer s u := by
  rw [h', h]; rfl

theorem leafStep_frame {sym : Byte} {s t : State} {h : Handle} (e : leafStep sym s = .ok (t, h)) : t = withQueue s t := by
  obtain ⟨-, -, -, -, -, -, e, -⟩ := leafStep_spec e
  rw [e]; rfl

theorem mergeStep_frame {s t : State} {p : Handle} (e : mergeStep s = .ok (t, p)) : t = withQueue s t := by
  simp only [mergeStep, except_bind_ok, except_pure, Except.ok.injEq, Prod.mk.injEq] at e
  obtain ⟨⟨a, l⟩, ea, ⟨b, r⟩, eb, ⟨c, q⟩, ec, d, ed, rfl, rfl⟩ := e
  obtain ⟨-, -, rfl⟩ := pqExtractMin_ok.1 ea
  obtain ⟨-, -, rfl⟩ := pqExtractMin_ok.1 eb
  obtain ⟨-, -, rfl⟩ := nodeAlloc_ok.1 ec
  obtain ⟨-, rfl⟩ := pqInsert_ok.1 ed
  rfl

theorem buildLeaves_frame : ∀ {bs : List Byte} {s t : State}, buildLeaves bs s = .ok t → t = withQueue s t
  | [], s, t, e => by cases e; rfl
  | b :: bs, s, t, e => by
    simp only [buildLeaves] at e
    split_ifs at e
    · exact buildLeaves_frame e
    · obtain ⟨⟨u, h⟩, e1, e2⟩ := except_bind_ok.1 e
      exact withQueue_trans (leafStep_frame e1) (buildLeaves_frame e2)

theorem mergeLoop_frame : ∀ {n : Nat} {s t : State}, mergeLoop n s = .ok t → t = withQueue s t
  | 0, s, t, e => by cases e; rfl
  | n + 1, s, t, e => by
    simp only [mergeLoop] at e
    split_ifs at e
    · obtain ⟨⟨u, h⟩, e1, e2⟩ := except_bind_ok.1 e
      exact withQueue_trans (mergeStep_frame e1) (mergeLoop_frame e2)
    · cases e; rfl

theorem writeCodes_frame (es : List (Byte × List Bool)) (s : State) :
    writeCodes es s = withTable s (writeCodes es s) := by
  induction es generalizing s with
  | nil => rfl
  | cons e es ih => exact withTable_trans (t := setCode e.1 e.2 s) rfl (ih _)

theorem shiftBit_frame (c : Bool) (s : State) : shiftBit c s = withBuffer s (shiftBit c s) := by
  simp only [shiftBit]; split <;> rfl

theorem shiftBits_frame (cs : List Bool) (s : State) : shiftBits cs s = withBuffer s (shiftBits cs s) := by
  induction cs generalizing s with
  | nil => rfl
  | cons c cs ih => exact withBuffer_trans (shiftBit_frame c s) (ih _)

theorem flushBits_frame (s : State) : flushBits s = withBuffer s (flushBits s) := by
  simp only [flushBits]; split <;> rfl

/-! ## exec by dispatch -/

/-- The pseudocode of a command that is not `CLR` and not a read. -/
def body : Instr → State → Except Cause (State × Word)
  | .nop, s => .ok (s, 0#32)
  | .count sym, s => countBody sym s
  | .build, s => buildBody s
  | .gen, s => genBody s
  | .enc sym, s => encBody sym s
  | .flush, s => .ok (flushBits s, 0#32)
  | .pqInit, s => .ok (emptyQueue s, 0#32)
  | .leaf sym, s => leafBody sym s
  | .pqExt, s => pqExtBody s
  | .merge, s => mergeBody s
  | .clr, _ | .rdStatus, _ | .rdPqstat, _ | .rdFreq _, _ | .rdPq _, _ | .rdNode _ _, _ | .rdClen _, _ | .rdCode _ _, _ =>
    .error .illcmd

/-- The data of a read command. -/
def readData : Instr → State → Except Cause Word
  | .rdStatus, s => .ok (statusView s)
  | .rdPqstat, s => .ok (pqstatView s)
  | .rdFreq sym, s => .ok (freqAt s sym)
  | .rdPq idx, s => (heapOperand s idx).map fun h => h.setWidth 32
  | .rdNode h sel, s => (nodeOperand s h).map fun n => nodePart n sel
  | .rdClen sym, s => .ok ((clenAt s sym).setWidth 32)
  | .rdCode sym word, s => .ok (codeWord s sym word)
  | .nop, _ | .clr, _ | .count _, _ | .build, _ | .gen, _ | .enc _, _ | .flush, _ | .pqInit, _ | .leaf _, _ | .pqExt, _
  | .merge, _ => .error .illcmd

theorem exec_command {i : Instr} (hr : i.isRead = false) (hc : i ≠ .clr) (s : State) : exec i s = command s (body i s) := by
  cases i <;> first | rfl | exact absurd rfl hc | simp [Instr.isRead] at hr

theorem exec_read {i : Instr} (hr : i.isRead = true) (hw : i.wellFormed = true) (s : State) :
    exec i s = readCommand s (readData i s) := by
  cases i
  case rdNode h sel =>
    have : sel ≠ 3#2 := by simpa [Instr.wellFormed] using hw
    simp [exec, execRdNode, this, readData]
  all_goals first | rfl | simp [Instr.isRead] at hr

theorem exec_illFormed {i : Instr} (hw : i.wellFormed = false) (s : State) : exec i s = execIllegal s := by
  cases i <;> simp [Instr.wellFormed] at hw
  simp [exec, execRdNode, hw]

/-- Everything a command can do. -/
theorem exec_cases {i : Instr} {s t : State} (h : exec i s = .next t) :
    (i = .clr ∧ t = respond 0#32 (clearState s)) ∨
      (s.fault = true ∧ i ≠ .clr ∧ t = refuse s) ∨
      (s.fault = false ∧ ∃ e, t = raise e s) ∨
      (i.isRead = true ∧ i.wellFormed = true ∧ ∃ d, readData i s = .ok d ∧ t = respond d s) ∨
      (i.isRead = false ∧ i ≠ .clr ∧ s.fault = false ∧ ∃ u d, body i s = .ok (u, d) ∧ t = respond d u) := by
  by_cases hc : i = .clr
  · subst hc; exact .inl ⟨rfl, (Host.Outcome.next.inj h).symm⟩
  · cases hw : i.wellFormed
    · rw [exec_illFormed hw] at h
      rcases command_cases h with ⟨hf, rfl⟩ | ⟨hf, u, d, hb, rfl⟩ | ⟨hf, e, -, rfl⟩
      · exact .inr (.inl ⟨hf, hc, rfl⟩)
      · cases hb
      · exact .inr (.inr (.inl ⟨hf, e, rfl⟩))
    · cases hr : i.isRead
      · rw [exec_command hr hc] at h
        rcases command_cases h with ⟨hf, rfl⟩ | ⟨hf, u, d, hb, rfl⟩ | ⟨hf, e, -, rfl⟩
        · exact .inr (.inl ⟨hf, hc, rfl⟩)
        · exact .inr (.inr (.inr (.inr ⟨rfl, hc, hf, u, d, hb, rfl⟩)))
        · exact .inr (.inr (.inl ⟨hf, e, rfl⟩))
      · rw [exec_read hr hw] at h
        rcases readCommand_cases h with ⟨d, hd, rfl⟩ | ⟨hf, rfl⟩ | ⟨hf, e, -, rfl⟩
        · exact .inr (.inr (.inr (.inl ⟨rfl, rfl, d, hd, rfl⟩)))
        · exact .inr (.inl ⟨hf, hc, rfl⟩)
        · exact .inr (.inr (.inl ⟨hf, e, rfl⟩))

/-- Every command answers a next state. -/
theorem exec_next (i : Instr) (s : State) : ∃ t, exec i s = .next t := by
  by_cases hc : i = .clr
  · subst hc; exact ⟨_, rfl⟩
  · cases hw : i.wellFormed
    · rw [exec_illFormed hw]; exact ⟨_, rfl⟩
    · cases hr : i.isRead
      · rw [exec_command hr hc]; exact ⟨_, rfl⟩
      · rw [exec_read hr hw]; exact ⟨_, rfl⟩

/-! ## What a completing command writes -/

theorem countBody_ok {sym : Byte} {s u : State} {d : Word} : countBody sym s = .ok (u, d) ↔
    s.nnodes = 0#9 ∧ freqAt s sym ≠ Config.freqMax ∧ u = setFreq sym (freqAt s sym + 1#32) s ∧ d = 0#32 := by
  by_cases h1 : s.nnodes = 0#9
  · by_cases h2 : freqAt s sym = Config.freqMax
    · simp [countBody, h1, h2]
    · simp [countBody, h1, h2, eq_comm (a := u), eq_comm (a := d)]
  · simp [countBody, h1]

theorem leafBody_ok {sym : Byte} {s u : State} {d : Word} : leafBody sym s = .ok (u, d) ↔
    s.nextsym.toNat ≤ sym.toNat ∧ freqAt s sym ≠ 0#32 ∧ ∃ h, leafStep sym s = .ok (u, h) ∧ d = h.setWidth 32 := by
  by_cases h1 : s.nextsym.toNat ≤ sym.toNat
  · by_cases h2 : freqAt s sym = 0#32
    · simp [leafBody, h1, h2]
    · simp only [leafBody, h1, h2, ne_eq, not_false_eq_true, decide_true, require_true, except_ok_bind, except_bind_ok,
        except_pure, Except.ok.injEq, Prod.mk.injEq, true_and, Prod.exists]
      constructor
      · rintro ⟨a, h, e, rfl, rfl⟩; exact ⟨h, e, rfl⟩
      · rintro ⟨h, e, rfl⟩; exact ⟨u, h, e, rfl, rfl⟩
  · simp [leafBody, h1]

theorem pqExtBody_ok {s u : State} {d : Word} : pqExtBody s = .ok (u, d) ↔
    ∃ m, pqExtractMin s = .ok (u, m) ∧ d = m.setWidth 32 := by
  by_cases h1 : 1 ≤ s.size.toNat
  · simp only [pqExtBody, h1, decide_true, require_true, except_ok_bind, except_bind_ok, except_pure, Except.ok.injEq,
      Prod.mk.injEq, Prod.exists]
    constructor
    · rintro ⟨a, h, e, rfl, rfl⟩; exact ⟨h, e, rfl⟩
    · rintro ⟨h, e, rfl⟩; exact ⟨u, h, e, rfl, rfl⟩
  · simp [pqExtBody, pqExtractMin, h1]

theorem mergeBody_ok {s u : State} {d : Word} : mergeBody s = .ok (u, d) ↔
    2 ≤ s.size.toNat ∧ ∃ p, mergeStep s = .ok (u, p) ∧ d = p.setWidth 32 := by
  by_cases h1 : 2 ≤ s.size.toNat
  · simp only [mergeBody, h1, decide_true, require_true, except_ok_bind, except_bind_ok, except_pure, Except.ok.injEq,
      Prod.mk.injEq, Prod.exists, true_and]
    constructor
    · rintro ⟨a, h, e, rfl, rfl⟩; exact ⟨h, e, rfl⟩
    · rintro ⟨h, e, rfl⟩; exact ⟨u, h, e, rfl, rfl⟩
  · simp [mergeBody, h1]

theorem buildBody_ok {s u : State} {d : Word} : buildBody s = .ok (u, d) ↔
    (∃ b, freqAt s b ≠ 0#32) ∧ ∃ v, buildLeaves allSyms (emptyQueue s) = .ok v ∧ mergeLoop v.size.toNat v = .ok u ∧
      d = (heapAt u 0).setWidth 32 := by
  have ha : (allSyms.any fun b => freqAt s b ≠ 0#32) = true ↔ ∃ b, freqAt s b ≠ 0#32 := by simp
  by_cases h : ∃ b, freqAt s b ≠ 0#32
  · simp only [buildBody, ha.2 h, require_true, except_ok_bind, except_bind_ok, except_pure, Except.ok.injEq, Prod.mk.injEq,
      h, true_and]
    constructor
    · rintro ⟨v, e, w, e', rfl, rfl⟩; exact ⟨v, e, e', rfl⟩
    · rintro ⟨v, e, e', rfl⟩; exact ⟨v, e, u, e', rfl, rfl⟩
  · have : (allSyms.any fun b => freqAt s b ≠ 0#32) = false := by
      rw [Bool.eq_false_iff]; exact fun q => h (ha.1 q)
    simp only [buildBody, this, require_false, except_error_bind, h, false_and]
    simp

theorem genBody_ok {s u : State} {d : Word} : genBody s = .ok (u, d) ↔
    s.cnt = 0#3 ∧ s.size = 1#9 ∧ depthAtMost s 256 (heapAt s 0) = true ∧
      u = { writeCodes (genEntries s (heapAt s 0)) (clearCodes s) with codeValid := true } ∧ d = 0#32 := by
  by_cases h1 : s.cnt = 0#3
  · by_cases h2 : s.size = 1#9
    · cases h3 : depthAtMost s 256 (heapAt s 0)
      · simp [genBody, h1, h2, h3]
      · simp [genBody, h1, h2, h3, eq_comm (a := u), eq_comm (a := d)]
    · by_cases h0 : s.size = 0#9
      · simp [genBody, h1, h0]
      · simp [genBody, h1, h2, h0]
  · simp [genBody, h1]

theorem encBody_ok {sym : Byte} {s u : State} {d : Word} : encBody sym s = .ok (u, d) ↔
    s.codeValid = true ∧ clenAt s sym ≠ 0#9 ∧ u = shiftBits (codeOf s sym) s ∧ d = 0#32 := by
  cases h1 : s.codeValid
  · simp [encBody, h1]
  · by_cases h2 : clenAt s sym = 0#9
    · simp [encBody, h1, h2]
    · simp [encBody, h1, h2, eq_comm (a := u), eq_comm (a := d)]

/-- What a command that completes writes: the elements of its own unit, and its response. -/
theorem body_frame {i : Instr} {s u : State} {d : Word} (h : body i s = .ok (u, d)) :
    u.fault = s.fault ∧ u.err = s.err ∧ u.cmd = s.cmd ∧ u.rsp = s.rsp ∧
      ((u.freq = s.freq) ∨ ∃ sym, i = .count sym) ∧
      ((u.node = s.node ∧ u.nnodes = s.nnodes ∧ u.heap = s.heap ∧ u.size = s.size ∧ u.nextsym = s.nextsym) ∨
        i = .build ∨ i = .pqInit ∨ (∃ sym, i = .leaf sym) ∨ i = .pqExt ∨ i = .merge) ∧
      ((u.clen = s.clen ∧ u.cbits = s.cbits ∧ u.codeValid = s.codeValid) ∨ i = .gen) ∧
      ((u.acc = s.acc ∧ u.cnt = s.cnt ∧ u.out = s.out) ∨ (∃ sym, i = .enc sym) ∨ i = .flush) := by
  cases i <;> simp only [body] at h
  case nop => cases h; simp
  case count sym => obtain ⟨-, -, rfl, -⟩ := countBody_ok.1 h; simp
  case build =>
    obtain ⟨-, v, e1, e2, -⟩ := buildBody_ok.1 h
    have : u = withQueue s u := withQueue_trans (withQueue_trans (t := emptyQueue s) rfl (buildLeaves_frame e1)) (mergeLoop_frame e2)
    rw [this]; simp [withQueue]
  case gen =>
    obtain ⟨-, -, -, rfl, -⟩ := genBody_ok.1 h
    rw [writeCodes_frame]; simp [withTable, clearCodes]
  case enc sym =>
    obtain ⟨-, -, rfl, -⟩ := encBody_ok.1 h
    rw [shiftBits_frame]; simp [withBuffer]
  case flush => cases h; rw [flushBits_frame]; simp [withBuffer]
  case pqInit => cases h; simp
  case leaf sym =>
    obtain ⟨-, -, x, e, -⟩ := leafBody_ok.1 h
    rw [leafStep_frame e]; simp [withQueue]
  case pqExt =>
    obtain ⟨m, e, -⟩ := pqExtBody_ok.1 h
    obtain ⟨-, -, rfl⟩ := pqExtractMin_ok.1 e
    simp
  case merge =>
    obtain ⟨-, p, e, -⟩ := mergeBody_ok.1 h
    rw [mergeStep_frame e]; simp [withQueue]
  all_goals cases h

end Sys2Proof.Machine
end

