-- ==== Sys2Proof/Laws/Bits.lean ====
section
/-! SUPPORT. The bit buffer and the output stream (44_bit_packer.md rule R150 to rule R153): no bit is lost, added or moved. -/

namespace Sys2Proof.Machine

@[simp] theorem length_byteBits (b : Byte) : (byteBits b).length = 8 := by simp [byteBits]

@[simp] theorem length_pendingBits (s : State) : (pendingBits s).length = s.cnt.toNat := by simp [pendingBits]

theorem streamBits_append (a b : List Byte) : streamBits (a ++ b) = streamBits a ++ streamBits b := by
  simp [streamBits]

@[simp] theorem streamBits_singleton (b : Byte) : streamBits [b] = byteBits b := by simp [streamBits]

theorem length_streamBits (a : List Byte) : (streamBits a).length = 8 * a.length := by
  induction a with
  | nil => rfl
  | cons b a ih =>
    have : streamBits (b :: a) = byteBits b ++ streamBits a := rfl
    rw [this, List.length_append, ih, length_byteBits, List.length_cons]; omega

theorem getLsbD_shift_in (a : Byte) (c : Bool) (i : Nat) (hi : i < 8) :
    ((a <<< 1) ||| (BitVec.ofBool c).setWidth 8).getLsbD i = if i = 0 then c else a.getLsbD (i - 1) := by
  have : i = 0 ∨ 0 < i := by omega
  rcases this with rfl | h
  · simp
  · have h1 : ¬ i < 1 := by omega
    have h0 : i ≠ 0 := by omega
    simp only [BitVec.getLsbD_or, BitVec.getLsbD_shiftLeft, BitVec.getLsbD_setWidth, BitVec.getLsbD_ofBool, h1, h0, hi]
    simp

/-- `shift_bit(c)` (rule R150): the bit goes behind the bits pending, and the byte is emitted when the buffer holds 8. -/
theorem shiftBit_stream (c : Bool) (s : State) :
    streamBits (shiftBit c s).out ++ pendingBits (shiftBit c s) = streamBits s.out ++ pendingBits s ++ [c] := by
  have hc := s.cnt.isLt
  simp only [shiftBit]
  split_ifs with h
  · have hb : byteBits ((s.acc <<< 1) ||| (BitVec.ofBool c).setWidth 8) = pendingBits s ++ [c] := by
      apply List.ext_getElem
      · simp; omega
      · intro k h1 h2
        have hk : k < 8 := by simpa using h1
        rw [List.getElem_append]
        simp only [byteBits, List.getElem_map, List.getElem_range, length_pendingBits, List.getElem_singleton]
        rw [getLsbD_shift_in _ _ _ (by omega)]
        split_ifs with e1 e2 e2
        · omega
        · rfl
        · simp only [pendingBits, List.getElem_map, List.getElem_range]
          congr 1; omega
        · omega
    simp [pendingBits, streamBits_append, hb]
  · have hb : pendingBits { s with acc := (s.acc <<< 1) ||| (BitVec.ofBool c).setWidth 8, cnt := BitVec.ofNat 3 (s.cnt.toNat + 1) } =
        pendingBits s ++ [c] := by
      have hn : (BitVec.ofNat 3 (s.cnt.toNat + 1)).toNat = s.cnt.toNat + 1 := by rw [BitVec.toNat_ofNat]; omega
      apply List.ext_getElem
      · simp only [length_pendingBits, List.length_append, List.length_singleton, hn]
      · intro k h1 h2
        simp only [length_pendingBits, hn] at h1
        rw [List.getElem_append]
        simp only [length_pendingBits, List.getElem_singleton]
        simp only [pendingBits, hn, List.getElem_map, List.getElem_range]
        rw [getLsbD_shift_in _ _ _ (by omega)]
        split_ifs with e1 e2 e2
        · omega
        · rfl
        · congr 1; omega
        · omega
    rw [hb, List.append_assoc]

theorem shiftBit_cnt (c : Bool) (s : State) : (shiftBit c s).cnt.toNat = (s.cnt.toNat + 1) % 8 := by
  have hc := s.cnt.isLt
  simp only [shiftBit]
  split_ifs with h
  · simp [h]
  · simp only [BitVec.toNat_ofNat]

theorem shiftBit_out (c : Bool) (s : State) :
    ∃ bs, (shiftBit c s).out = s.out ++ bs ∧ bs.length = (s.cnt.toNat + 1) / 8 := by
  have hc := s.cnt.isLt
  simp only [shiftBit]
  split_ifs with h
  · exact ⟨[_], rfl, by simp [h]⟩
  · exact ⟨[], by simp, by simp; omega⟩

/-- Item 9 of 10_state.md rule R35 under `shift_bit`. -/
theorem shiftBit_acc (c : Bool) {s : State} (h : s.acc.toNat < 2 ^ s.cnt.toNat) :
    (shiftBit c s).acc.toNat < 2 ^ (shiftBit c s).cnt.toNat := by
  have hc := s.cnt.isLt
  rw [shiftBit_cnt]
  simp only [shiftBit]
  split_ifs with h8
  · simp
  · rw [Nat.mod_eq_of_lt (by omega)]
    simp only
    apply Nat.lt_pow_two_of_testBit
    intro i hi
    rw [← BitVec.getLsbD]
    by_cases hi8 : i < 8
    · rw [getLsbD_shift_in _ _ _ hi8, if_neg (by omega)]
      exact Nat.testBit_lt_two_pow (h.trans_le (Nat.pow_le_pow_right (by omega) (by omega)))
    · exact BitVec.getLsbD_of_ge _ _ (by omega)

/-- Shifting a bit string in (rule R151, rule R153). -/
theorem shiftBits_stream (cs : List Bool) (s : State) :
    streamBits (shiftBits cs s).out ++ pendingBits (shiftBits cs s) = streamBits s.out ++ pendingBits s ++ cs := by
  induction cs generalizing s with
  | nil => simp [shiftBits]
  | cons c cs ih =>
    have : shiftBits (c :: cs) s = shiftBits cs (shiftBit c s) := rfl
    rw [this, ih, shiftBit_stream]; simp

theorem shiftBits_cnt (cs : List Bool) (s : State) :
    (shiftBits cs s).cnt.toNat = (s.cnt.toNat + cs.length) % 8 := by
  induction cs generalizing s with
  | nil => have := s.cnt.isLt; simp [shiftBits]; omega
  | cons c cs ih =>
    have : shiftBits (c :: cs) s = shiftBits cs (shiftBit c s) := rfl
    rw [this, ih, shiftBit_cnt, List.length_cons]; omega

theorem shiftBits_out (cs : List Bool) (s : State) :
    ∃ bs, (shiftBits cs s).out = s.out ++ bs ∧ bs.length = (s.cnt.toNat + cs.length) / 8 := by
  induction cs generalizing s with
  | nil => exact ⟨[], by simp [shiftBits], by have := s.cnt.isLt; simp; omega⟩
  | cons c cs ih =>
    have : shiftBits (c :: cs) s = shiftBits cs (shiftBit c s) := rfl
    obtain ⟨bs, h1, h2⟩ := shiftBit_out c s
    obtain ⟨bs', h3, h4⟩ := ih (shiftBit c s)
    rw [shiftBit_cnt] at h4
    refine ⟨bs ++ bs', by rw [this, h3, h1, List.append_assoc], ?_⟩
    rw [List.length_append, h2, h4, List.length_cons]; omega

theorem shiftBits_acc (cs : List Bool) {s : State} (h : s.acc.toNat < 2 ^ s.cnt.toNat) :
    (shiftBits cs s).acc.toNat < 2 ^ (shiftBits cs s).cnt.toNat := by
  induction cs generalizing s with
  | nil => exact h
  | cons c cs ih => exact ih (shiftBit_acc c h)

/-- `FLUSH` (rule R152): the pending bits, and zeros to the end of the byte. -/
theorem flushBits_stream (s : State) :
    streamBits (flushBits s).out = streamBits s.out ++ pendingBits s ++ List.replicate ((8 - s.cnt.toNat) % 8) false := by
  have hc := s.cnt.isLt
  simp only [flushBits]
  split_ifs with h
  · simp [pendingBits, h]
  · have h0 : s.cnt.toNat ≠ 0 := fun q => h (BitVec.eq_of_toNat_eq (by simpa using q))
    have hb : byteBits (s.acc <<< (8 - s.cnt.toNat)) =
        pendingBits s ++ List.replicate ((8 - s.cnt.toNat) % 8) false := by
      apply List.ext_getElem
      · simp; omega
      · intro k h1 h2
        have hk : k < 8 := by simpa using h1
        rw [List.getElem_append]
        simp only [byteBits, List.getElem_map, List.getElem_range, length_pendingBits, List.getElem_replicate,
          BitVec.getLsbD_shiftLeft]
        split_ifs with e1
        · have e2 : ¬ 7 - k < 8 - s.cnt.toNat := by omega
          have e3 : 7 - k < 8 := by omega
          have e4 : 7 - k - (8 - s.cnt.toNat) = s.cnt.toNat - 1 - k := by omega
          simp [pendingBits, e2, e3, e4]
        · have e2 : 7 - k < 8 - s.cnt.toNat := by omega
          simp [e2]
    simp [streamBits_append, hb]

theorem flushBits_cnt (s : State) : (flushBits s).cnt = 0#3 := by
  simp only [flushBits]; split_ifs with h
  · exact h
  · rfl

theorem flushBits_acc {s : State} (h : s.acc.toNat < 2 ^ s.cnt.toNat) : (flushBits s).acc = 0#8 := by
  simp only [flushBits]; split_ifs with h0
  · rw [h0] at h; exact BitVec.eq_of_toNat_eq (by simpa using h)
  · rfl

theorem flushBits_out (s : State) :
    ∃ bs, (flushBits s).out = s.out ++ bs ∧ bs.length = if s.cnt = 0#3 then 0 else 1 := by
  simp only [flushBits]; split_ifs with h0
  · exact ⟨[], by simp, rfl⟩
  · exact ⟨[_], rfl, rfl⟩

/-- A byte is determined by its bits. -/
theorem byteBits_injective : Function.Injective byteBits := by
  intro a b h
  apply BitVec.eq_of_getLsbD_eq
  intro i hi
  have := congrArg (fun l => l[7 - i]?) h
  have e : 7 - (7 - i) = i := by omega
  have e' : 7 - i < 8 := by omega
  simpa [byteBits, e', e] using this

theorem streamBits_injective : Function.Injective streamBits := by
  intro a
  induction a with
  | nil =>
    intro b h
    have := congrArg List.length h
    rw [length_streamBits, length_streamBits] at this
    exact (List.length_eq_zero_iff.1 (by simpa using this.symm)).symm
  | cons x a ih =>
    intro b h
    cases b with
    | nil =>
      have := congrArg List.length h
      rw [length_streamBits, length_streamBits] at this
      simp at this
    | cons y b =>
      have h' : byteBits x ++ streamBits a = byteBits y ++ streamBits b := h
      obtain ⟨h1, h2⟩ := List.append_inj h' (by simp)
      rw [byteBits_injective h1, ih h2]

end Sys2Proof.Machine
end

