-- ==== Sys2Proof/Laws/Forest.lean ====
section
/-! SUPPORT. The forest that the allocated nodes form (10_state.md rule R35 items 2 to 6), what follows from it (items 1, 7
and 8), and that creating a leaf, a merge step and an extraction keep it. -/

namespace Sys2Proof.Machine

/-- Items 2 to 6 of rule R35, and NEXTSYM's range. -/
structure Forest (s : State) : Prop where
  nextsym : s.nextsym.toNat ≤ 256
  heapOrdered : HeapOrdered s
  heapAllocated : HeapAllocated s
  heapDistinct : (liveHeap s).Nodup
  leafRecord : ∀ h, IsLeaf s h →
    wt s h = (freqAt s (nodeAt s h).sym).setWidth 40 ∧ wt s h ≠ 0#40 ∧ (nodeAt s h).sym.toNat < s.nextsym.toNat ∧
    (nodeAt s h).left = Config.nil ∧ (nodeAt s h).right = Config.nil
  leafDistinct : ∀ h k, IsLeaf s h → IsLeaf s k → (nodeAt s h).sym = (nodeAt s k).sym → h = k
  internalRecord : ∀ h, IsInternal s h →
    (nodeAt s h).left.toNat < h.toNat ∧ (nodeAt s h).right.toNat < h.toNat ∧ (nodeAt s h).left ≠ (nodeAt s h).right ∧
    (wt s h).toNat = (wt s (nodeAt s h).left).toNat + (wt s (nodeAt s h).right).toNat ∧ (nodeAt s h).sym = 0#8
  childOnce : ∀ c p q, IsChild s c p → IsChild s c q → p = q
  heapNotChild : ∀ i p, i < s.size.toNat → ¬ IsChild s (heapAt s i) p

theorem Invariants.forest {s : State} (h : Invariants s) : Forest s :=
  ⟨h.counts.2.1, h.heapOrdered, h.heapAllocated, h.heapDistinct, h.leafRecord, h.leafDistinct, h.internalRecord, h.childOnce,
    h.heapNotChild⟩

/-! ## Counting (items 1 and 8) -/

/-- The allocated handles of a kind, as numbers. -/
def kindSet (s : State) (k : NodeKind) : Finset Nat :=
  (Finset.range s.nnodes.toNat).filter fun h => (nodeAt s (BitVec.ofNat 9 h)).kind = k

theorem countKind_eq_card (s : State) (k : NodeKind) : countKind s k = (kindSet s k).card := by
  simp only [countKind, kindSet, List.countP_eq_length_filter, Finset.card_def, Finset.filter_val, Finset.range_val,
    Multiset.range, Multiset.filter_coe, Multiset.coe_card]

theorem countKind_add (s : State) : countKind s .leaf + countKind s .internal = s.nnodes.toNat := by
  rw [countKind_eq_card, countKind_eq_card]
  have : kindSet s .internal = (Finset.range s.nnodes.toNat).filter
      fun h => ¬ (nodeAt s (BitVec.ofNat 9 h)).kind = .leaf := by
    ext h
    simp only [kindSet, Finset.mem_filter, and_congr_right_iff]
    intro _
    cases (nodeAt s (BitVec.ofNat 9 h)).kind <;> simp
  rw [this, kindSet, Finset.card_filter_add_card_filter_not]
  simp

theorem ofNat_toNat_of_lt {n : Nat} (h : n < 512) : (BitVec.ofNat 9 n).toNat = n := by
  rw [BitVec.toNat_ofNat]; omega

theorem mem_kindSet_leaf {s : State} {n : Nat} (h : n ∈ kindSet s .leaf) : IsLeaf s (BitVec.ofNat 9 n) := by
  simp only [kindSet, Finset.mem_filter, Finset.mem_range] at h
  have := s.nnodes.isLt
  exact ⟨by simpa [Allocated, ofNat_toNat_of_lt (by omega : n < 512)] using h.1, h.2⟩

theorem mem_kindSet_internal {s : State} {n : Nat} (h : n ∈ kindSet s .internal) : IsInternal s (BitVec.ofNat 9 n) := by
  simp only [kindSet, Finset.mem_filter, Finset.mem_range] at h
  have := s.nnodes.isLt
  exact ⟨by simpa [Allocated, ofNat_toNat_of_lt (by omega : n < 512)] using h.1, h.2⟩

theorem lt_of_mem_kindSet {s : State} {k : NodeKind} {n : Nat} (h : n ∈ kindSet s k) : n < s.nnodes.toNat := by
  simp only [kindSet, Finset.mem_filter, Finset.mem_range] at h
  exact h.1

theorem Forest.leaves_le {s : State} (F : Forest s) : countKind s .leaf ≤ s.nextsym.toNat := by
  rw [countKind_eq_card]
  have hc : (kindSet s .leaf).card ≤ (Finset.range s.nextsym.toNat).card := by
    refine Finset.card_le_card_of_injOn (fun h => (nodeAt s (BitVec.ofNat 9 h)).sym.toNat) ?_ ?_
    · intro h hh
      simpa using (F.leafRecord _ (mem_kindSet_leaf hh)).2.2.1
    · intro h hh k hk e
      have := F.leafDistinct _ _ (mem_kindSet_leaf hh) (mem_kindSet_leaf hk) (BitVec.eq_of_toNat_eq e)
      have := congrArg BitVec.toNat this
      have := s.nnodes.isLt
      have := lt_of_mem_kindSet hh
      have := lt_of_mem_kindSet hk
      rwa [ofNat_toNat_of_lt (by omega), ofNat_toNat_of_lt (by omega)] at *
  simpa using hc

/-- The child of node h on side b. -/
def childOn (s : State) (h : Handle) (b : Bool) : Handle := if b then (nodeAt s h).right else (nodeAt s h).left

/-- All children, as numbers. -/
def childSet (s : State) : Finset Nat :=
  (kindSet s .internal ×ˢ (Finset.univ : Finset Bool)).image fun x => (childOn s (BitVec.ofNat 9 x.1) x.2).toNat

theorem isChild_childOn {s : State} {p : Handle} (hp : IsInternal s p) (b : Bool) : IsChild s (childOn s p b) p := by
  cases b
  · exact ⟨hp, .inl rfl⟩
  · exact ⟨hp, .inr rfl⟩

theorem isChild_iff {s : State} {c p : Handle} : IsChild s c p ↔ IsInternal s p ∧ ∃ b, c = childOn s p b := by
  simp [IsChild, childOn]

theorem Forest.child_lt {s : State} (F : Forest s) {c p : Handle} (h : IsChild s c p) : c.toNat < p.toNat := by
  obtain ⟨hp, rfl | rfl⟩ := h
  · exact (F.internalRecord p hp).1
  · exact (F.internalRecord p hp).2.1

theorem Forest.child_allocated {s : State} (F : Forest s) {c p : Handle} (h : IsChild s c p) : Allocated s c :=
  (F.child_lt h).trans h.1.1

theorem Forest.left_allocated {s : State} (F : Forest s) {p : Handle} (h : IsInternal s p) : Allocated s (nodeAt s p).left :=
  F.child_allocated ⟨h, .inl rfl⟩

theorem Forest.right_allocated {s : State} (F : Forest s) {p : Handle} (h : IsInternal s p) : Allocated s (nodeAt s p).right :=
  F.child_allocated ⟨h, .inr rfl⟩

theorem Forest.childOn_injective {s : State} (F : Forest s) {p : Handle} (hp : IsInternal s p) {a b : Bool}
    (h : childOn s p a = childOn s p b) : a = b := by
  have := (F.internalRecord p hp).2.2.1
  cases a <;> cases b <;> simp_all [childOn]

theorem Forest.card_childSet {s : State} (F : Forest s) : (childSet s).card = 2 * countKind s .internal := by
  rw [childSet, Finset.card_image_of_injOn, Finset.card_product, countKind_eq_card]
  · simp [Nat.mul_comm]
  · rintro ⟨h, a⟩ hh ⟨k, b⟩ hk e
    simp only [Finset.coe_product, Set.mem_prod, Finset.mem_coe] at hh hk
    have ih := mem_kindSet_internal hh.1
    have ik := mem_kindSet_internal hk.1
    have e' : childOn s (BitVec.ofNat 9 h) a = childOn s (BitVec.ofNat 9 k) b := BitVec.eq_of_toNat_eq e
    have e2 := F.childOnce _ _ _ (isChild_childOn ih a) (e' ▸ isChild_childOn ik b)
    have e3 := congrArg BitVec.toNat e2
    have := s.nnodes.isLt
    have := lt_of_mem_kindSet hh.1
    have := lt_of_mem_kindSet hk.1
    rw [ofNat_toNat_of_lt (by omega), ofNat_toNat_of_lt (by omega)] at e3
    subst e3
    rw [F.childOn_injective ih e']

/-- The live entries of the queue, as numbers. -/
def queueSet (s : State) : Finset Nat := ((liveHeap s).map BitVec.toNat).toFinset

theorem Forest.card_queueSet {s : State} (F : Forest s) : (queueSet s).card = s.size.toNat := by
  rw [queueSet, List.toFinset_card_of_nodup, List.length_map, length_liveHeap]
  exact F.heapDistinct.map fun a b => BitVec.eq_of_toNat_eq

theorem mem_childSet {s : State} {n : Nat} (h : n ∈ childSet s) : ∃ c p, c.toNat = n ∧ IsChild s c p := by
  simp only [childSet, Finset.mem_image, Finset.mem_product, Prod.exists] at h
  obtain ⟨p, b, ⟨hp, -⟩, rfl⟩ := h
  exact ⟨_, _, rfl, isChild_childOn (mem_kindSet_internal hp) b⟩

/-- Twice the internal nodes, and the queued ones, are distinct allocated handles. -/
theorem Forest.queue_le {s : State} (F : Forest s) : 2 * countKind s .internal + s.size.toNat ≤ s.nnodes.toNat := by
  have hd : Disjoint (childSet s) (queueSet s) := by
    rw [Finset.disjoint_left]
    intro n hc hq
    obtain ⟨c, p, rfl, hp⟩ := mem_childSet hc
    simp only [queueSet, List.mem_toFinset, List.mem_map] at hq
    obtain ⟨x, hx, e⟩ := hq
    obtain ⟨i, hi, rfl⟩ := mem_liveHeap.1 hx
    have := BitVec.eq_of_toNat_eq e
    exact F.heapNotChild i p hi (this ▸ hp)
  have hs : childSet s ∪ queueSet s ⊆ Finset.range s.nnodes.toNat := by
    intro n hn
    rw [Finset.mem_union] at hn
    rw [Finset.mem_range]
    rcases hn with hc | hq
    · obtain ⟨c, p, rfl, hp⟩ := mem_childSet hc
      exact F.child_allocated hp
    · simp only [queueSet, List.mem_toFinset, List.mem_map] at hq
      obtain ⟨x, hx, rfl⟩ := hq
      obtain ⟨i, hi, rfl⟩ := mem_liveHeap.1 hx
      exact F.heapAllocated i hi
  have := Finset.card_le_card hs
  rw [Finset.card_union_of_disjoint hd, F.card_childSet, F.card_queueSet, Finset.card_range] at this
  exact this

theorem Forest.internal_lt {s : State} (F : Forest s) (h : 0 < s.nnodes.toNat) :
    2 * countKind s .internal < s.nnodes.toNat := by
  have hs : childSet s ⊆ Finset.range (s.nnodes.toNat - 1) := by
    intro n hn
    obtain ⟨c, p, rfl, hp⟩ := mem_childSet hn
    have h1 := F.child_lt hp
    have h2 : p.toNat < s.nnodes.toNat := hp.1.1
    rw [Finset.mem_range]; omega
  have := Finset.card_le_card hs
  rw [F.card_childSet, Finset.card_range] at this
  omega

/-- Items 1 and 8 of rule R35, from items 2 to 6. -/
theorem Forest.counts {s : State} (F : Forest s) :
    s.size.toNat + countKind s .internal ≤ countKind s .leaf ∧ countKind s .leaf ≤ 256 ∧
      countKind s .internal ≤ countKind s .leaf - 1 ∧ s.size.toNat ≤ 256 ∧ s.size.toNat ≤ s.nnodes.toNat := by
  have h1 := F.leaves_le
  have h2 := F.nextsym
  have h3 := countKind_add s
  have h4 := F.queue_le
  have h5 := F.internal_lt
  refine ⟨by omega, by omega, by omega, by omega, by omega⟩

/-! ## Walks down the tree, and where they can come from -/

/-- From a, following the branch bits p down internal nodes, the node reached is x; the last bit is taken last. -/
inductive Walk (s : State) (a : Handle) : List Bool → Handle → Prop where
  | nil : Walk s a [] a
  | snoc {p y} (b : Bool) : Walk s a p y → IsInternal s y → Walk s a (p ++ [b]) (childOn s y b)

theorem Walk.append {s : State} {a h l : Handle} {r p : List Bool} (F : Forest s) (hh : Allocated s h)
    (w : Walk s a r h) (t : TreePath s h p l) : Walk s a (r ++ p) l ∧ IsLeaf s l := by
  induction t generalizing r with
  | leaf hk => simpa using ⟨w, hh, hk⟩
  | @left h p l hk t ih =>
    have hi : IsInternal s h := ⟨hh, hk⟩
    have := ih (F.child_allocated (isChild_childOn hi false)) (w.snoc false hi)
    simpa using this
  | @right h p l hk t ih =>
    have hi : IsInternal s h := ⟨hh, hk⟩
    have := ih (F.child_allocated (isChild_childOn hi true)) (w.snoc true hi)
    simpa using this

/-- A node is reached from at most one node that is no child, and along one path: "the tree is acyclic and has no shared
ownership". -/
theorem Walk.unique {s : State} (F : Forest s) {a b x : Handle} {p q : List Bool} (ha : ∀ y, ¬ IsChild s a y)
    (hb : ∀ y, ¬ IsChild s b y) (wp : Walk s a p x) (wq : Walk s b q x) : a = b ∧ p = q := by
  induction wp generalizing q with
  | nil =>
    cases wq with
    | nil => exact ⟨rfl, rfl⟩
    | snoc c _ hi => exact absurd (isChild_childOn hi c) (ha _)
  | @snoc p y c w hi ih =>
    generalize hx : childOn s y c = x' at wq
    cases wq with
    | nil => exact absurd (hx ▸ isChild_childOn hi c) (hb _)
    | @snoc q y' c' w' hi' =>
      have hyy : y = y' := F.childOnce _ _ _ (isChild_childOn hi c) (hx ▸ isChild_childOn hi' c')
      subst hyy
      obtain ⟨rfl, rfl⟩ := ih w'
      rw [F.childOn_injective hi hx]
      exact ⟨rfl, rfl⟩

/-! ## leafPaths -/

theorem leafPaths_leaf {s : State} {h : Handle} (hk : (nodeAt s h).kind = .leaf) (n : Nat) :
    leafPaths s n h = [((nodeAt s h).sym, [])] := by
  cases n <;> simp [leafPaths, hk]

theorem leafPaths_internal {s : State} {h : Handle} (hk : (nodeAt s h).kind = .internal) (n : Nat) :
    leafPaths s (n + 1) h =
      (leafPaths s n (nodeAt s h).left).map (fun e => (e.1, false :: e.2)) ++
      (leafPaths s n (nodeAt s h).right).map (fun e => (e.1, true :: e.2)) := by
  simp [leafPaths, hk]

theorem mem_leafPaths {s : State} : ∀ {n : Nat} {h : Handle} {e : Byte × List Bool}, e ∈ leafPaths s n h →
    ∃ l, TreePath s h e.2 l ∧ (nodeAt s l).sym = e.1
  | n, h, e, he => by
    cases hk : (nodeAt s h).kind
    · cases n with
      | zero => simp [leafPaths, hk] at he
      | succ n =>
        rw [leafPaths_internal hk, List.mem_append, List.mem_map, List.mem_map] at he
        rcases he with ⟨e', he', rfl⟩ | ⟨e', he', rfl⟩
        · obtain ⟨l, t, hs⟩ := mem_leafPaths he'; exact ⟨l, .left hk t, hs⟩
        · obtain ⟨l, t, hs⟩ := mem_leafPaths he'; exact ⟨l, .right hk t, hs⟩
    · rw [leafPaths_leaf hk, List.mem_singleton] at he
      subst he
      exact ⟨h, .leaf hk, rfl⟩

theorem leafPaths_of_treePath {s : State} {h l : Handle} {p : List Bool} (t : TreePath s h p l) :
    ∀ {n : Nat}, depthAtMost s n h = true → ((nodeAt s l).sym, p) ∈ leafPaths s n h := by
  induction t with
  | leaf hk => intro n _; rw [leafPaths_leaf hk]; simp
  | @left h p l hk t ih =>
    intro n hd
    cases n with
    | zero => simp [depthAtMost, hk] at hd
    | succ n =>
      simp only [depthAtMost, hk, Bool.and_eq_true] at hd
      rw [leafPaths_internal hk, List.mem_append]
      exact .inl (List.mem_map.2 ⟨_, ih hd.1, rfl⟩)
  | @right h p l hk t ih =>
    intro n hd
    cases n with
    | zero => simp [depthAtMost, hk] at hd
    | succ n =>
      simp only [depthAtMost, hk, Bool.and_eq_true] at hd
      rw [leafPaths_internal hk, List.mem_append]
      exact .inr (List.mem_map.2 ⟨_, ih hd.2, rfl⟩)

theorem leafPaths_paths_nodup (s : State) : ∀ (n : Nat) (h : Handle), ((leafPaths s n h).map (·.2)).Nodup
  | n, h => by
    cases hk : (nodeAt s h).kind
    · cases n with
      | zero => simp [leafPaths, hk]
      | succ n =>
        rw [leafPaths_internal hk, List.map_append, List.map_map, List.map_map]
        have e1 : ((fun x => x.2) ∘ fun e : Byte × List Bool => (e.1, false :: e.2)) = (List.cons false) ∘ (·.2) := rfl
        have e2 : ((fun x => x.2) ∘ fun e : Byte × List Bool => (e.1, true :: e.2)) = (List.cons true) ∘ (·.2) := rfl
        rw [e1, e2, ← List.map_map, ← List.map_map]
        refine List.Nodup.append ?_ ?_ ?_
        · exact (leafPaths_paths_nodup s n _).map (List.cons_injective)
        · exact (leafPaths_paths_nodup s n _).map (List.cons_injective)
        · intro x hx hy
          simp only [List.mem_map] at hx hy
          obtain ⟨a, -, rfl⟩ := hx
          obtain ⟨b, -, hb⟩ := hy
          simp at hb
    · rw [leafPaths_leaf hk]; simp

theorem Forest.depthAtMost {s : State} (F : Forest s) : ∀ (n : Nat) (h : Handle), Allocated s h → h.toNat ≤ n →
    depthAtMost s n h = true
  | n, h, ha, hn => by
    cases hk : (nodeAt s h).kind
    · have hi : IsInternal s h := ⟨ha, hk⟩
      obtain ⟨hl, hr, -⟩ := F.internalRecord h hi
      cases n with
      | zero => omega
      | succ n =>
        simp only [Machine.depthAtMost, hk, Bool.and_eq_true]
        exact ⟨F.depthAtMost n _ (F.child_allocated (isChild_childOn hi false)) (by omega),
          F.depthAtMost n _ (F.child_allocated (isChild_childOn hi true)) (by omega)⟩
    · cases n <;> simp [Machine.depthAtMost, hk]

/-- More fuel than the depth changes nothing. -/
theorem leafPaths_fuel {s : State} : ∀ {n m : Nat} {h : Handle}, depthAtMost s n h = true → n ≤ m →
    leafPaths s m h = leafPaths s n h
  | n, m, h, hd, hm => by
    cases hk : (nodeAt s h).kind
    · cases n with
      | zero => simp [depthAtMost, hk] at hd
      | succ n =>
        obtain ⟨m, rfl⟩ : ∃ k, m = k + 1 := ⟨m - 1, by omega⟩
        simp only [depthAtMost, hk, Bool.and_eq_true] at hd
        rw [leafPaths_internal hk, leafPaths_internal hk, leafPaths_fuel hd.1 (by omega), leafPaths_fuel hd.2 (by omega)]
    · rw [leafPaths_leaf hk, leafPaths_leaf hk]

/-! ## Item 7: weights are sums of frequencies -/

/-- The sum of the frequencies of the leaves in the list. -/
def freqSum (s : State) (es : List (Byte × List Bool)) : Nat := (es.map fun e => (freqAt s e.1).toNat).sum

theorem freqSum_append (s : State) (a b : List (Byte × List Bool)) : freqSum s (a ++ b) = freqSum s a + freqSum s b := by
  simp [freqSum]

theorem freqSum_cons_bit (s : State) (c : Bool) (a : List (Byte × List Bool)) :
    freqSum s (a.map fun e => (e.1, c :: e.2)) = freqSum s a := by
  simp [freqSum, Function.comp_def]

theorem Forest.weight_eq {s : State} (F : Forest s) : ∀ (n : Nat) (h : Handle), Allocated s h → h.toNat ≤ n →
    (wt s h).toNat = freqSum s (leafPaths s n h)
  | n, h, ha, hn => by
    cases hk : (nodeAt s h).kind
    · have hi : IsInternal s h := ⟨ha, hk⟩
      obtain ⟨hl, hr, -, hw, -⟩ := F.internalRecord h hi
      cases n with
      | zero => omega
      | succ n =>
        rw [leafPaths_internal hk, freqSum_append, freqSum_cons_bit, freqSum_cons_bit, hw]
        rw [F.weight_eq n (nodeAt s h).left (F.child_allocated (isChild_childOn hi false)) (by omega),
          F.weight_eq n (nodeAt s h).right (F.child_allocated (isChild_childOn hi true)) (by omega)]
    · rw [leafPaths_leaf hk, (F.leafRecord h ⟨ha, hk⟩).1]
      have := (freqAt s (nodeAt s h).sym).isLt
      simp [freqSum]; omega

/-- The frequencies of distinct byte values sum to at most 256 · (2^32 - 1). -/
theorem freqSum_le {s : State} {es : List (Byte × List Bool)} (h : (es.map (·.1)).Nodup) : freqSum s es < 2 ^ 40 := by
  have hl : es.length ≤ 256 := by
    simpa using (List.subperm_of_subset h (l₂ := allSyms) fun b _ => mem_allSyms b).length_le
  have : ∀ es : List (Byte × List Bool), freqSum s es ≤ es.length * (2 ^ 32 - 1) := by
    intro es
    induction es with
    | nil => simp [freqSum]
    | cons e es ih =>
      have := (freqAt s e.1).isLt
      simp only [freqSum, List.map_cons, List.sum_cons, List.length_cons] at ih ⊢
      omega
  have := this es
  have : es.length * (2 ^ 32 - 1) ≤ 256 * (2 ^ 32 - 1) := Nat.mul_le_mul_right _ hl
  omega

/-- The leaves below nodes that are no children have distinct byte values. -/
theorem Forest.syms_nodup {s : State} (F : Forest s) {n : Nat} {h : Handle} (ha : Allocated s h)
    (hr : ∀ p, ¬ IsChild s h p) : ((leafPaths s n h).map (·.1)).Nodup := by
  have hp := leafPaths_paths_nodup s n h
  rw [List.Nodup, List.pairwise_map] at hp ⊢
  refine List.Pairwise.imp_of_mem ?_ hp
  intro e e' he he' hne heq
  obtain ⟨l, t, hs⟩ := mem_leafPaths he
  obtain ⟨l', t', hs'⟩ := mem_leafPaths he'
  obtain ⟨w, il⟩ := Walk.append F ha .nil t
  obtain ⟨w', il'⟩ := Walk.append F ha .nil t'
  have : l = l' := F.leafDistinct l l' il il' (by rw [hs, hs', heq])
  subst this
  simp only [List.nil_append] at w w'
  exact hne (Walk.unique F hr hr w w').2

theorem Forest.syms_disjoint {s : State} (F : Forest s) {n m : Nat} {a b : Handle} (ha : Allocated s a) (hb : Allocated s b)
    (ra : ∀ p, ¬ IsChild s a p) (rb : ∀ p, ¬ IsChild s b p) (hne : a ≠ b) :
    ((leafPaths s n a).map (·.1)).Disjoint ((leafPaths s m b).map (·.1)) := by
  intro x hx hy
  simp only [List.mem_map] at hx hy
  obtain ⟨e, he, rfl⟩ := hx
  obtain ⟨e', he', heq⟩ := hy
  obtain ⟨l, t, hs⟩ := mem_leafPaths he
  obtain ⟨l', t', hs'⟩ := mem_leafPaths he'
  obtain ⟨w, il⟩ := Walk.append F ha .nil t
  obtain ⟨w', il'⟩ := Walk.append F hb .nil t'
  have : l = l' := F.leafDistinct l l' il il' (by rw [hs, hs', heq])
  subst this
  simp only [List.nil_append] at w w'
  exact hne (Walk.unique F ra rb w w').1

/-- The sum of the weights of two queued nodes does not wrap (rule R35 item 7). -/
theorem Forest.add_lt {s : State} (F : Forest s) {a b : Handle} (ha : a ∈ liveHeap s) (hb : b ∈ liveHeap s) (hne : a ≠ b) :
    (wt s a).toNat + (wt s b).toNat < 2 ^ 40 := by
  obtain ⟨i, hi, rfl⟩ := mem_liveHeap.1 ha
  obtain ⟨j, hj, rfl⟩ := mem_liveHeap.1 hb
  have ai := F.heapAllocated i hi
  have aj := F.heapAllocated j hj
  have ri := fun p => F.heapNotChild i p hi
  have rj := fun p => F.heapNotChild j p hj
  rw [F.weight_eq 511 _ ai (by have := (heapAt s i).isLt; omega), F.weight_eq 511 _ aj (by have := (heapAt s j).isLt; omega),
    ← freqSum_append]
  refine freqSum_le ?_
  rw [List.map_append]
  exact List.Nodup.append (F.syms_nodup ai ri) (F.syms_nodup aj rj) (F.syms_disjoint ai aj ri rj hne)

end Sys2Proof.Machine
end

