-- ==== Sys2Proof/Laws/Code.lean ====
section
/-! SUPPORT. The code table that `GEN` writes (43_code_generator.md rule R141 to rule R144). -/

namespace Sys2Proof.Machine

/-! ## The paths of the leaves form a complete prefix code -/

theorem length_le_of_mem_leafPaths {s : State} : ∀ {n : Nat} {h : Handle} {e : Byte × List Bool}, e ∈ leafPaths s n h →
    e.2.length ≤ n
  | n, h, e, he => by
    cases hk : (nodeAt s h).kind
    · cases n with
      | zero => simp [leafPaths, hk] at he
      | succ n =>
        rw [leafPaths_internal hk, List.mem_append, List.mem_map, List.mem_map] at he
        rcases he with ⟨e', he', rfl⟩ | ⟨e', he', rfl⟩ <;>
          · have := length_le_of_mem_leafPaths he'
            simp only [List.length_cons]; omega
    · rw [leafPaths_leaf hk, List.mem_singleton] at he
      subst he; simp

/-- No path is a prefix of another (rule R144 (a)): "guaranteed structurally". -/
theorem leafPaths_prefix {s : State} : ∀ {n : Nat} {h : Handle} {a b : Byte × List Bool}, a ∈ leafPaths s n h →
    b ∈ leafPaths s n h → a.2 <+: b.2 → a = b
  | n, h, a, b, ha, hb, hp => by
    cases hk : (nodeAt s h).kind
    · cases n with
      | zero => simp [leafPaths, hk] at ha
      | succ n =>
        rw [leafPaths_internal hk, List.mem_append, List.mem_map, List.mem_map] at ha hb
        rcases ha with ⟨a, ha, rfl⟩ | ⟨a, ha, rfl⟩ <;> rcases hb with ⟨b, hb, rfl⟩ | ⟨b, hb, rfl⟩ <;>
          simp only [List.cons_prefix_cons] at hp
        · rw [leafPaths_prefix ha hb hp.2]
        · simp at hp
        · simp at hp
        · rw [leafPaths_prefix ha hb hp.2]
    · rw [leafPaths_leaf hk, List.mem_singleton] at ha hb
      rw [ha, hb]

/-- The sum of 2^(-length) is 1 (rule R144 (c)), times 2^n. -/
theorem leafPaths_kraft {s : State} : ∀ {n : Nat} {h : Handle}, depthAtMost s n h = true →
    ((leafPaths s n h).map fun e => 2 ^ (n - e.2.length)).sum = 2 ^ n
  | n, h, hd => by
    cases hk : (nodeAt s h).kind
    · cases n with
      | zero => simp [depthAtMost, hk] at hd
      | succ n =>
        simp only [depthAtMost, hk, Bool.and_eq_true] at hd
        rw [leafPaths_internal hk, List.map_append, List.sum_append, List.map_map, List.map_map]
        have e : ∀ c : Bool, ((fun e : Byte × List Bool => 2 ^ (n + 1 - e.2.length)) ∘
            fun e : Byte × List Bool => (e.1, c :: e.2)) = fun e => 2 ^ (n - e.2.length) := by
          intro c; funext e; simp
        rw [e, e, leafPaths_kraft hd.1, leafPaths_kraft hd.2]
        omega
    · rw [leafPaths_leaf hk]; simp

theorem leafPaths_length_pos {s : State} : ∀ {n : Nat} {h : Handle}, depthAtMost s n h = true →
    0 < (leafPaths s n h).length
  | n, h, hd => by
    cases hk : (nodeAt s h).kind
    · cases n with
      | zero => simp [depthAtMost, hk] at hd
      | succ n =>
        simp only [depthAtMost, hk, Bool.and_eq_true] at hd
        have := leafPaths_length_pos hd.1
        rw [leafPaths_internal hk]; simp; omega
    · rw [leafPaths_leaf hk]; simp

/-- A path is shorter than the number of leaves (rule R144 (b), rule R143). -/
theorem length_lt_of_mem_leafPaths {s : State} : ∀ {n : Nat} {h : Handle} {e : Byte × List Bool},
    depthAtMost s n h = true → e ∈ leafPaths s n h → e.2.length < (leafPaths s n h).length
  | n, h, e, hd, he => by
    cases hk : (nodeAt s h).kind
    · cases n with
      | zero => simp [depthAtMost, hk] at hd
      | succ n =>
        simp only [depthAtMost, hk, Bool.and_eq_true] at hd
        rw [leafPaths_internal hk] at he ⊢
        rw [List.mem_append, List.mem_map, List.mem_map] at he
        rw [List.length_append, List.length_map, List.length_map]
        have p1 := leafPaths_length_pos hd.1
        have p2 := leafPaths_length_pos hd.2
        rcases he with ⟨e', he', rfl⟩ | ⟨e', he', rfl⟩
        · have := length_lt_of_mem_leafPaths hd.1 he'
          simp only [List.length_cons]; omega
        · have := length_lt_of_mem_leafPaths hd.2 he'
          simp only [List.length_cons]; omega
    · rw [leafPaths_leaf hk, List.mem_singleton] at he
      subst he; rw [leafPaths_leaf hk]; simp

/-! ## Writing the table -/

theorem writeCodes_other {b : Byte} : ∀ {es : List (Byte × List Bool)} {s : State}, b ∉ es.map (·.1) →
    clenAt (writeCodes es s) b = clenAt s b ∧ cbitsAt (writeCodes es s) b = cbitsAt s b
  | [], s, _ => ⟨rfl, rfl⟩
  | e :: es, s, h => by
    simp only [List.map_cons, List.mem_cons, not_or] at h
    have := writeCodes_other (s := setCode e.1 e.2 s) h.2
    simp only [clenAt_setCode, cbitsAt_setCode, h.1, if_false] at this
    exact this

theorem writeCodes_written {b : Byte} : ∀ {es : List (Byte × List Bool)} {s : State}, b ∈ es.map (·.1) →
    ∃ p, (b, p) ∈ es ∧ clenAt (writeCodes es s) b = BitVec.ofNat 9 p.length ∧ cbitsAt (writeCodes es s) b = p
  | [], s, h => by simp at h
  | e :: es, s, h => by
    by_cases hb : b ∈ es.map (·.1)
    · obtain ⟨p, hp, h1, h2⟩ := writeCodes_written (s := setCode e.1 e.2 s) hb
      exact ⟨p, List.mem_cons_of_mem _ hp, h1, h2⟩
    · have he : b = e.1 := by simpa [hb] using h
      have := writeCodes_other (s := setCode e.1 e.2 s) hb
      simp only [clenAt_setCode, cbitsAt_setCode, he, if_true] at this
      refine ⟨e.2, by simp [he], ?_, ?_⟩
      · rw [he]; exact this.1
      · rw [he]; exact this.2

/-! ## The entries of GEN -/

theorem genEntries_bounds {s : State} {root : Handle} {e : Byte × List Bool}
    (he : e ∈ genEntries s root) : 1 ≤ e.2.length ∧ e.2.length ≤ 256 := by
  simp only [genEntries] at he
  cases hk : (nodeAt s root).kind <;> simp only [hk] at he
  · refine ⟨?_, length_le_of_mem_leafPaths he⟩
    rw [show Config.maxLen = 255 + 1 from rfl, leafPaths_internal hk, List.mem_append, List.mem_map, List.mem_map] at he
    rcases he with ⟨e', -, rfl⟩ | ⟨e', -, rfl⟩ <;> simp
  · rw [List.mem_singleton] at he; subst he; simp

theorem genEntries_prefix {s : State} {root : Handle} {a b : Byte × List Bool} (ha : a ∈ genEntries s root)
    (hb : b ∈ genEntries s root) (hp : a.2 <+: b.2) : a = b := by
  simp only [genEntries] at ha hb
  cases hk : (nodeAt s root).kind <;> simp only [hk] at ha hb
  · exact leafPaths_prefix ha hb hp
  · rw [List.mem_singleton] at ha hb; rw [ha, hb]

theorem clenAt_clearCodes (s : State) (b : Byte) : clenAt (clearCodes s) b = 0#9 := by
  simp [clenAt, clearCodes]

/-- The table after GEN: a byte value of an entry has that entry's code, every other byte value has none. -/
theorem genBody_table {s u : State} {d : Word} (h : genBody s = .ok (u, d)) (b : Byte) :
    (b ∉ (genEntries s (heapAt s 0)).map (·.1) ∧ clenAt u b = 0#9) ∨
      ∃ p, (b, p) ∈ genEntries s (heapAt s 0) ∧ (clenAt u b).toNat = p.length ∧ codeOf u b = p ∧ cbitsAt u b = p ∧
        1 ≤ p.length ∧ p.length ≤ 256 := by
  obtain ⟨-, -, -, rfl, -⟩ := genBody_ok.1 h
  by_cases hb : b ∈ (genEntries s (heapAt s 0)).map (·.1)
  · obtain ⟨p, hp, h1, h2⟩ := writeCodes_written (s := clearCodes s) hb
    have hl := genEntries_bounds hp
    refine .inr ⟨p, hp, ?_⟩
    have h1' : (clenAt { writeCodes (genEntries s (heapAt s 0)) (clearCodes s) with codeValid := true } b).toNat =
        p.length := by
      rw [show clenAt { writeCodes (genEntries s (heapAt s 0)) (clearCodes s) with codeValid := true } b =
        clenAt (writeCodes (genEntries s (heapAt s 0)) (clearCodes s)) b from rfl, h1, BitVec.toNat_ofNat]
      simp only at hl; omega
    exact ⟨h1', codeOf_eq_of_held h1' h2, h2, hl⟩
  · refine .inl ⟨hb, ?_⟩
    exact (writeCodes_other (s := clearCodes s) hb).1.trans (clenAt_clearCodes s b)

theorem hasCode_iff {s : State} {b : Byte} : HasCode s b ↔ 1 ≤ (clenAt s b).toNat := by
  unfold HasCode
  constructor
  · intro h
    by_contra hc
    exact h (BitVec.eq_of_toNat_eq (by simp; omega))
  · intro h e
    rw [e] at h; simp at h

/-- "the generated CodeTable is a valid prefix code" (rule R144 (a)), for every tree. -/
theorem genBody_prefixCode {s u : State} {d : Word} (h : genBody s = .ok (u, d)) : PrefixCode u := by
  intro b c hb hc hne hp
  rcases genBody_table h b with ⟨-, h0⟩ | ⟨p, hp1, -, hp2, -⟩
  · exact hb h0
  · rcases genBody_table h c with ⟨-, h0⟩ | ⟨q, hq1, -, hq2, -⟩
    · exact hc h0
    · rw [hp2, hq2] at hp
      have := genEntries_prefix hp1 hq1 hp
      exact hne (congrArg Prod.fst this)

/-! ## The code table of a forest -/

theorem depthAtMost_internal {s : State} {h : Handle} (hk : (nodeAt s h).kind = .internal) (n : Nat) :
    depthAtMost s (n + 1) h = true ↔
      depthAtMost s n (nodeAt s h).left = true ∧ depthAtMost s n (nodeAt s h).right = true := by
  simp [depthAtMost, hk]

/-- The depth is the length of the longest path (rule R140). -/
theorem depthAtMost_of_length {s : State} : ∀ {n m : Nat} {h : Handle}, depthAtMost s n h = true →
    (∀ e ∈ leafPaths s n h, e.2.length ≤ m) → depthAtMost s m h = true
  | n, m, h, hd, hl => by
    cases hk : (nodeAt s h).kind
    · cases n with
      | zero => simp [depthAtMost, hk] at hd
      | succ n =>
        simp only [depthAtMost, hk, Bool.and_eq_true] at hd
        rw [leafPaths_internal hk] at hl
        cases m with
        | zero =>
          obtain ⟨e, he⟩ := List.exists_mem_of_length_pos (leafPaths_length_pos hd.1)
          have := hl _ (List.mem_append_left _ (List.mem_map_of_mem he))
          simp at this
        | succ m =>
          simp only [depthAtMost, hk, Bool.and_eq_true]
          refine ⟨depthAtMost_of_length hd.1 fun e he => ?_, depthAtMost_of_length hd.2 fun e he => ?_⟩
          · have := hl _ (List.mem_append_left _ (List.mem_map_of_mem he)); simpa using this
          · have := hl _ (List.mem_append_right _ (List.mem_map_of_mem he)); simpa using this
    · cases m <;> simp [depthAtMost, hk]

/-- A tree whose root is no child is at most 255 deep (rule R143). -/
theorem Forest.depth_root {s : State} (F : Forest s) {h : Handle} (ha : Allocated s h) (hr : ∀ p, ¬ IsChild s h p) :
    Machine.depthAtMost s 255 h = true := by
  have hd := F.depthAtMost 511 h ha (by have := h.isLt; omega)
  refine depthAtMost_of_length hd fun e he => ?_
  have h1 := length_lt_of_mem_leafPaths hd he
  have h2 : (leafPaths s 511 h).length ≤ 256 := by
    simpa using (List.subperm_of_subset (F.syms_nodup ha hr) (l₂ := allSyms) fun b _ => mem_allSyms b).length_le
  omega

theorem depthAtMost_mono {s : State} : ∀ {n m : Nat} {h : Handle}, depthAtMost s n h = true → n ≤ m →
    depthAtMost s m h = true := fun hd hm =>
  depthAtMost_of_length hd fun _ he => (length_le_of_mem_leafPaths he).trans hm

/-- The facts about the one root of a finished tree. -/
theorem Forest.root {s : State} (F : Forest s) (h1 : s.size = 1#9) :
    Allocated s (heapAt s 0) ∧ (∀ p, ¬ IsChild s (heapAt s 0) p) ∧ Machine.depthAtMost s 256 (heapAt s 0) = true := by
  have h0 : 0 < s.size.toNat := by simp [h1]
  have ha := F.heapAllocated 0 h0
  have hr := fun p => F.heapNotChild 0 p h0
  exact ⟨ha, hr, depthAtMost_mono (F.depth_root ha hr) (by omega)⟩

theorem Forest.genBody_completes {s : State} (F : Forest s) (h0 : s.cnt = 0#3) (h1 : s.size = 1#9) :
    ∃ u, genBody s = .ok (u, 0#32) :=
  ⟨_, genBody_ok.2 ⟨h0, h1, (F.root h1).2.2, rfl, rfl⟩⟩

theorem Forest.genEntries_nodup {s : State} (F : Forest s) (h1 : s.size = 1#9) :
    ((genEntries s (heapAt s 0)).map (·.1)).Nodup := by
  obtain ⟨ha, hr, -⟩ := F.root h1
  simp only [genEntries]
  cases hk : (nodeAt s (heapAt s 0)).kind
  · exact F.syms_nodup ha hr
  · simp

theorem eq_of_mem_of_nodup_fst {α β : Type} {l : List (α × β)} (h : (l.map (·.1)).Nodup) {a : α} {b c : β} (hb : (a, b) ∈ l)
    (hc : (a, c) ∈ l) : b = c := by
  induction l with
  | nil => simp at hb
  | cons x l ih =>
    simp only [List.map_cons, List.nodup_cons] at h
    rcases List.mem_cons.1 hb with rfl | hb <;> rcases List.mem_cons.1 hc with hc | hc
    · cases hc; rfl
    · exact absurd (List.mem_map_of_mem (f := (·.1)) hc) h.1
    · rw [← hc] at h; exact absurd (List.mem_map_of_mem (f := (·.1)) hb) h.1
    · exact ih h.2 hb hc

/-- An entry of GEN is in the table (rule R141). -/
theorem Forest.codeOf_entry {s u : State} {d : Word} (F : Forest s) (h : genBody s = .ok (u, d)) {b : Byte} {p : List Bool}
    (hb : (b, p) ∈ genEntries s (heapAt s 0)) : codeOf u b = p ∧ (clenAt u b).toNat = p.length := by
  obtain ⟨-, h1, -⟩ := genBody_ok.1 h
  rcases genBody_table h b with ⟨hn, -⟩ | ⟨q, hq, e1, e2, -⟩
  · exact absurd (List.mem_map_of_mem (f := (·.1)) hb) hn
  · have := eq_of_mem_of_nodup_fst (F.genEntries_nodup h1) hb hq
    subst this; exact ⟨e2, e1⟩

/-- A path in the tree is the code of its leaf (rule R141). -/
theorem Forest.codeOf_treePath {s u : State} {d : Word} (F : Forest s) (h : genBody s = .ok (u, d))
    (hk : (nodeAt s (heapAt s 0)).kind = .internal) {p : List Bool} {l : Handle} (t : TreePath s (heapAt s 0) p l) :
    codeOf u (nodeAt s l).sym = p ∧ (clenAt u (nodeAt s l).sym).toNat = p.length := by
  obtain ⟨-, h1, -⟩ := genBody_ok.1 h
  refine F.codeOf_entry h ?_
  simp only [genEntries, hk]
  exact leafPaths_of_treePath t (F.root h1).2.2

/-- A byte value with no leaf in the tree has no code (rule R141 (a)). -/
theorem genBody_noCode {s u : State} {d : Word} (h : genBody s = .ok (u, d))
    {b : Byte} (hb : ∀ p l, TreePath s (heapAt s 0) p l → (nodeAt s l).sym ≠ b) : clenAt u b = 0#9 := by
  rcases genBody_table h b with ⟨-, h0⟩ | ⟨q, hq, -⟩
  · exact h0
  · simp only [genEntries] at hq
    cases hk : (nodeAt s (heapAt s 0)).kind <;> simp only [hk] at hq
    · obtain ⟨l, t, hs⟩ := mem_leafPaths hq
      exact absurd hs (hb _ _ t)
    · rw [List.mem_singleton] at hq
      exact absurd (congrArg Prod.fst hq).symm (hb [] _ (.leaf hk))

theorem mem_codedSyms {s : State} {b : Byte} : b ∈ codedSyms s ↔ HasCode s b := by
  simp [codedSyms, HasCode]

/-- The byte values with a code are those of the tree's leaves (rule R141, rule R142). -/
theorem Forest.hasCode_iff_leaf {s u : State} {d : Word} (F : Forest s) (h : genBody s = .ok (u, d)) (b : Byte) :
    HasCode u b ↔ ∃ p l, TreePath s (heapAt s 0) p l ∧ (nodeAt s l).sym = b := by
  constructor
  · intro hb
    by_contra hn
    push Not at hn
    exact hb (genBody_noCode h hn)
  · rintro ⟨p, l, t, rfl⟩
    rw [hasCode_iff]
    cases hk : (nodeAt s (heapAt s 0)).kind
    · rw [(F.codeOf_treePath h hk t).2]
      cases t with
      | leaf h0 => simp [hk] at h0
      | left _ _ => simp
      | right _ _ => simp
    · cases t with
      | leaf _ => simp [(F.codeOf_entry h (b := (nodeAt s (heapAt s 0)).sym) (p := [false]) (by simp [genEntries, hk])).2]
      | left h0 _ => simp [hk] at h0
      | right h0 _ => simp [hk] at h0

/-- The byte values with a code are those of the entries. -/
theorem Forest.codedSyms_perm {s u : State} {d : Word} (F : Forest s) (h : genBody s = .ok (u, d)) :
    (codedSyms u).Perm ((genEntries s (heapAt s 0)).map (·.1)) := by
  obtain ⟨-, h1, -⟩ := genBody_ok.1 h
  refine (List.perm_ext_iff_of_nodup (nodup_allSyms.filter _) (F.genEntries_nodup h1)).2 fun b => ?_
  refine mem_codedSyms.trans ?_
  rw [hasCode_iff]
  rcases genBody_table h b with ⟨hn, h0⟩ | ⟨q, hq, e1, -, -, hp, -⟩
  · simp [hn, h0]
  · simp only [List.mem_map]
    exact ⟨fun _ => ⟨_, hq, rfl⟩, fun _ => by omega⟩

/-- Properties (b) and (c) of rule R144, and the single-leaf table of rule R142. -/
theorem Forest.genBody_complete {s u : State} {d : Word} (F : Forest s) (h : genBody s = .ok (u, d)) :
    ((nodeAt s (heapAt s 0)).kind = .internal → 2 ≤ (codedSyms u).length ∧
      (∀ b, HasCode u b → 1 ≤ (clenAt u b).toNat ∧ (clenAt u b).toNat ≤ (codedSyms u).length - 1) ∧
      ((codedSyms u).map fun b => 2 ^ (256 - (clenAt u b).toNat)).sum = 2 ^ 256) ∧
    ((nodeAt s (heapAt s 0)).kind = .leaf → codedSyms u = [(nodeAt s (heapAt s 0)).sym] ∧
      codeOf u (nodeAt s (heapAt s 0)).sym = [false]) := by
  obtain ⟨-, h1, -⟩ := genBody_ok.1 h
  have hd := (F.root h1).2.2
  have hp := F.codedSyms_perm h
  constructor
  · intro hk
    have he : genEntries s (heapAt s 0) = leafPaths s 256 (heapAt s 0) := by simp [genEntries, hk]
    rw [he] at hp
    have hl : (codedSyms u).length = (leafPaths s 256 (heapAt s 0)).length := by simpa using hp.length_eq
    refine ⟨?_, ?_, ?_⟩
    · have hd' := (depthAtMost_internal hk 255).1 hd
      have p1 := leafPaths_length_pos hd'.1
      have p2 := leafPaths_length_pos hd'.2
      rw [hl, show 256 = 255 + 1 from rfl, leafPaths_internal hk, List.length_append, List.length_map, List.length_map]
      omega
    · intro b hb
      refine ⟨hasCode_iff.1 hb, ?_⟩
      have hm := hp.mem_iff.1 (mem_codedSyms.2 hb)
      obtain ⟨e, he', rfl⟩ := List.mem_map.1 hm
      have := (F.codeOf_entry h (b := e.1) (p := e.2) (he ▸ he')).2
      have := length_lt_of_mem_leafPaths hd he'
      omega
    · have hs := leafPaths_kraft hd
      rw [(hp.map fun b => 2 ^ (256 - (clenAt u b).toNat)).sum_eq, List.map_map, ← hs]
      refine congrArg List.sum (List.map_congr_left fun e hm => ?_)
      rw [← (F.codeOf_entry h (b := e.1) (p := e.2) (he ▸ hm)).2]
      rfl
  · intro hk
    have he : genEntries s (heapAt s 0) = [((nodeAt s (heapAt s 0)).sym, [false])] := by simp [genEntries, hk]
    rw [he] at hp
    exact ⟨by simpa using hp, (F.codeOf_entry h (by rw [he]; simp)).1⟩

end Sys2Proof.Machine
end

