-- ==== Sys2Proof/Laws/ForestSteps.lean ====
section
/-! SUPPORT. The steps that change the queue and the arena keep the forest of Laws/Forest.lean. -/

namespace Sys2Proof.Machine

/-- The forest is a matter of the frequency table, the queue and the arena alone. -/
theorem Forest.congr {s t : State} (F : Forest s) (h1 : t.freq = s.freq) (h2 : t.node = s.node) (h3 : t.nnodes = s.nnodes)
    (h4 : t.heap = s.heap) (h5 : t.size = s.size) (h6 : t.nextsym = s.nextsym) : Forest t := by
  cases s; cases t
  simp only at h1 h2 h3 h4 h5 h6
  subst h1 h2 h3 h4 h5 h6
  exact ⟨F.nextsym, F.heapOrdered, F.heapAllocated, F.heapDistinct, F.leafRecord, F.leafDistinct, F.internalRecord, F.childOnce,
    F.heapNotChild⟩

/-- With no node allocated there is nothing to check. -/
theorem forest_of_empty {s : State} (h1 : s.nnodes = 0#9) (h2 : s.size = 0#9) (h3 : s.nextsym.toNat ≤ 256) : Forest s := by
  have na : ∀ x, ¬ Allocated s x := by simp [Allocated, h1]
  have nl : ∀ x, ¬ IsLeaf s x := fun x h => na x h.1
  have ni : ∀ x, ¬ IsInternal s x := fun x h => na x h.1
  have nz : ∀ i, ¬ i < s.size.toNat := by simp [h2]
  exact
    { nextsym := h3
      heapOrdered := fun i _ hi => absurd hi (nz i)
      heapAllocated := fun i hi => absurd hi (nz i)
      heapDistinct := by simp [liveHeap, h2]
      leafRecord := fun x h => absurd h (nl x)
      leafDistinct := fun x _ h => absurd h (nl x)
      internalRecord := fun x h => absurd h (ni x)
      childOnce := fun _ p _ h => absurd h.1 (ni p)
      heapNotChild := fun i _ hi => absurd hi (nz i) }

theorem heapNotChild_iff {s : State} :
    (∀ i p, i < s.size.toNat → ¬ IsChild s (heapAt s i) p) ↔ ∀ x ∈ liveHeap s, ∀ p, ¬ IsChild s x p := by
  simp only [mem_liveHeap]
  exact ⟨fun h _ ⟨i, hi, e⟩ p => e ▸ h i p hi, fun h i p hi => h _ ⟨i, hi, rfl⟩ p⟩

/-- What an allocation of record h does to the sets of nodes. -/
theorem alloc_sets {s t : State} {h : Handle} {n : Node} (hh : h = s.nnodes) (hn : t.nnodes.toNat = s.nnodes.toNat + 1)
    (h1 : nodeAt t h = n) (h2 : ∀ x, x ≠ h → nodeAt t x = nodeAt s x) :
    (∀ x, Allocated t x ↔ x = h ∨ Allocated s x) ∧ ¬ Allocated s h ∧
      (∀ x, Allocated s x → nodeAt t x = nodeAt s x ∧ wt t x = wt s x) ∧
      (∀ x, IsLeaf t x ↔ (x = h ∧ n.kind = .leaf) ∨ IsLeaf s x) ∧
      (∀ x, IsInternal t x ↔ (x = h ∧ n.kind = .internal) ∨ IsInternal s x) := by
  have na : ¬ Allocated s h := by simp [Allocated, hh]
  have al : ∀ x, Allocated t x ↔ x = h ∨ Allocated s x := by
    intro x
    simp only [Allocated, hn, hh]
    constructor
    · intro hx
      by_cases e : x.toNat = s.nnodes.toNat
      · exact .inl (BitVec.eq_of_toNat_eq e)
      · exact .inr (by omega)
    · rintro (rfl | hx)
      · omega
      · omega
  have nd : ∀ x, Allocated s x → nodeAt t x = nodeAt s x := fun x hx => h2 x fun e => na (e ▸ hx)
  refine ⟨al, na, fun x hx => ⟨nd x hx, by simp [wt, nd x hx]⟩, fun x => ?_, fun x => ?_⟩
  · constructor
    · rintro ⟨ha, hk⟩
      rcases (al x).1 ha with rfl | ha
      · exact .inl ⟨rfl, h1 ▸ hk⟩
      · exact .inr ⟨ha, nd x ha ▸ hk⟩
    · rintro (⟨rfl, hk⟩ | ⟨ha, hk⟩)
      · exact ⟨(al _).2 (.inl rfl), h1 ▸ hk⟩
      · exact ⟨(al _).2 (.inr ha), (nd x ha).symm ▸ hk⟩
  · constructor
    · rintro ⟨ha, hk⟩
      rcases (al x).1 ha with rfl | ha
      · exact .inl ⟨rfl, h1 ▸ hk⟩
      · exact .inr ⟨ha, nd x ha ▸ hk⟩
    · rintro (⟨rfl, hk⟩ | ⟨ha, hk⟩)
      · exact ⟨(al _).2 (.inl rfl), h1 ▸ hk⟩
      · exact ⟨(al _).2 (.inr ha), (nd x ha).symm ▸ hk⟩

/-- Creating a leaf keeps the forest. -/
theorem Forest.leafStep {s t : State} {sym : Byte} {h : Handle} (F : Forest s) (hord : s.nextsym.toNat ≤ sym.toNat)
    (hz : freqAt s sym ≠ 0#32) (e : Machine.leafStep sym s = .ok (t, h)) : Forest t := by
  obtain ⟨g1, g2, g3, g4, g5, g6, g7, g8, g9, g10, g11⟩ := leafStep_spec e
  obtain ⟨al, na, nd, lf, it⟩ := alloc_sets g3 g4 g8 g9
  have fr : ∀ b, freqAt t b = freqAt s b := freqAt_of_freq_eq (by rw [g7])
  have nx : t.nextsym.toNat = sym.toNat + 1 := by
    have := sym.isLt
    rw [g6, BitVec.toNat_add, BitVec.toNat_setWidth]; simp; omega
  have lf' : ∀ x, IsLeaf t x ↔ x = h ∨ IsLeaf s x := by simpa using lf
  have it' : ∀ x, IsInternal t x ↔ IsInternal s x := by simpa using it
  have ch : ∀ c p, IsChild t c p ↔ IsChild s c p := by
    intro c p
    simp only [IsChild, it']
    refine and_congr_right fun hp => ?_
    rw [(nd p hp.1).1]
  refine
    { nextsym := by have := sym.isLt; omega
      heapOrdered := g11 F.heapAllocated F.heapOrdered
      heapAllocated := ?_
      heapDistinct := ?_
      leafRecord := ?_
      leafDistinct := ?_
      internalRecord := ?_
      childOnce := fun c p q hp hq => F.childOnce c p q ((ch c p).1 hp) ((ch c q).1 hq)
      heapNotChild := ?_ }
  · rw [heapAllocated_iff]
    intro x hx
    rcases List.mem_cons.1 (g10.mem_iff.1 hx) with rfl | hx
    · exact (al _).2 (.inl rfl)
    · exact (al _).2 (.inr ((heapAllocated_iff s).1 F.heapAllocated x hx))
  · rw [g10.nodup_iff, List.nodup_cons]
    exact ⟨fun hx => na ((heapAllocated_iff s).1 F.heapAllocated h hx), F.heapDistinct⟩
  · intro x hx
    rcases (lf' x).1 hx with rfl | hx
    · simp only [wt, g8, fr, nx]
      refine ⟨trivial, fun q => hz ?_, by omega, trivial, trivial⟩
      have := congrArg BitVec.toNat q
      have := (freqAt s sym).isLt
      rw [BitVec.toNat_setWidth] at *
      refine BitVec.eq_of_toNat_eq ?_
      simp at *; omega
    · obtain ⟨h1, h2, h3, h4, h5⟩ := F.leafRecord x hx
      rw [(nd x hx.1).2, (nd x hx.1).1, fr, nx]
      exact ⟨h1, h2, by omega, h4, h5⟩
  · intro x y hx hy hxy
    rcases (lf' x).1 hx with rfl | hx <;> rcases (lf' y).1 hy with rfl | hy
    · rfl
    · rw [g8, (nd y hy.1).1] at hxy
      have := (F.leafRecord y hy).2.2.1
      rw [← hxy] at this; simp at this; omega
    · rw [g8, (nd x hx.1).1] at hxy
      have := (F.leafRecord x hx).2.2.1
      rw [hxy] at this; simp at this; omega
    · rw [(nd x hx.1).1, (nd y hy.1).1] at hxy
      exact F.leafDistinct x y hx hy hxy
  · intro x hx
    have hx := (it' x).1 hx
    obtain ⟨h1, h2, h3, h4, h5⟩ := F.internalRecord x hx
    rw [(nd x hx.1).2, (nd x hx.1).1, (nd _ (F.left_allocated hx)).2,
      (nd _ (F.right_allocated hx)).2]
    exact ⟨h1, h2, h3, h4, h5⟩
  · rw [heapNotChild_iff]
    intro x hx p hp
    have hp := (ch x p).1 hp
    rcases List.mem_cons.1 (g10.mem_iff.1 hx) with rfl | hx
    · exact na (F.child_allocated hp)
    · exact heapNotChild_iff.1 F.heapNotChild x hx p hp

/-- A merge step keeps the forest. -/
theorem Forest.mergeStep {s t : State} {p : Handle} (F : Forest s) (e : Machine.mergeStep s = .ok (t, p)) : Forest t := by
  obtain ⟨-, -, -, hsz, -⟩ := F.counts
  obtain ⟨l, r, rest, g1, g2, g3, g4, g5, g6, g7, g8, g9, g10, g11⟩ := mergeStep_spec e hsz
  obtain ⟨al, na, nd, lf, it⟩ := alloc_sets g3 g4 g7 g8
  obtain ⟨-, -, ho⟩ := g11 F.heapOrdered
  have hal := (heapAllocated_iff s).1 F.heapAllocated
  have hnc := heapNotChild_iff.1 F.heapNotChild
  have fr : ∀ b, freqAt t b = freqAt s b := freqAt_of_freq_eq (by rw [g6])
  have nx : t.nextsym = s.nextsym := by rw [g6]
  have lf' : ∀ x, IsLeaf t x ↔ IsLeaf s x := by simpa using lf
  have it' : ∀ x, IsInternal t x ↔ x = p ∨ IsInternal s x := by simpa using it
  have hl : l ∈ liveHeap s := g9.mem_iff.2 (by simp)
  have hr : r ∈ liveHeap s := g9.mem_iff.2 (by simp)
  have hrest : ∀ x ∈ rest, x ∈ liveHeap s := fun x hx => g9.mem_iff.2 (by simp [hx])
  have hdist : (l :: r :: rest).Nodup := g9.nodup_iff.1 F.heapDistinct
  simp only [List.nodup_cons, List.mem_cons, not_or] at hdist
  have ch : ∀ c q, IsChild t c q ↔ (q = p ∧ (c = l ∨ c = r)) ∨ IsChild s c q := by
    intro c q
    constructor
    · rintro ⟨hq, hc⟩
      rcases (it' q).1 hq with rfl | hq
      · rw [g7] at hc; exact .inl ⟨rfl, hc⟩
      · rw [(nd q hq.1).1] at hc; exact .inr ⟨hq, hc⟩
    · rintro (⟨rfl, hc⟩ | ⟨hq, hc⟩)
      · exact ⟨(it' _).2 (.inl rfl), by rw [g7]; exact hc⟩
      · exact ⟨(it' q).2 (.inr hq), by rw [(nd q hq.1).1]; exact hc⟩
  refine
    { nextsym := nx ▸ F.nextsym
      heapOrdered := ho F.heapAllocated
      heapAllocated := ?_
      heapDistinct := ?_
      leafRecord := ?_
      leafDistinct := ?_
      internalRecord := ?_
      childOnce := ?_
      heapNotChild := ?_ }
  · rw [heapAllocated_iff]
    intro x hx
    rcases List.mem_cons.1 (g10.mem_iff.1 hx) with rfl | hx
    · exact (al _).2 (.inl rfl)
    · exact (al _).2 (.inr (hal x (hrest x hx)))
  · rw [g10.nodup_iff, List.nodup_cons]
    exact ⟨fun hx => na (hal p (hrest p hx)), hdist.2.2⟩
  · intro x hx
    have hx := (lf' x).1 hx
    rw [(nd x hx.1).2, (nd x hx.1).1, fr, nx]
    exact F.leafRecord x hx
  · intro x y hx hy hxy
    have hx := (lf' x).1 hx
    have hy := (lf' y).1 hy
    rw [(nd x hx.1).1, (nd y hy.1).1] at hxy
    exact F.leafDistinct x y hx hy hxy
  · intro x hx
    rcases (it' x).1 hx with rfl | hx
    · have al1 := hal l hl
      have al2 := hal r hr
      have hw := F.add_lt hl hr hdist.1.1
      have e1 : wt t x = wt s l + wt s r := by simp [wt, g7]
      rw [g7, e1, (nd l al1).2, (nd r al2).2, BitVec.toNat_add, Nat.mod_eq_of_lt hw]
      simp only [Allocated, ← g3] at al1 al2
      exact ⟨al1, al2, hdist.1.1, rfl, rfl⟩
    · obtain ⟨h1, h2, h3, h4, h5⟩ := F.internalRecord x hx
      rw [(nd x hx.1).2, (nd x hx.1).1, (nd _ (F.left_allocated hx)).2,
        (nd _ (F.right_allocated hx)).2]
      exact ⟨h1, h2, h3, h4, h5⟩
  · intro c q q' hq hq'
    rcases (ch c q).1 hq with ⟨rfl, h1⟩ | h1 <;> rcases (ch c q').1 hq' with ⟨rfl, h2⟩ | h2
    · rfl
    · rcases h1 with rfl | rfl
      · exact absurd h2 (hnc _ hl _)
      · exact absurd h2 (hnc _ hr _)
    · rcases h2 with rfl | rfl
      · exact absurd h1 (hnc _ hl _)
      · exact absurd h1 (hnc _ hr _)
    · exact F.childOnce c q q' h1 h2
  · rw [heapNotChild_iff]
    intro x hx q hq
    rcases List.mem_cons.1 (g10.mem_iff.1 hx) with rfl | hx
    · rcases (ch _ q).1 hq with ⟨-, rfl | rfl⟩ | h
      · exact na (hal _ hl)
      · exact na (hal _ hr)
      · exact na (F.child_allocated h)
    · rcases (ch x q).1 hq with ⟨-, rfl | rfl⟩ | h
      · exact hdist.1.2 hx
      · exact hdist.2.1 hx
      · exact hnc x (hrest x hx) q h

/-- An extraction keeps the forest. -/
theorem Forest.extract {s t : State} {m : Handle} (F : Forest s) (e : pqExtractMin s = .ok (t, m)) : Forest t := by
  obtain ⟨-, -, -, hsz, -⟩ := F.counts
  obtain ⟨h1, h2, h3, h4, h5, h6⟩ := pqExtractMin_spec e hsz
  have hmem : ∀ x ∈ liveHeap t, x ∈ liveHeap s := fun x hx => h5.mem_iff.2 (List.mem_cons_of_mem _ hx)
  have nd : nodeAt t = nodeAt s := funext (nodeAt_of_node_eq (by rw [h4]))
  have nn : t.nnodes = s.nnodes := by rw [h4]
  have fr : freqAt t = freqAt s := funext (freqAt_of_freq_eq (by rw [h4]))
  have nx : t.nextsym = s.nextsym := by rw [h4]
  have al : Allocated t = Allocated s := by funext x; simp [Allocated, nn]
  have lf : IsLeaf t = IsLeaf s := by funext x; simp [IsLeaf, nd, al]
  have it : IsInternal t = IsInternal s := by funext x; simp [IsInternal, nd, al]
  have ch : IsChild t = IsChild s := by funext c p; simp [IsChild, nd, it]
  have w : wt t = wt s := by funext x; simp [wt, nd]
  exact
    { nextsym := nx ▸ F.nextsym
      heapOrdered := h6 F.heapOrdered
      heapAllocated := (heapAllocated_iff t).2 fun x hx => al ▸ (heapAllocated_iff s).1 F.heapAllocated x (hmem x hx)
      heapDistinct := (List.nodup_cons.1 (h5.nodup_iff.1 F.heapDistinct)).2
      leafRecord := by rw [lf, w, fr, nd, nx]; exact F.leafRecord
      leafDistinct := by rw [lf, nd]; exact F.leafDistinct
      internalRecord := by rw [it, w, nd]; exact F.internalRecord
      childOnce := by rw [ch]; exact F.childOnce
      heapNotChild := heapNotChild_iff.2 fun x hx => ch ▸ heapNotChild_iff.1 F.heapNotChild x (hmem x hx) }

end Sys2Proof.Machine
end

