-- ==== Sys2Proof/Laws/Build.lean ====
section
/-! SUPPORT. What `BUILD` makes (42_tree_builder.md rule R131 to rule R133), and what follows for the code table that `GEN` then
writes: every byte value with a non-zero frequency has a code. -/

namespace Sys2Proof.Machine

/-- Every allocated node is queued or a child. -/
def Covered (s : State) : Prop := ∀ h, Allocated s h → h ∈ liveHeap s ∨ ∃ p, IsChild s h p

/-- The sum of the weights of the queued nodes. -/
def liveWeight (s : State) : Nat := ((liveHeap s).map fun h => (wt s h).toNat).sum

/-- The record of a new leaf (41_priority_queue.md rule R119). -/
def leafRecordOf (s : State) (b : Byte) : Node := ⟨.leaf, b, (freqAt s b).setWidth 40, Config.nil, Config.nil⟩

theorem liveWeight_of_perm {s t : State} {l : List Handle} (h : (liveHeap t).Perm l) (hw : ∀ x ∈ l, wt t x = wt s x) :
    liveWeight t = (l.map fun h => (wt s h).toNat).sum := by
  rw [liveWeight, (h.map _).sum_eq]
  exact congrArg List.sum (List.map_congr_left fun x hx => by rw [hw x hx])

/-! ## A leaf -/

theorem Covered.leafStep {s t : State} {b : Byte} {h : Handle} (C : Covered s) (e : Machine.leafStep b s = .ok (t, h)) :
    Covered t := by
  obtain ⟨-, -, g3, g4, -, -, -, g8, g9, g10, -⟩ := leafStep_spec e
  obtain ⟨al, na, nd, -, it⟩ := alloc_sets g3 g4 g8 g9
  intro x hx
  rcases (al x).1 hx with rfl | hx
  · exact .inl (g10.mem_iff.2 List.mem_cons_self)
  · rcases C x hx with hl | ⟨p, hp, hc⟩
    · exact .inl (g10.mem_iff.2 (List.mem_cons_of_mem _ hl))
    · refine .inr ⟨p, (it p).2 (.inr hp), ?_⟩
      rwa [(nd p hp.1).1]

theorem Forest.liveWeight_leafStep {s t : State} {b : Byte} {h : Handle} (F : Forest s)
    (e : Machine.leafStep b s = .ok (t, h)) : liveWeight t = liveWeight s + (freqAt s b).toNat := by
  obtain ⟨-, -, g3, g4, -, -, -, g8, g9, g10, -⟩ := leafStep_spec e
  obtain ⟨-, -, nd, -, -⟩ := alloc_sets g3 g4 g8 g9
  rw [liveWeight, (g10.map _).sum_eq, List.map_cons, List.sum_cons, Nat.add_comm]
  congr 1
  · exact congrArg List.sum (List.map_congr_left fun x hx =>
      by rw [(nd x ((heapAllocated_iff s).1 F.heapAllocated x hx)).2])
  · have := (freqAt s b).isLt
    simp only [wt, g8, BitVec.toNat_setWidth]; omega

/-! ## The scan -/

theorem Forest.buildLeaves : ∀ (bs : List Byte) (s : State), Forest s → Covered s → s.nnodes.toNat = s.size.toNat →
    bs.Pairwise (fun a b => a.toNat < b.toNat) → (∀ b ∈ bs, s.nextsym.toNat ≤ b.toNat) →
    ∃ t, Machine.buildLeaves bs s = .ok t ∧ Forest t ∧ Covered t ∧ t.nnodes.toNat = t.size.toNat ∧
      t.nnodes.toNat = s.nnodes.toNat + (bs.filter fun b => freqAt s b ≠ 0#32).length ∧
      (∀ x, Allocated s x → nodeAt t x = nodeAt s x) ∧
      (∀ (k : Nat) (hk : k < (bs.filter fun b => freqAt s b ≠ 0#32).length),
        nodeAt t (BitVec.ofNat 9 (s.nnodes.toNat + k)) = leafRecordOf s (bs.filter fun b => freqAt s b ≠ 0#32)[k]) ∧
      t.nextsym.toNat = ((bs.filter fun b => freqAt s b ≠ 0#32).getLast?.map fun b => b.toNat + 1).getD s.nextsym.toNat ∧
      liveWeight t = liveWeight s + ((bs.filter fun b => freqAt s b ≠ 0#32).map fun b => (freqAt s b).toNat).sum
  | [], s, F, C, hn, _, _ => ⟨s, rfl, F, C, hn, rfl, fun _ _ => rfl, fun k hk => by simp at hk, rfl, rfl⟩
  | b :: bs, s, F, C, hn, hp, hb => by
    rw [List.pairwise_cons] at hp
    by_cases h0 : freqAt s b = 0#32
    · have ef : (b :: bs).filter (fun b => freqAt s b ≠ 0#32) = bs.filter fun b => freqAt s b ≠ 0#32 := by
        rw [List.filter_cons_of_neg]; simp [h0]
      simp only [Machine.buildLeaves, h0, if_true, ef]
      exact F.buildLeaves bs s C hn hp.2 fun c hc => hb c (List.mem_cons_of_mem _ hc)
    · have ef : (b :: bs).filter (fun b => freqAt s b ≠ 0#32) = b :: bs.filter fun b => freqAt s b ≠ 0#32 := by
        rw [List.filter_cons_of_pos]; simp [h0]
      have hbn := hb b List.mem_cons_self
      have hlt := b.isLt
      have hc := F.counts
      have hl := F.leaves_le
      obtain ⟨u, e⟩ := leafStep_completes b (s := s) (by omega) (by omega)
      obtain ⟨-, -, -, g4, g5, g6, g7, g8, g9, -, -⟩ := leafStep_spec e
      obtain ⟨al, na, nd, -, -⟩ := alloc_sets rfl g4 g8 g9
      have nx : u.nextsym.toNat = b.toNat + 1 := by
        rw [g6, BitVec.toNat_add, BitVec.toNat_setWidth]; simp; omega
      have fr : freqAt u = freqAt s := funext fun c => freqAt_of_freq_eq (by rw [g7]) c
      obtain ⟨t, e1, F1, C1, hn1, r1, r2, r3, r4, r5⟩ := (F.leafStep hbn h0 e).buildLeaves bs u (C.leafStep e) (by omega) hp.2
        fun c hc => by have := hp.1 c hc; omega
      simp only [fr] at r1 r3 r4 r5
      have hrec : leafRecordOf u = leafRecordOf s := by funext c; simp [leafRecordOf, fr]
      rw [ef]
      refine ⟨t, ?_, F1, C1, hn1, ?_, ?_, ?_, ?_, ?_⟩
      · simp only [Machine.buildLeaves, h0, if_false, e, except_ok_bind, e1]
      · rw [r1, g4, List.length_cons]; omega
      · intro x hx
        rw [r2 x ((al x).2 (.inr hx)), (nd x hx).1]
      · intro k hk
        cases k with
        | zero =>
          have : BitVec.ofNat 9 (s.nnodes.toNat + 0) = s.nnodes := by simp
          rw [this, r2 _ ((al _).2 (.inl rfl)), g8]; rfl
        | succ k =>
          have := r3 k (by simpa using hk)
          rw [g4, hrec] at this
          rw [show s.nnodes.toNat + (k + 1) = s.nnodes.toNat + 1 + k by omega, this]; rfl
      · rw [r4, List.getLast?_cons]
        cases (bs.filter fun b => freqAt s b ≠ 0#32).getLast? <;> simp [nx]
      · rw [r5, F.liveWeight_leafStep e, List.map_cons, List.sum_cons]; omega

/-! ## The merge loop -/

theorem Covered.mergeStep {s t : State} {p : Handle} (C : Covered s) (hs : s.size.toNat ≤ 256)
    (e : Machine.mergeStep s = .ok (t, p)) : Covered t := by
  obtain ⟨l, r, rest, -, -, g3, g4, -, -, g7, g8, g9, g10, -⟩ := mergeStep_spec e hs
  obtain ⟨al, na, nd, -, it⟩ := alloc_sets g3 g4 g7 g8
  have ip : IsInternal t p := (it p).2 (.inl ⟨rfl, rfl⟩)
  intro x hx
  rcases (al x).1 hx with rfl | hx
  · exact .inl (g10.mem_iff.2 List.mem_cons_self)
  · rcases C x hx with hl | ⟨q, hq, hc⟩
    · rcases List.mem_cons.1 (g9.mem_iff.1 hl) with rfl | hl
      · exact .inr ⟨p, ip, .inl (by rw [g7])⟩
      · rcases List.mem_cons.1 hl with rfl | hl
        · exact .inr ⟨p, ip, .inr (by rw [g7])⟩
        · exact .inl (g10.mem_iff.2 (List.mem_cons_of_mem _ hl))
    · refine .inr ⟨q, (it q).2 (.inr hq), ?_⟩
      rwa [(nd q hq.1).1]

theorem Forest.liveWeight_mergeStep {s t : State} {p : Handle} (F : Forest s) (e : Machine.mergeStep s = .ok (t, p)) :
    liveWeight t = liveWeight s := by
  obtain ⟨-, -, -, hsz, -⟩ := F.counts
  obtain ⟨l, r, rest, -, -, g3, g4, -, -, g7, g8, g9, g10, -⟩ := mergeStep_spec e hsz
  obtain ⟨-, -, nd, -, -⟩ := alloc_sets g3 g4 g7 g8
  have hal := (heapAllocated_iff s).1 F.heapAllocated
  have hd : (l :: r :: rest).Nodup := g9.nodup_iff.1 F.heapDistinct
  simp only [List.nodup_cons, List.mem_cons, not_or] at hd
  have hw := F.add_lt (g9.mem_iff.2 (by simp)) (g9.mem_iff.2 (by simp)) hd.1.1
  have hp : (wt t p).toNat = (wt s l).toNat + (wt s r).toNat := by
    have : wt t p = wt s l + wt s r := by simp [wt, g7]
    rw [this, BitVec.toNat_add, Nat.mod_eq_of_lt hw]
  rw [liveWeight, liveWeight, (g9.map _).sum_eq, (g10.map _).sum_eq]
  simp only [List.map_cons, List.sum_cons, hp]
  have : (rest.map fun h => (wt t h).toNat) = rest.map fun h => (wt s h).toNat :=
    List.map_congr_left fun x hx => by rw [(nd x (hal x (g9.mem_iff.2 (by simp [hx])))).2]
  rw [this]; omega

theorem Forest.mergeStep_completes {s : State} (F : Forest s) (h2 : 2 ≤ s.size.toNat) :
    ∃ t, Machine.mergeStep s = .ok (t, s.nnodes) := by
  have hc := F.counts
  have := countKind_add s
  exact Machine.mergeStep_completes (by omega) h2 (by omega)

/-- A merge writes no NEXTSYM. -/
theorem mergeStep_nextsym {s t : State} {p : Handle} (e : Machine.mergeStep s = .ok (t, p)) : t.nextsym = s.nextsym := by
  simp only [Machine.mergeStep, except_bind_ok, except_pure, Except.ok.injEq, Prod.mk.injEq] at e
  obtain ⟨⟨a, l⟩, ea, ⟨b, r⟩, eb, ⟨c, q⟩, ec, d, ed, rfl, rfl⟩ := e
  obtain ⟨-, -, rfl⟩ := pqExtractMin_ok.1 ea
  obtain ⟨-, -, rfl⟩ := pqExtractMin_ok.1 eb
  obtain ⟨-, -, rfl⟩ := nodeAlloc_ok.1 ec
  obtain ⟨-, rfl⟩ := pqInsert_ok.1 ed
  rfl

theorem mergeLoop_nextsym : ∀ {n : Nat} {s t : State}, Machine.mergeLoop n s = .ok t → t.nextsym = s.nextsym
  | 0, s, t, e => by cases e; rfl
  | n + 1, s, t, e => by
    simp only [Machine.mergeLoop] at e
    split_ifs at e
    · obtain ⟨⟨u, h⟩, e1, e2⟩ := except_bind_ok.1 e
      exact (mergeLoop_nextsym e2).trans (mergeStep_nextsym e1)
    · cases e; rfl

theorem liveHeap_singleton {s : State} (h : s.size.toNat = 1) : liveHeap s = [heapAt s 0] := by
  simp [liveHeap, h]

theorem Forest.mergeLoop : ∀ (n : Nat) (s : State), Forest s → Covered s → 1 ≤ s.size.toNat → s.size.toNat ≤ n + 1 →
    ∃ t, Machine.mergeLoop n s = .ok t ∧ Forest t ∧ Covered t ∧ t.size.toNat = 1 ∧
      t.nnodes.toNat = s.nnodes.toNat + s.size.toNat - 1 ∧
      (∀ x, Allocated s x → nodeAt t x = nodeAt s x) ∧
      (∀ x, Allocated t x → ¬ Allocated s x → (nodeAt t x).kind = .internal) ∧
      (2 ≤ s.size.toNat → (heapAt t 0).toNat = t.nnodes.toNat - 1) ∧ liveWeight t = liveWeight s
  | 0, s, F, C, h1, hn => by
    exact ⟨s, rfl, F, C, by omega, by omega, fun _ _ => rfl, fun x h h' => absurd h h', by omega, rfl⟩
  | n + 1, s, F, C, h1, hn => by
    by_cases h2 : 1 < s.size.toNat
    · obtain ⟨u, e⟩ := F.mergeStep_completes (by omega)
      have hsz := F.counts.2.2.2.1
      obtain ⟨l, r, rest, -, -, -, g4, g5, -, g7, g8, -, g10, -⟩ := mergeStep_spec e hsz
      obtain ⟨al, na, nd, -, -⟩ := alloc_sets rfl g4 g7 g8
      obtain ⟨t, e1, F1, C1, r1, r2, r3, r4, r5, r6⟩ := (F.mergeStep e).mergeLoop n u (C.mergeStep hsz e) (by omega) (by omega)
      refine ⟨t, ?_, F1, C1, r1, by omega, ?_, ?_, ?_, ?_⟩
      · simp only [Machine.mergeLoop, h2, if_true, e, except_ok_bind, e1]
      · intro x hx
        rw [r3 x ((al x).2 (.inr hx)), (nd x hx).1]
      · intro x hx hx'
        by_cases hu : Allocated u x
        · rcases (al x).1 hu with rfl | hu'
          · rw [r3 _ hu, g7]
          · exact absurd hu' hx'
        · exact r4 x hx hu
      · intro _
        by_cases h3 : 2 ≤ u.size.toNat
        · exact r5 h3
        · have hu1 : u.size.toNat = 1 := by omega
          have : t = u := by
            cases n with
            | zero => simp only [Machine.mergeLoop, Except.ok.injEq] at e1; exact e1.symm
            | succ n =>
              simp only [Machine.mergeLoop] at e1
              rw [if_neg (by omega)] at e1
              exact (Except.ok.inj e1).symm
          subst this
          rw [liveHeap_singleton hu1] at g10
          have hm : heapAt t 0 ∈ s.nnodes :: rest := g10.mem_iff.1 (by simp)
          have hl := g10.length_eq
          simp only [List.length_cons, List.length_nil] at hl
          have hr : rest = [] := List.eq_nil_of_length_eq_zero (by omega)
          rw [hr, List.mem_singleton] at hm
          rw [hm, g4]; omega
      · rw [r6, F.liveWeight_mergeStep e]
    · refine ⟨s, ?_, F, C, by omega, by omega, fun _ _ => rfl, fun x h h' => absurd h h', by omega, rfl⟩
      simp only [Machine.mergeLoop, h2, if_false]

/-! ## BUILD -/

theorem pairwise_allSyms : allSyms.Pairwise fun a b => a.toNat < b.toNat := by
  rw [allSyms, List.pairwise_map]
  refine List.Pairwise.imp_of_mem ?_ List.pairwise_lt_range
  intro a b ha hb hab
  rw [List.mem_range] at ha hb
  rw [BitVec.toNat_ofNat, BitVec.toNat_ofNat]; omega

theorem mem_presentSyms {s : State} {b : Byte} : b ∈ presentSyms s ↔ freqAt s b ≠ 0#32 := by simp [presentSyms]

theorem sum_presentSyms (s : State) : ((presentSyms s).map fun b => (freqAt s b).toNat).sum = freqTotal s := by
  simp only [presentSyms, freqTotal]
  induction allSyms with
  | nil => rfl
  | cons b bs ih =>
    by_cases h : freqAt s b = 0#32
    · rw [List.filter_cons_of_neg (by simp [h]), ih, List.map_cons, List.sum_cons, h]; simp
    · rw [List.filter_cons_of_pos (by simp [h]), List.map_cons, List.sum_cons, ih, List.map_cons, List.sum_cons]

theorem forest_emptyQueue (s : State) : Forest (emptyQueue s) := forest_of_empty rfl rfl (by simp [emptyQueue])

theorem covered_emptyQueue (s : State) : Covered (emptyQueue s) := fun h hh => by simp [Allocated, emptyQueue] at hh

/-- What `BUILD` does (rule R131, rule R133), in any state with a byte value present. -/
theorem buildBody_spec {s : State} (hp : ∃ b, freqAt s b ≠ 0#32) :
    ∃ t, buildBody s = .ok (t, (heapAt t 0).setWidth 32) ∧ t = withQueue s t ∧ Forest t ∧ Covered t ∧ t.size = 1#9 ∧
      1 ≤ (presentSyms s).length ∧ t.nnodes.toNat = 2 * (presentSyms s).length - 1 ∧
      (heapAt t 0).toNat = 2 * (presentSyms s).length - 2 ∧
      (∀ (k : Nat) (hk : k < (presentSyms s).length),
        nodeAt t (BitVec.ofNat 9 k) = leafRecordOf s (presentSyms s)[k]) ∧
      (∀ x : Handle, (presentSyms s).length ≤ x.toNat → x.toNat < t.nnodes.toNat → (nodeAt t x).kind = .internal) ∧
      t.nextsym.toNat = ((presentSyms s).getLast?.map fun b => b.toNat + 1).getD 0 ∧
      (wt t (heapAt t 0)).toNat = freqTotal s := by
  obtain ⟨u, e1, F1, C1, hn1, r1, r2, r3, r4, r5⟩ := (forest_emptyQueue s).buildLeaves allSyms _ (covered_emptyQueue s) rfl
    pairwise_allSyms (fun _ _ => by simp [emptyQueue])
  have hps : (allSyms.filter fun b => freqAt (emptyQueue s) b ≠ 0#32) = presentSyms s := rfl
  have h1 : 1 ≤ (presentSyms s).length := by
    obtain ⟨b, hb⟩ := hp
    exact List.length_pos_of_mem (mem_presentSyms.2 hb)
  rw [hps] at r1 r3 r4 r5
  have n0 : (emptyQueue s).nnodes.toNat = 0 := rfl
  have x0 : (emptyQueue s).nextsym.toNat = 0 := rfl
  have w0 : liveWeight (emptyQueue s) = 0 := by simp [liveWeight, liveHeap]
  rw [n0, Nat.zero_add] at r1
  obtain ⟨t, e2, F2, C2, q1, q2, q3, q4, q5, q6⟩ := F1.mergeLoop u.size.toNat u C1 (by omega) (by omega)
  have hroot : (heapAt t 0).toNat = 2 * (presentSyms s).length - 2 := by
    by_cases h2 : 2 ≤ u.size.toNat
    · rw [q5 h2]; omega
    · have : (heapAt t 0).toNat < t.nnodes.toNat := F2.heapAllocated 0 (by omega)
      omega
  have eb : buildBody s = .ok (t, (heapAt t 0).setWidth 32) := buildBody_ok.2 ⟨hp, u, e1, e2, rfl⟩
  refine ⟨t, eb, ?_, F2, C2, BitVec.eq_of_toNat_eq (by simpa using q1), h1, by omega, hroot, ?_, ?_, ?_, ?_⟩
  · exact withQueue_trans (withQueue_trans (t := emptyQueue s) rfl (buildLeaves_frame e1)) (mergeLoop_frame e2)
  · intro k hk
    have := r3 k hk
    rw [n0, Nat.zero_add] at this
    have hu := u.nnodes.isLt
    rw [q3 _ (by simp only [Allocated]; rw [ofNat_toNat_of_lt (by omega)]; omega), this]; rfl
  · intro x hx hx'
    exact q4 x hx' (by simp only [Allocated]; omega)
  · have : t.nextsym = u.nextsym := mergeLoop_nextsym e2
    rw [this, r4, x0]
  · have hw : liveWeight t = (wt t (heapAt t 0)).toNat := by simp [liveWeight, liveHeap_singleton q1]
    rw [← hw, q6, r5, w0, Nat.zero_add]
    exact sum_presentSyms s

/-! ## Every leaf below the root -/

theorem Walk.treePath {s : State} {a x l : Handle} {p q : List Bool} (w : Walk s a p x) (t : TreePath s x q l) :
    TreePath s a (p ++ q) l := by
  induction w generalizing q with
  | nil => exact t
  | @snoc p y b w hi ih =>
    have : TreePath s y (b :: q) l := by
      cases b
      · exact .left hi.2 t
      · exact .right hi.2 t
    simpa using ih this

/-- With one node queued, every allocated node is below it. -/
theorem Forest.walk_of_root {s : State} (F : Forest s) (C : Covered s) (h1 : s.size = 1#9) :
    ∀ (n : Nat) (x : Handle), Allocated s x → s.nnodes.toNat ≤ n + x.toNat → ∃ p, Walk s (heapAt s 0) p x
  | 0, x, hx, hn => by simp only [Allocated] at hx; omega
  | n + 1, x, hx, hn => by
    rcases C x hx with hl | ⟨p, hp⟩
    · rw [liveHeap_singleton (by simp [h1]), List.mem_singleton] at hl
      subst hl; exact ⟨[], .nil⟩
    · have := F.child_lt hp
      obtain ⟨q, w⟩ := F.walk_of_root C h1 n p hp.1.1 (by omega)
      obtain ⟨hi, b, rfl⟩ := isChild_iff.1 hp
      exact ⟨q ++ [b], w.snoc b hi⟩

theorem Forest.treePath_of_leaf {s : State} (F : Forest s) (C : Covered s) (h1 : s.size = 1#9) {l : Handle} (hl : IsLeaf s l) :
    ∃ p, TreePath s (heapAt s 0) p l := by
  obtain ⟨p, w⟩ := F.walk_of_root C h1 s.nnodes.toNat l hl.1 (by omega)
  exact ⟨p ++ [], w.treePath (.leaf hl.2)⟩

/-- Every leaf of a finished tree has a code after `GEN`. -/
theorem Forest.hasCode_of_leaf {s u : State} {d : Word} (F : Forest s) (C : Covered s) (h : genBody s = .ok (u, d)) {l : Handle}
    (hl : IsLeaf s l) : HasCode u (nodeAt s l).sym := by
  obtain ⟨-, h1, -⟩ := genBody_ok.1 h
  obtain ⟨p, t⟩ := F.treePath_of_leaf C h1 hl
  cases hk : (nodeAt s (heapAt s 0)).kind
  · have hm := leafPaths_of_treePath t (F.root h1).2.2
    have he : genEntries s (heapAt s 0) = leafPaths s 256 (heapAt s 0) := by simp [genEntries, hk]
    have := (F.codeOf_entry h (he ▸ hm)).2
    rw [hasCode_iff, this]
    exact (genEntries_bounds (he ▸ hm : ((nodeAt s l).sym, p) ∈ genEntries s (heapAt s 0))).1
  · cases t with
    | leaf _ =>
      have := (F.codeOf_entry h (b := (nodeAt s (heapAt s 0)).sym) (p := [false]) (by simp [genEntries, hk])).2
      rw [hasCode_iff, this]; simp
    | left hi _ => simp [hk] at hi
    | right hi _ => simp [hk] at hi

end Sys2Proof.Machine
end

