-- ==== Sys2Proof/Laws/Invariant.lean ====
section
/-! SUPPORT. The invariants of 10_state.md rule R35 in three independent parts, and what each part rests on: the forest, the code
table with the bit buffer, and the fault state. -/

namespace Sys2Proof.Machine

/-- Items 9, 10 and 12 of rule R35, and the two conditions on the code table beside them. -/
structure TableInv (s : State) : Prop where
  accBound : s.acc.toNat < 2 ^ s.cnt.toNat
  bufferEmpty : s.codeValid = false → s.cnt = 0#3 ∧ s.acc = 0#8
  codeTable : s.codeValid = true → (∀ b, (clenAt s b).toNat ≤ 256) ∧ PrefixCode s
  noCodes : s.codeValid = false → ∀ b, clenAt s b = 0#9
  codesHeld : ∀ b, (clenAt s b).toNat ≤ (cbitsAt s b).length

theorem inv_iff (s : State) : Invariants s ↔ Forest s ∧ TableInv s ∧ (s.fault = false → s.err = 0#4) := by
  constructor
  · intro h
    exact ⟨h.forest, ⟨h.accBound, h.bufferEmpty, h.codeTable, h.noCodes, h.codesHeld⟩, h.errZero⟩
  · rintro ⟨F, T, he⟩
    have hc := F.counts
    exact
      { counts := ⟨hc.2.2.2.1, F.nextsym, hc.2.2.2.2⟩
        heapOrdered := F.heapOrdered
        heapAllocated := F.heapAllocated
        heapDistinct := F.heapDistinct
        leafRecord := F.leafRecord
        leafDistinct := F.leafDistinct
        internalRecord := F.internalRecord
        childOnce := F.childOnce
        heapNotChild := F.heapNotChild
        weightIsLeafSum := fun h ha => F.weight_eq h.toNat h ha le_rfl
        nodeCounts := ⟨hc.2.1, hc.2.2.1⟩
        accBound := T.accBound
        bufferEmpty := T.bufferEmpty
        errZero := he
        codeTable := T.codeTable
        noCodes := T.noCodes
        codesHeld := T.codesHeld }

theorem Invariants.table {s : State} (h : Invariants s) : TableInv s := ((inv_iff s).1 h).2.1

theorem TableInv.congr {s t : State} (T : TableInv s) (h1 : t.clen = s.clen) (h2 : t.cbits = s.cbits)
    (h3 : t.codeValid = s.codeValid) (h4 : t.acc = s.acc) (h5 : t.cnt = s.cnt) : TableInv t := by
  cases s; cases t
  simp only at h1 h2 h3 h4 h5
  subst h1 h2 h3 h4 h5
  exact ⟨T.accBound, T.bufferEmpty, T.codeTable, T.noCodes, T.codesHeld⟩

/-- No code and an empty buffer. -/
theorem tableInv_of_empty {s : State} (h1 : ∀ b, clenAt s b = 0#9) (h2 : s.codeValid = false) (h3 : s.acc = 0#8)
    (h4 : s.cnt = 0#3) : TableInv s where
  accBound := by simp [h3]
  bufferEmpty := fun _ => ⟨h4, h3⟩
  codeTable := by simp [h2]
  noCodes := fun _ => h1
  codesHeld := by simp [h1]

/-- The state after reset, and after `CLR`. -/
theorem inv_of_resetValues {s : State} (h : ResetValues s) : Invariants s :=
  (inv_iff s).2 ⟨forest_of_empty h.nnodes h.size (by simp [h.nextsym]),
    tableInv_of_empty h.clen h.codeValid h.acc h.cnt, fun _ => h.err⟩

theorem resetValues_clearState (s : State) : ResetValues (clearState s) := by
  constructor <;> first | rfl | (intro b; first | exact freqAt_clearState s b | exact clenAt_clearState s b)

theorem resetValues_resetCore (s : State) : ResetValues (resetCore s) := by
  constructor <;> first | rfl | (intro b; first | exact freqAt_resetCore s b | exact clenAt_resetCore s b)

/-! ## The ends of a command -/

theorem Invariants.congr {s t : State} (I : Invariants s) (h0 : t.freq = s.freq) (h1 : t.node = s.node) (h2 : t.nnodes = s.nnodes)
    (h3 : t.heap = s.heap) (h4 : t.size = s.size) (h5 : t.nextsym = s.nextsym) (h6 : t.clen = s.clen)
    (h7 : t.cbits = s.cbits) (h8 : t.codeValid = s.codeValid) (h9 : t.acc = s.acc) (h10 : t.cnt = s.cnt)
    (h11 : t.fault = false → t.err = 0#4) : Invariants t :=
  (inv_iff t).2 ⟨I.forest.congr h0 h1 h2 h3 h4 h5, I.table.congr h6 h7 h8 h9 h10, h11⟩

theorem Invariants.respond {s : State} (I : Invariants s) (d : Word) : Invariants (respond d s) := by
  refine I.congr rfl rfl rfl rfl rfl rfl rfl rfl rfl rfl rfl I.errZero

theorem Invariants.refuse {s : State} (I : Invariants s) : Invariants (refuse s) := by
  refine I.congr rfl rfl rfl rfl rfl rfl rfl rfl rfl rfl rfl I.errZero

theorem Invariants.raise {s : State} (I : Invariants s) (e : Cause) : Invariants (raise e s) := by
  refine I.congr rfl rfl rfl rfl rfl rfl rfl rfl rfl rfl rfl (by simp)

/-! ## The commands -/

theorem Invariants.ofQueue {s t : State} (I : Invariants s) (h : t = withQueue s t) (F : Forest t) : Invariants t := by
  rw [h] at F ⊢
  exact (inv_iff _).2 ⟨F, I.table.congr rfl rfl rfl rfl rfl, I.errZero⟩

theorem Invariants.count {s : State} (I : Invariants s) (h0 : s.nnodes = 0#9) (b : Byte) (v : Freq) : Invariants (setFreq b v s) := by
  have hc := I.counts
  rw [h0] at hc
  exact (inv_iff _).2 ⟨forest_of_empty h0 (BitVec.eq_of_toNat_eq (by simpa using hc.2.2)) hc.2.1,
    I.table.congr rfl rfl rfl rfl rfl, I.errZero⟩

theorem Invariants.gen {s u : State} {d : Word} (I : Invariants s) (h : genBody s = .ok (u, d)) : Invariants u := by
  obtain ⟨h0, -, -, e, -⟩ := genBody_ok.1 h
  have hu : u = { withTable s u with codeValid := true } := by
    rw [e, writeCodes_frame]; simp [withTable, clearCodes]
  have hv : u.codeValid = true := by rw [hu]
  have hacc : u.acc = s.acc := by rw [hu]; rfl
  have hcnt : u.cnt = s.cnt := by rw [hu]; rfl
  have hf : u.fault = s.fault := by rw [hu]; rfl
  have he : u.err = s.err := by rw [hu]; rfl
  refine (inv_iff _).2 ⟨?_, ⟨?_, by simp [hv], fun _ => ⟨?_, genBody_prefixCode h⟩, by simp [hv], ?_⟩, ?_⟩
  · refine I.forest.congr ?_ ?_ ?_ ?_ ?_ ?_ <;> (rw [hu]; rfl)
  · rw [hacc, hcnt]; exact I.accBound
  · intro b
    rcases genBody_table h b with ⟨-, h⟩ | ⟨p, -, h, -, -, -, hp⟩
    · simp [h]
    · omega
  · intro b
    rcases genBody_table h b with ⟨-, h⟩ | ⟨p, -, h, -, hb, -⟩
    · simp [h]
    · rw [h, hb]
  · rw [hf, he]; exact I.errZero

theorem TableInv.ofBuffer {s t : State} (T : TableInv s) (h : t = withBuffer s t) (h1 : t.acc.toNat < 2 ^ t.cnt.toNat)
    (h2 : s.codeValid = false → t.cnt = 0#3 ∧ t.acc = 0#8) : TableInv t := by
  have e1 : t.clen = s.clen := by rw [h]; rfl
  have e2 : t.cbits = s.cbits := by rw [h]; rfl
  have e3 : t.codeValid = s.codeValid := by rw [h]; rfl
  exact
    { accBound := h1
      bufferEmpty := fun q => h2 (e3 ▸ q)
      codeTable := fun q => by
        have := T.codeTable (e3 ▸ q)
        simp only [PrefixCode, HasCode, clenAt_of_clen_eq e1, codeOf_of_table_eq e1 e2]
        exact this
      noCodes := fun q b => by rw [clenAt_of_clen_eq e1]; exact T.noCodes (e3 ▸ q) b
      codesHeld := fun b => by rw [clenAt_of_clen_eq e1, cbitsAt_of_cbits_eq e2]; exact T.codesHeld b }

theorem Invariants.ofBuffer {s t : State} (I : Invariants s) (h : t = withBuffer s t) (h1 : t.acc.toNat < 2 ^ t.cnt.toNat)
    (h2 : s.codeValid = false → t.cnt = 0#3 ∧ t.acc = 0#8) : Invariants t := by
  refine (inv_iff t).2 ⟨?_, I.table.ofBuffer h h1 h2, ?_⟩
  · refine I.forest.congr ?_ ?_ ?_ ?_ ?_ ?_ <;> (rw [h]; rfl)
  · rw [h]; exact I.errZero

theorem Invariants.enc {s : State} (I : Invariants s) (hv : s.codeValid = true) (cs : List Bool) : Invariants (shiftBits cs s) :=
  I.ofBuffer (shiftBits_frame cs s) (shiftBits_acc cs I.accBound) (by simp [hv])

theorem Invariants.flush {s : State} (I : Invariants s) : Invariants (flushBits s) :=
  I.ofBuffer (flushBits_frame s) (by rw [flushBits_acc I.accBound]; simp) fun _ => ⟨flushBits_cnt s, flushBits_acc I.accBound⟩

theorem Invariants.pqInit {s : State} (I : Invariants s) : Invariants (emptyQueue s) := I.ofQueue rfl (forest_emptyQueue s)

theorem Invariants.leaf {s u : State} {sym : Byte} {d : Word} (I : Invariants s) (h : leafBody sym s = .ok (u, d)) : Invariants u := by
  obtain ⟨h1, h2, x, e, -⟩ := leafBody_ok.1 h
  exact I.ofQueue (leafStep_frame e) (I.forest.leafStep h1 h2 e)

theorem Invariants.pqExt {s u : State} {d : Word} (I : Invariants s) (h : pqExtBody s = .ok (u, d)) : Invariants u := by
  obtain ⟨m, e, -⟩ := pqExtBody_ok.1 h
  refine I.ofQueue ?_ (I.forest.extract e)
  obtain ⟨-, -, rfl⟩ := pqExtractMin_ok.1 e
  rfl

theorem Invariants.merge {s u : State} {d : Word} (I : Invariants s) (h : mergeBody s = .ok (u, d)) : Invariants u := by
  obtain ⟨-, p, e, -⟩ := mergeBody_ok.1 h
  exact I.ofQueue (mergeStep_frame e) (I.forest.mergeStep e)

theorem Invariants.build {s u : State} {d : Word} (I : Invariants s) (h : buildBody s = .ok (u, d)) : Invariants u := by
  obtain ⟨hp, -⟩ := buildBody_ok.1 h
  obtain ⟨t, e, hq, F, -⟩ := buildBody_spec hp
  rw [e] at h
  cases h
  exact I.ofQueue hq F

/-- A command that completes keeps the invariants. -/
theorem Invariants.body {i : Instr} {s u : State} {d : Word} (I : Invariants s) (h : body i s = .ok (u, d)) : Invariants u := by
  cases i <;> simp only [Machine.body] at h
  case nop => cases h; exact I
  case count sym => obtain ⟨h0, -, rfl, -⟩ := countBody_ok.1 h; exact I.count h0 _ _
  case build => exact I.build h
  case gen => exact I.gen h
  case enc sym => obtain ⟨hv, -, rfl, -⟩ := encBody_ok.1 h; exact I.enc hv _
  case flush => cases h; exact I.flush
  case pqInit => cases h; exact I.pqInit
  case leaf sym => exact I.leaf h
  case pqExt => exact I.pqExt h
  case merge => exact I.merge h
  all_goals cases h

/-- Every command keeps the invariants. -/
theorem Invariants.exec {i : Instr} {s t : State} (I : Invariants s) (h : exec i s = .next t) : Invariants t := by
  rcases exec_cases h with ⟨rfl, rfl⟩ | ⟨h0, -, rfl⟩ | ⟨h0, e, rfl⟩ | ⟨-, -, d, -, rfl⟩ | ⟨-, -, h0, u, d, hb, rfl⟩
  · exact (inv_of_resetValues (resetValues_clearState s)).respond _
  · exact I.refuse
  · exact I.raise e
  · exact I.respond d
  · exact (I.body hb).respond d

/-- A run of commands keeps the invariants. -/
theorem Invariants.execAll : ∀ {is : List Instr} {s t : State}, Invariants s → execAll is s = .next t → Invariants t
  | [], s, t, I, h => by cases h; exact I
  | i :: is, s, t, I, h => by
    obtain ⟨u, hu⟩ := exec_next i s
    simp only [Machine.execAll, hu] at h
    exact (I.exec hu).execAll h

end Sys2Proof.Machine
end

