-- ==== Sys2Proof/Laws/Runs.lean ====
section
/-! SUPPORT. Runs of commands: of `COUNT` (40_control_freq.md rule R103), of `LEAF` and `MERGE` (42_tree_builder.md rule R132), and
of `ENC` (44_bit_packer.md rule R153). -/

namespace Sys2Proof.Machine

/-! ## execAll -/

theorem execAll_cons_next {i : Instr} {is : List Instr} {s t : State} (h : exec i s = .next t) :
    execAll (i :: is) s = execAll is t := by
  simp [execAll, h]

theorem execAll_append_next : ∀ {is : List Instr} {js : List Instr} {s t : State}, execAll is s = .next t →
    execAll (is ++ js) s = execAll js t
  | [], _, _, _, h => by cases h; rfl
  | i :: is, js, s, t, h => by
    obtain ⟨u, hu⟩ := exec_next i s
    rw [execAll_cons_next hu] at h
    rw [List.cons_append, execAll_cons_next hu]
    exact execAll_append_next h

theorem execAll_next : ∀ (is : List Instr) (s : State), ∃ t, execAll is s = .next t
  | [], s => ⟨s, rfl⟩
  | i :: is, s => by
    obtain ⟨u, hu⟩ := exec_next i s
    rw [execAll_cons_next hu]
    exact execAll_next is u

/-- A faulted core stays faulted unless the command is `CLR` (60_exceptions.md rule R176). -/
theorem fault_of_faulted {i : Instr} {s t : State} (hc : i ≠ .clr) (hf : s.fault = true) (h : exec i s = .next t) :
    t.fault = true := by
  rcases exec_cases h with ⟨rfl, -⟩ | ⟨-, -, rfl⟩ | ⟨h0, -⟩ | ⟨-, -, d, -, rfl⟩ | ⟨-, -, h0, -⟩
  · exact absurd rfl hc
  · exact hf
  · simp [hf] at h0
  · exact hf
  · simp [hf] at h0

/-! ## COUNT -/

theorem exec_count {s : State} {b : Byte} (hf : s.fault = false) (hn : s.nnodes = 0#9)
    (hm : freqAt s b ≠ Config.freqMax) :
    exec (.count b) s = .next (respond 0#32 (setFreq b (freqAt s b + 1#32) s)) := by
  rw [exec_command rfl (by simp)]
  have : countBody b s = .ok (setFreq b (freqAt s b + 1#32) s, 0#32) := countBody_ok.2 ⟨hn, hm, rfl, rfl⟩
  simp only [body, this]
  exact command_ok hf

theorem count_increment {s : State} {b : Byte} (hm : freqAt s b ≠ Config.freqMax) :
    (freqAt s b + 1#32).toNat = (freqAt s b).toNat + 1 := by
  have := (freqAt s b).isLt
  have h : (freqAt s b).toNat ≠ 0xFFFFFFFF := fun q => hm (BitVec.eq_of_toNat_eq (by simpa using q))
  rw [BitVec.toNat_add]; simp; omega

theorem execAll_counts : ∀ (syms : List Byte) (s : State), s.fault = false → s.nnodes = 0#9 →
    (∀ b, (freqAt s b).toNat + syms.count b < 2 ^ 32) →
    ∃ t, execAll (syms.map .count) s = .next t ∧
      t = { s with freq := t.freq, rsp := s.rsp ++ List.replicate syms.length ⟨false, 0#32⟩ } ∧
      ∀ b, (freqAt t b).toNat = (freqAt s b).toNat + syms.count b
  | [], s, _, _, _ => ⟨s, rfl, by simp, by simp⟩
  | a :: syms, s, hf, hn, hb => by
    have hm : freqAt s a ≠ Config.freqMax := by
      intro q
      have := hb a
      rw [q, List.count_cons_self] at this
      simp at this; omega
    have e := exec_count hf hn hm
    have hq : ∀ b, (freqAt (respond 0#32 (setFreq a (freqAt s a + 1#32) s)) b).toNat =
        (freqAt s b).toNat + if a = b then 1 else 0 := by
      intro b
      have : freqAt (respond 0#32 (setFreq a (freqAt s a + 1#32) s)) b = freqAt (setFreq a (freqAt s a + 1#32) s) b := rfl
      rw [this, freqAt_setFreq]
      by_cases h : b = a
      · subst h; rw [if_pos rfl, if_pos rfl, count_increment hm]
      · rw [if_neg h, if_neg (Ne.symm h), Nat.add_zero]
    obtain ⟨t, e1, e2, e3⟩ := execAll_counts syms (respond 0#32 (setFreq a (freqAt s a + 1#32) s)) hf hn fun b => by
      have := hb b
      rw [List.count_cons] at this
      rw [hq]
      by_cases h : a = b <;> simp [h] at this ⊢ <;> omega
    refine ⟨t, ?_, ?_, ?_⟩
    · rw [List.map_cons, execAll_cons_next e, e1]
    · rw [e2]
      simp [setFreq, respond, List.replicate_succ]
    · intro b
      rw [e3, hq, List.count_cons]
      by_cases h : a = b <;> simp [h]; omega

/-- A command that counts no byte value and is not `CLR` leaves FREQ as it is (10_state.md rule R22). -/
theorem exec_freq_frame {i : Instr} {s t : State} (hc : i ≠ .clr) (hn : i.counted = none) (h : exec i s = .next t) :
    t.freq = s.freq := by
  rcases exec_cases h with ⟨rfl, -⟩ | ⟨-, -, rfl⟩ | ⟨-, e, rfl⟩ | ⟨-, -, d, -, rfl⟩ | ⟨-, -, -, u, d, hb, rfl⟩
  · exact absurd rfl hc
  · rfl
  · rfl
  · rfl
  · obtain ⟨-, -, -, -, hq | ⟨b, rfl⟩, -⟩ := body_frame hb
    · exact hq
    · simp [Instr.counted] at hn

theorem execAll_freq_frame : ∀ {is : List Instr} {s t : State}, .clr ∉ is → countedSyms is = [] → execAll is s = .next t →
    t.freq = s.freq
  | [], s, t, _, _, h => by cases h; rfl
  | i :: is, s, t, hc, hn, h => by
    obtain ⟨u, hu⟩ := exec_next i s
    rw [execAll_cons_next hu] at h
    have hi : i.counted = none := by
      cases q : i.counted with
      | none => rfl
      | some b => simp [countedSyms, q] at hn
    have ht : countedSyms is = [] := by simpa [countedSyms, hi] using hn
    rw [execAll_freq_frame (fun q => hc (List.mem_cons_of_mem _ q)) ht h, exec_freq_frame (fun q => hc (by simp [q])) hi hu]

/-- A command that is not `CLR` and after which FAULT = 0 found FAULT = 0 and, if it is a `COUNT`, incremented its entry. -/
theorem exec_counted {i : Instr} {s t : State} (hc : i ≠ .clr) (h : exec i s = .next t) (hf : t.fault = false) :
    s.fault = false ∧ ∀ b, (freqAt t b).toNat = (freqAt s b).toNat + if i.counted = some b then 1 else 0 := by
  have sf : s.fault = false := by
    by_contra q
    have := fault_of_faulted hc (by simpa using q) h
    simp [hf] at this
  refine ⟨sf, fun b => ?_⟩
  cases hi : i.counted with
  | none => simp [freqAt, exec_freq_frame hc hi h]
  | some a =>
    obtain rfl : i = .count a := by cases i <;> simp_all [Instr.counted]
    rw [exec_command rfl hc] at h
    rcases command_cases h with ⟨q, -⟩ | ⟨-, v, d, hb, rfl⟩ | ⟨-, e, -, rfl⟩
    · simp [sf] at q
    · obtain ⟨-, hm, rfl, -⟩ := countBody_ok.1 hb
      have : freqAt (respond d (setFreq a (freqAt s a + 1#32) s)) b = freqAt (setFreq a (freqAt s a + 1#32) s) b := rfl
      rw [this, freqAt_setFreq]
      by_cases q : b = a
      · subst q; rw [if_pos rfl, if_pos rfl, count_increment hm]
      · rw [if_neg q, if_neg (by simpa using Ne.symm q), Nat.add_zero]
    · simp at hf

/-- The sum law for a run without `CLR` after which FAULT = 0 (40_control_freq.md rule R103). -/
theorem execAll_counted : ∀ (is : List Instr) (s t : State), .clr ∉ is → execAll is s = .next t →
    t.fault = false → s.fault = false ∧ ∀ b, (freqAt t b).toNat = (freqAt s b).toNat + (countedSyms is).count b
  | [], s, t, _, h, hf => by cases h; exact ⟨hf, by simp [countedSyms]⟩
  | i :: is, s, t, hc, h, hf => by
    obtain ⟨u, hu⟩ := exec_next i s
    rw [execAll_cons_next hu] at h
    obtain ⟨uf, ih⟩ := execAll_counted is u t (fun q => hc (List.mem_cons_of_mem _ q)) h hf
    obtain ⟨sf, h1⟩ := exec_counted (fun q => hc (by simp [q])) hu uf
    refine ⟨sf, fun b => ?_⟩
    rw [ih, h1]
    cases q : i.counted with
    | none => simp [countedSyms, q]
    | some a =>
      simp only [countedSyms, List.filterMap_cons, q, List.count_cons, Option.some.injEq, beq_iff_eq]
      omega

theorem sum_count (syms : List Byte) : (allSyms.map fun b => syms.count b).sum = syms.length := by
  induction syms with
  | nil => generalize allSyms = l; induction l <;> simp_all
  | cons a syms ih =>
    have : (allSyms.map fun b => (a :: syms).count b) =
        allSyms.map fun b => syms.count b + if a == b then 1 else 0 :=
      List.map_congr_left fun b _ => by rw [List.count_cons]
    have h1 : (allSyms.map fun b => if a == b then 1 else 0).sum = allSyms.count a := by
      generalize allSyms = l
      induction l with
      | nil => rfl
      | cons c l ih => rw [List.map_cons, List.sum_cons, ih, List.count_cons, Nat.add_comm, BEq.comm]
    rw [this, List.sum_map_add, ih, List.length_cons, h1, List.count_eq_one_of_mem nodup_allSyms (mem_allSyms a)]

/-! ## BUILD as a run of unit-level commands -/

theorem leafStep_rsp {b : Byte} {s t : State} {h : Handle} (e : leafStep b s = .ok (t, h)) (r : List Response) :
    leafStep b { s with rsp := r } = .ok ({ t with rsp := r }, h) := by
  simp only [leafStep, except_bind_ok, except_pure, Except.ok.injEq, Prod.mk.injEq] at e ⊢
  obtain ⟨⟨u, h'⟩, ha, v, hi, rfl, rfl⟩ := e
  obtain ⟨h1, rfl, rfl⟩ := nodeAlloc_ok.1 ha
  obtain ⟨h2, rfl⟩ := pqInsert_ok.1 hi
  exact ⟨⟨_, _⟩, nodeAlloc_ok.2 ⟨h1, rfl, rfl⟩, _, pqInsert_ok.2 ⟨h2, rfl⟩, rfl, rfl⟩

theorem mergeStep_rsp {s t : State} {p : Handle} (e : mergeStep s = .ok (t, p)) (r : List Response) :
    mergeStep { s with rsp := r } = .ok ({ t with rsp := r }, p) := by
  simp only [mergeStep, except_bind_ok, except_pure, Except.ok.injEq, Prod.mk.injEq] at e ⊢
  obtain ⟨⟨a, l⟩, ea, ⟨b, x⟩, eb, ⟨c, q⟩, ec, d, ed, rfl, rfl⟩ := e
  obtain ⟨h1, rfl, rfl⟩ := pqExtractMin_ok.1 ea
  obtain ⟨h2, rfl, rfl⟩ := pqExtractMin_ok.1 eb
  obtain ⟨h3, rfl, rfl⟩ := nodeAlloc_ok.1 ec
  obtain ⟨h4, rfl⟩ := pqInsert_ok.1 ed
  exact ⟨⟨_, _⟩, pqExtractMin_ok.2 ⟨h1, rfl, rfl⟩, ⟨_, _⟩, pqExtractMin_ok.2 ⟨h2, rfl, rfl⟩, ⟨_, _⟩,
    nodeAlloc_ok.2 ⟨h3, rfl, rfl⟩, _, pqInsert_ok.2 ⟨h4, rfl⟩, rfl, rfl⟩

theorem exec_leaf {b : Byte} {s t : State} {h : Handle} (hf : s.fault = false) (h1 : s.nextsym.toNat ≤ b.toNat)
    (h2 : freqAt s b ≠ 0#32) (e : leafStep b s = .ok (t, h)) : exec (.leaf b) s = .next (respond (h.setWidth 32) t) := by
  rw [exec_command rfl (by simp)]
  have : leafBody b s = .ok (t, h.setWidth 32) := leafBody_ok.2 ⟨h1, h2, h, e, rfl⟩
  simp only [body, this]
  exact command_ok hf

theorem exec_merge {s t : State} {p : Handle} (hf : s.fault = false) (h1 : 2 ≤ s.size.toNat)
    (e : mergeStep s = .ok (t, p)) : exec .merge s = .next (respond (p.setWidth 32) t) := by
  rw [exec_command rfl (by simp)]
  have : mergeBody s = .ok (t, p.setWidth 32) := mergeBody_ok.2 ⟨h1, p, e, rfl⟩
  simp only [body, this]
  exact command_ok hf

theorem execAll_leaves : ∀ (bs : List Byte) (s t : State) (r : List Response), buildLeaves bs s = .ok t → s.fault = false →
    bs.Pairwise (fun a b => a.toNat < b.toNat) → (∀ b ∈ bs, s.nextsym.toNat ≤ b.toNat) →
    ∃ r', execAll ((bs.filter fun b => freqAt s b ≠ 0#32).map .leaf) { s with rsp := r } = .next { t with rsp := r' }
  | [], s, t, r, e, _, _, _ => by cases e; exact ⟨r, rfl⟩
  | b :: bs, s, t, r, e, hf, hp, hb => by
    rw [List.pairwise_cons] at hp
    simp only [buildLeaves] at e
    by_cases h0 : freqAt s b = 0#32
    · rw [if_pos h0] at e
      rw [List.filter_cons_of_neg (by simp [h0])]
      exact execAll_leaves bs s t r e hf hp.2 fun c hc => hb c (List.mem_cons_of_mem _ hc)
    · rw [if_neg h0] at e
      obtain ⟨⟨u, h⟩, e1, e2⟩ := except_bind_ok.1 e
      obtain ⟨-, -, -, -, -, g6, g7, -⟩ := leafStep_spec e1
      have nx : u.nextsym.toNat = b.toNat + 1 := by
        have := b.isLt
        rw [g6, BitVec.toNat_add, BitVec.toNat_setWidth]; simp; omega
      have fr : freqAt u = freqAt s := funext fun c => freqAt_of_freq_eq (by rw [g7]) c
      rw [List.filter_cons_of_pos (by simp [h0]), List.map_cons]
      have ex := exec_leaf (s := { s with rsp := r }) hf (hb b List.mem_cons_self) h0 (leafStep_rsp e1 r)
      rw [execAll_cons_next ex]
      obtain ⟨r', ih⟩ := execAll_leaves bs u t (r ++ [⟨false, h.setWidth 32⟩]) e2 (by rw [g7]; exact hf) hp.2
        fun c hc => by have := hp.1 c hc; omega
      rw [fr] at ih
      exact ⟨r', ih⟩

theorem execAll_merges : ∀ (n : Nat) (s t : State) (r : List Response), Forest s → mergeLoop n s = .ok t → s.fault = false →
    s.size.toNat ≤ n + 1 →
    ∃ r', execAll (List.replicate (s.size.toNat - 1) .merge) { s with rsp := r } = .next { t with rsp := r' }
  | 0, s, t, r, _, e, _, hn => by
    cases e
    rw [show s.size.toNat - 1 = 0 by omega]
    exact ⟨r, rfl⟩
  | n + 1, s, t, r, F, e, hf, hn => by
    simp only [mergeLoop] at e
    by_cases h2 : 1 < s.size.toNat
    · rw [if_pos h2] at e
      obtain ⟨⟨u, p⟩, e1, e2⟩ := except_bind_ok.1 e
      obtain ⟨-, -, -, -, -, -, -, g5, g6, -⟩ := mergeStep_spec e1 F.counts.2.2.2.1
      have ex := exec_merge (s := { s with rsp := r }) hf h2 (mergeStep_rsp e1 r)
      rw [show s.size.toNat - 1 = (u.size.toNat - 1) + 1 by omega, List.replicate_succ, execAll_cons_next ex]
      exact execAll_merges n u t (r ++ [⟨false, p.setWidth 32⟩]) (F.mergeStep e1) e2 (by rw [g6]; exact hf) (by omega)
    · rw [if_neg h2] at e
      cases e
      rw [show s.size.toNat - 1 = 0 by omega]
      exact ⟨r, rfl⟩

theorem exec_build {s t : State} {d : Word} (hf : s.fault = false) (e : buildBody s = .ok (t, d)) :
    exec .build s = .next (respond d t) := by
  rw [exec_command rfl (by simp)]
  simp only [body, e]
  exact command_ok hf

theorem exec_gen {s t : State} {d : Word} (hf : s.fault = false) (e : genBody s = .ok (t, d)) :
    exec .gen s = .next (respond d t) := by
  rw [exec_command rfl (by simp)]
  simp only [body, e]
  exact command_ok hf

/-- The run of rule R132 ends where `BUILD` ends, up to the responses. -/
theorem execAll_buildSequence {s t : State} {d : Word} (hf : s.fault = false) (e : buildBody s = .ok (t, d)) :
    ∃ r, execAll ([.pqInit] ++ (presentSyms s).map .leaf ++ List.replicate ((presentSyms s).length - 1) .merge) s =
      .next { t with rsp := r } := by
  obtain ⟨hp, v, e1, e2, -⟩ := buildBody_ok.1 e
  obtain ⟨u, e3, F, -, hn, r1, -⟩ := (forest_emptyQueue s).buildLeaves allSyms _ (covered_emptyQueue s) rfl
    pairwise_allSyms (fun _ _ => by simp [emptyQueue])
  rw [e1] at e3
  cases e3
  have n0 : (emptyQueue s).nnodes.toNat = 0 := rfl
  have hps : (allSyms.filter fun b => freqAt (emptyQueue s) b ≠ 0#32) = presentSyms s := rfl
  rw [hps, n0] at r1
  have ef : (emptyQueue s).fault = false := hf
  have vf : v.fault = false := by rw [buildLeaves_frame e1]; exact hf
  have x1 : execAll [.pqInit] s = .next { emptyQueue s with rsp := s.rsp ++ [⟨false, 0#32⟩] } := by
    simp [execAll, exec, execPqInit, command, hf, complete, respond, emptyQueue]
  obtain ⟨r', x2⟩ := execAll_leaves allSyms (emptyQueue s) v (s.rsp ++ [⟨false, 0#32⟩]) e1 ef pairwise_allSyms
    (fun _ _ => by simp [emptyQueue])
  obtain ⟨r'', x3⟩ := execAll_merges v.size.toNat v t r' F e2 vf (by omega)
  rw [hps] at x2
  rw [show (presentSyms s).length - 1 = v.size.toNat - 1 by omega, List.append_assoc, execAll_append_next x1,
    execAll_append_next x2]
  exact ⟨r'', x3⟩

/-! ## ENC and FLUSH -/

theorem exec_enc {s : State} {b : Byte} (hf : s.fault = false) (hv : s.codeValid = true) (hb : HasCode s b) :
    exec (.enc b) s = .next (respond 0#32 (shiftBits (codeOf s b) s)) := by
  rw [exec_command rfl (by simp)]
  have : encBody b s = .ok (shiftBits (codeOf s b) s, 0#32) := encBody_ok.2 ⟨hv, hb, rfl, rfl⟩
  simp only [body, this]
  exact command_ok hf

theorem exec_flush {s : State} (hf : s.fault = false) : exec .flush s = .next (respond 0#32 (flushBits s)) := by
  rw [exec_command rfl (by simp)]
  exact command_ok hf

theorem execAll_encs : ∀ (syms : List Byte) (s : State), s.fault = false → s.codeValid = true → (∀ b ∈ syms, HasCode s b) →
    ∃ t, execAll (syms.map .enc) s = .next t ∧
      t = { s with acc := t.acc, cnt := t.cnt, out := t.out, rsp := s.rsp ++ List.replicate syms.length ⟨false, 0#32⟩ } ∧
      streamBits t.out ++ pendingBits t = streamBits s.out ++ pendingBits s ++ codeBits s syms ∧
      (∃ bs, t.out = s.out ++ bs) ∧ t.cnt.toNat = (s.cnt.toNat + (codeBits s syms).length) % 8
  | [], s, _, _, _ => by
    refine ⟨s, rfl, by simp, by simp [codeBits], ⟨[], by simp⟩, ?_⟩
    have := s.cnt.isLt
    simp [codeBits]; omega
  | a :: syms, s, hf, hv, hb => by
    have e := exec_enc hf hv (hb a List.mem_cons_self)
    have fr := shiftBits_frame (codeOf s a) s
    generalize hu : shiftBits (codeOf s a) s = u at *
    have hco : ∀ b, codeOf (respond 0#32 u) b = codeOf s b :=
      fun b => codeOf_of_table_eq (by rw [respond_clen, fr]; rfl) (by rw [respond_cbits, fr]; rfl) b
    have hcl : ∀ b, clenAt (respond 0#32 u) b = clenAt s b := fun b => clenAt_of_clen_eq (by rw [respond_clen, fr]; rfl) b
    have hcb : codeBits (respond 0#32 u) syms = codeBits s syms := by simp [codeBits, funext hco]
    have hst := shiftBits_stream (codeOf s a) s
    obtain ⟨bs, hbs, -⟩ := shiftBits_out (codeOf s a) s
    have hcn := shiftBits_cnt (codeOf s a) s
    rw [hu] at hst hbs hcn
    obtain ⟨t, e1, e2, e3, ⟨cs, e4⟩, e5⟩ := execAll_encs syms (respond 0#32 u) (by rw [respond_fault, fr]; exact hf)
      (by rw [respond_codeValid, fr]; exact hv) fun b hm => by
        unfold HasCode; rw [hcl]; exact hb b (List.mem_cons_of_mem _ hm)
    rw [hcb] at e3 e5
    have hpu : pendingBits (respond 0#32 u) = pendingBits u := rfl
    have hcons : codeBits s (a :: syms) = codeOf s a ++ codeBits s syms := by simp [codeBits]
    refine ⟨t, ?_, ?_, ?_, ⟨bs ++ cs, ?_⟩, ?_⟩
    · rw [List.map_cons, execAll_cons_next e, e1]
    · rw [e2, fr]
      simp [respond, withBuffer, List.replicate_succ]
    · rw [e3, hpu, respond_out, hst, hcons]; simp
    · rw [e4, respond_out, hbs, List.append_assoc]
    · rw [e5, respond_cnt, hcn, hcons, List.length_append]; omega

/-- A whole output stream (rule R153). -/
theorem execAll_stream {syms : List Byte} {s : State} (h0 : s.cnt = 0#3) (hf : s.fault = false) (hv : s.codeValid = true)
    (hb : ∀ b ∈ syms, HasCode s b) :
    ∃ t bs, execAll (syms.map .enc ++ [.flush]) s = .next t ∧ t.out = s.out ++ bs ∧
      t = { s with acc := t.acc, cnt := t.cnt, out := t.out, rsp := s.rsp ++ List.replicate (syms.length + 1) ⟨false, 0#32⟩ } ∧
      t.cnt = 0#3 ∧
      streamBits bs = codeBits s syms ++ List.replicate ((8 - (codeBits s syms).length % 8) % 8) false ∧
      bs.length = ((codeBits s syms).length + 7) / 8 := by
  obtain ⟨u, e1, e2, e3, ⟨bs, e4⟩, e5⟩ := execAll_encs syms s hf hv hb
  have uf : u.fault = false := by rw [e2]; exact hf
  have ex := exec_flush uf
  obtain ⟨cs, f1, -⟩ := flushBits_out u
  have fs := flushBits_stream u
  have fc := flushBits_cnt u
  have ff := flushBits_frame u
  generalize flushBits u = v at *
  have p0 : pendingBits s = [] := by simp [pendingBits, h0]
  have hout : v.out = s.out ++ (bs ++ cs) := by rw [f1, e4, List.append_assoc]
  have hstream : streamBits (bs ++ cs) =
      codeBits s syms ++ List.replicate ((8 - (codeBits s syms).length % 8) % 8) false := by
    rw [hout, streamBits_append, e3, p0, e5, h0] at fs
    simpa using fs
  refine ⟨respond 0#32 v, bs ++ cs, ?_, hout, ?_, fc, hstream, ?_⟩
  · rw [execAll_append_next e1]
    simp [execAll, ex]
  · rw [ff, e2]
    simp [respond, withBuffer, List.replicate_succ']
  · have := congrArg List.length hstream
    rw [length_streamBits, List.length_append (as := codeBits s syms), List.length_replicate] at this
    omega

end Sys2Proof.Machine
end

