-- ==== Sys2Proof/Laws/DeadStorage.lean ====
section
/-! SUPPORT. Nothing a command does depends on dead storage (10_state.md rule R36): states that agree on the live ranges stay so. -/

namespace Sys2Proof.Machine

/-! ## The sift loops look at live entries alone -/

/-- Two heap arrays agree on the first n positions, and the two weights agree on the entries there. -/
def SameEntries (n : Nat) (w w' : Handle → Weight) (a a' : Vector Handle 256) : Prop :=
  ∀ k, k < n → heapGet a k = heapGet a' k ∧ w (heapGet a k) = w' (heapGet a k)

theorem SameEntries.swap {n : Nat} {w w' : Handle → Weight} {a a' : Vector Handle 256} (h : SameEntries n w w' a a')
    (hn : n ≤ 256) {i j : Nat} (hi : i < n) (hj : j < n) : SameEntries n w w' (heapSwap a i j) (heapSwap a' i j) := by
  intro k hk
  rw [heapGet_heapSwap (by omega) (by omega), heapGet_heapSwap (by omega) (by omega)]
  split_ifs
  · exact h i hi
  · exact h j hj
  · exact h k hk

theorem SameEntries.siftUp {w w' : Handle → Weight} {n : Nat} (hn : n ≤ 256) : ∀ (fuel : Nat) {a a' : Vector Handle 256}
    {i : Nat}, SameEntries n w w' a a' → i < n → SameEntries n w w' (siftUp w fuel a i) (siftUp w' fuel a' i)
  | 0, a, a', i, h, _ => h
  | fuel + 1, a, a', i, h, hi => by
    simp only [Machine.siftUp]
    by_cases h0 : i = 0
    · rw [if_pos h0, if_pos h0]; exact h
    · rw [if_neg h0, if_neg h0]
      have h1 := h i hi
      have h2 := h ((i - 1) / 2) (by omega)
      rw [← h1.1, ← h2.1, ← h1.2, ← h2.2]
      split_ifs
      · exact (h.swap hn hi (by omega)).siftUp hn fuel (by omega)
      · exact h

theorem SameEntries.siftChoice {w w' : Handle → Weight} {n : Nat} {a a' : Vector Handle 256} (h : SameEntries n w w' a a')
    {i : Nat} (hi : i < n) : siftChoice w n a i = siftChoice w' n a' i := by
  have e : ∀ k, k < n → w (heapGet a k) = w' (heapGet a' k) := fun k hk => by rw [← (h k hk).1, (h k hk).2]
  have c1 : (2 * i + 1 < n ∧ w (heapGet a (2 * i + 1)) < w (heapGet a i)) ↔
      (2 * i + 1 < n ∧ w' (heapGet a' (2 * i + 1)) < w' (heapGet a' i)) :=
    and_congr_right fun hl => by rw [e _ hl, e _ hi]
  have hs : (if 2 * i + 1 < n ∧ w (heapGet a (2 * i + 1)) < w (heapGet a i) then 2 * i + 1 else i) =
      if 2 * i + 1 < n ∧ w' (heapGet a' (2 * i + 1)) < w' (heapGet a' i) then 2 * i + 1 else i := by simp only [c1]
  have hb : (if 2 * i + 1 < n ∧ w' (heapGet a' (2 * i + 1)) < w' (heapGet a' i) then 2 * i + 1 else i) < n := by
    split_ifs with q
    · exact q.1
    · exact hi
  simp only [Machine.siftChoice, hs]
  generalize (if 2 * i + 1 < n ∧ w' (heapGet a' (2 * i + 1)) < w' (heapGet a' i) then 2 * i + 1 else i) = m at *
  have c2 : (2 * i + 2 < n ∧ w (heapGet a (2 * i + 2)) < w (heapGet a m)) ↔
      (2 * i + 2 < n ∧ w' (heapGet a' (2 * i + 2)) < w' (heapGet a' m)) :=
    and_congr_right fun hl => by rw [e _ hl, e _ hb]
  simp only [c2]

theorem SameEntries.siftDown {w w' : Handle → Weight} {n : Nat} (hn : n ≤ 256) : ∀ (fuel : Nat) {a a' : Vector Handle 256}
    {i : Nat}, SameEntries n w w' a a' → i < n → SameEntries n w w' (siftDown w n fuel a i) (siftDown w' n fuel a' i)
  | 0, a, a', i, h, _ => h
  | fuel + 1, a, a', i, h, hi => by
    simp only [Machine.siftDown]
    rw [← h.siftChoice hi]
    by_cases h0 : Machine.siftChoice w n a i = i
    · rw [if_pos h0, if_pos h0]; exact h
    · rw [if_neg h0, if_neg h0]
      have hc := siftChoice_cases w n a i
      have hcn : Machine.siftChoice w n a i < n := by rcases hc with q | ⟨q, q'⟩ | ⟨q, q'⟩ <;> omega
      exact (h.swap hn hi hcn).siftDown hn fuel hcn

/-! ## The queue's operations -/

/-- s and t agree on the live parts of the queue and the arena. -/
structure SameQueue (s t : State) : Prop where
  nnodes : s.nnodes = t.nnodes
  node   : ∀ h, Allocated s h → nodeAt s h = nodeAt t h
  size   : s.size = t.size
  heap   : ∀ i, i < s.size.toNat → heapAt s i = heapAt t i

theorem SameQueue.wt {s t : State} (Q : SameQueue s t) {h : Handle} (ha : Allocated s h) : wt s h = wt t h := by
  simp [Machine.wt, Q.node h ha]

theorem SameLive.queue {s t : State} (L : SameLive s t) : SameQueue s t := ⟨L.nnodes, L.node, L.size, L.heap⟩

theorem SameQueue.nodeAlloc {s t u : State} {n : Node} {h : Handle} (Q : SameQueue s t)
    (e : Machine.nodeAlloc n s = .ok (u, h)) : ∃ u', Machine.nodeAlloc n t = .ok (u', h) ∧ SameQueue u u' := by
  obtain ⟨h1, rfl, -⟩ := nodeAlloc_ok.1 e
  obtain ⟨u', e'⟩ := nodeAlloc_completes n (s := t) (by rw [← Q.nnodes]; exact h1)
  obtain ⟨-, -, g3, g4, g5, g6⟩ := nodeAlloc_spec e
  obtain ⟨-, -, g3', g4', g5', g6'⟩ := nodeAlloc_spec e'
  refine ⟨u', by rw [e', Q.nnodes], ⟨BitVec.eq_of_toNat_eq (by rw [g3, g3', Q.nnodes]), ?_, ?_, ?_⟩⟩
  · intro x hx
    by_cases hxn : x = s.nnodes
    · subst hxn; rw [g5, Q.nnodes, g5']
    · rw [g6 x hxn, g6' x (by rw [← Q.nnodes]; exact hxn)]
      refine Q.node x ?_
      simp only [Allocated] at hx ⊢
      have : x.toNat ≠ s.nnodes.toNat := fun q => hxn (BitVec.eq_of_toNat_eq q)
      omega
  · rw [g4, g4']; exact Q.size
  · intro i hi
    have e1 : u.size = s.size := by rw [g4]
    rw [heapAt_of_heap_eq (by rw [g4] : u.heap = s.heap), heapAt_of_heap_eq (by rw [g4'] : u'.heap = t.heap)]
    exact Q.heap i (e1 ▸ hi)

theorem SameQueue.pqInsert {s t u : State} {h : Handle} (Q : SameQueue s t) (hal : HeapAllocated s) (ha : Allocated s h)
    (e : Machine.pqInsert h s = .ok u) : ∃ u', Machine.pqInsert h t = .ok u' ∧ SameQueue u u' := by
  obtain ⟨h1, rfl⟩ := pqInsert_ok.1 e
  refine ⟨_, pqInsert_ok.2 ⟨by rw [← Q.size]; exact h1, rfl⟩, ⟨Q.nnodes, Q.node, by simp [Q.size], ?_⟩⟩
  intro i hi
  have hsz : (s.size + 1#9).toNat = s.size.toNat + 1 := by rw [BitVec.toNat_add]; simp; omega
  simp only [hsz] at hi
  rw [← Q.size]
  refine (SameEntries.siftUp (n := s.size.toNat + 1) (by omega) _ ?_ (by omega) i hi).1
  intro k hk
  rw [heapGet_heapSet h1, heapGet_heapSet h1]
  split_ifs with hks
  · exact ⟨rfl, Q.wt ha⟩
  · have hk' : k < s.size.toNat := by omega
    exact ⟨Q.heap k hk', Q.wt (hal k hk')⟩

theorem SameQueue.pqExtractMin {s t u : State} {m : Handle} (Q : SameQueue s t) (hal : HeapAllocated s)
    (hs : s.size.toNat ≤ 256) (e : Machine.pqExtractMin s = .ok (u, m)) :
    ∃ u', Machine.pqExtractMin t = .ok (u', m) ∧ SameQueue u u' := by
  obtain ⟨h1, rfl, rfl⟩ := pqExtractMin_ok.1 e
  refine ⟨_, pqExtractMin_ok.2 ⟨by rw [← Q.size]; exact h1, Q.heap 0 (by omega), rfl⟩,
    ⟨Q.nnodes, Q.node, by simp [Q.size], ?_⟩⟩
  intro i hi
  have hsz : (s.size - 1#9).toNat = s.size.toNat - 1 := by rw [BitVec.toNat_sub]; simp; omega
  simp only [hsz] at hi
  rw [← Q.size]
  refine (SameEntries.siftDown (n := s.size.toNat - 1) (by omega) _ ?_ (by omega) i hi).1
  intro k hk
  rw [heapGet_heapSet (by omega), heapGet_heapSet (by omega)]
  split_ifs with hks
  · exact ⟨Q.heap _ (by omega), Q.wt (hal _ (by omega))⟩
  · exact ⟨Q.heap k (by omega), Q.wt (hal k (by omega))⟩

theorem SameQueue.leafStep {s t u : State} {b : Byte} {h : Handle} (Q : SameQueue s t) (hfr : s.freq = t.freq)
    (hal : HeapAllocated s) (e : Machine.leafStep b s = .ok (u, h)) :
    ∃ u', Machine.leafStep b t = .ok (u', h) ∧ SameQueue u u' ∧ u.nextsym = u'.nextsym := by
  simp only [Machine.leafStep, except_bind_ok, except_pure, Except.ok.injEq, Prod.mk.injEq] at e ⊢
  obtain ⟨⟨v, h'⟩, ha, x, hi, rfl, rfl⟩ := e
  obtain ⟨g1, g2, g3, g4, -, -⟩ := nodeAlloc_spec ha
  rw [freqAt_of_freq_eq hfr b] at ha
  obtain ⟨v', ha', Qv⟩ := Q.nodeAlloc ha
  have vs : v.size = s.size := by rw [g4]
  have hv : HeapAllocated v := by
    intro i hi
    rw [heapAt_of_heap_eq (by rw [g4] : v.heap = s.heap)]
    have : (heapAt s i).toNat < s.nnodes.toNat := hal i (vs ▸ hi)
    simp only [Allocated]; omega
  obtain ⟨x', hi', Qx⟩ := Qv.pqInsert hv (by simp only [Allocated, g2]; omega) hi
  exact ⟨_, ⟨⟨v', h'⟩, ha', x', hi', rfl, rfl⟩, ⟨Qx.nnodes, Qx.node, Qx.size, Qx.heap⟩, rfl⟩

theorem SameQueue.mergeStep {s t u : State} {p : Handle} (Q : SameQueue s t) (F : Forest s)
    (e : Machine.mergeStep s = .ok (u, p)) : ∃ u', Machine.mergeStep t = .ok (u', p) ∧ SameQueue u u' := by
  have hsz := F.counts.2.2.2.1
  simp only [Machine.mergeStep, except_bind_ok, except_pure, Except.ok.injEq, Prod.mk.injEq] at e ⊢
  obtain ⟨⟨a, l⟩, ea, ⟨b, r⟩, eb, ⟨c, q⟩, ec, d, ed, rfl, rfl⟩ := e
  simp only at eb ec ed
  have Fa := F.extract ea
  have Fb := Fa.extract eb
  obtain ⟨-, -, -, a4, a5, -⟩ := pqExtractMin_spec ea hsz
  obtain ⟨-, -, -, b4, b5, -⟩ := pqExtractMin_spec eb Fa.counts.2.2.2.1
  obtain ⟨c1, c2, c3, c4, -, -⟩ := nodeAlloc_spec ec
  obtain ⟨a', ea', Qa⟩ := Q.pqExtractMin F.heapAllocated hsz ea
  obtain ⟨b', eb', Qb⟩ := Qa.pqExtractMin Fa.heapAllocated Fa.counts.2.2.2.1 eb
  have an : a.nnodes = s.nnodes := by rw [a4]
  have bn : b.nnodes = a.nnodes := by rw [b4]
  have hl : Allocated b l := by
    have : Allocated s l := (heapAllocated_iff s).1 F.heapAllocated _ (a5.mem_iff.2 List.mem_cons_self)
    simpa [Allocated, bn, an] using this
  have hr : Allocated b r := by
    have : Allocated a r := (heapAllocated_iff a).1 Fa.heapAllocated _ (b5.mem_iff.2 List.mem_cons_self)
    simpa [Allocated, bn] using this
  obtain ⟨c', ec', Qc⟩ := Qb.nodeAlloc ec
  rw [Qb.wt hl, Qb.wt hr] at ec'
  have cs : c.size = b.size := by rw [c4]
  have hc : HeapAllocated c := by
    intro i hi
    rw [heapAt_of_heap_eq (by rw [c4] : c.heap = b.heap)]
    have : (heapAt b i).toNat < b.nnodes.toNat := Fb.heapAllocated i (cs ▸ hi)
    simp only [Allocated]; omega
  obtain ⟨d', ed', Qd⟩ := Qc.pqInsert hc (by simp only [Allocated, c2]; omega) ed
  exact ⟨d', ⟨⟨a', l⟩, ea', ⟨b', r⟩, eb', ⟨c', q⟩, ec', d', ed', rfl, rfl⟩, Qd⟩

/-! ## BUILD -/

theorem SameQueue.buildLeaves : ∀ (bs : List Byte) {s t u : State}, SameQueue s t → s.nextsym = t.nextsym → s.freq = t.freq →
    Forest s → bs.Pairwise (fun a b => a.toNat < b.toNat) → (∀ b ∈ bs, s.nextsym.toNat ≤ b.toNat) →
    Machine.buildLeaves bs s = .ok u →
    ∃ u', Machine.buildLeaves bs t = .ok u' ∧ SameQueue u u' ∧ u.nextsym = u'.nextsym
  | [], s, t, u, Q, hx, _, _, _, _, e => by cases e; exact ⟨t, rfl, Q, hx⟩
  | b :: bs, s, t, u, Q, hx, hfr, F, hp, hb, e => by
    rw [List.pairwise_cons] at hp
    simp only [Machine.buildLeaves] at e ⊢
    rw [← freqAt_of_freq_eq hfr b]
    by_cases h0 : freqAt s b = 0#32
    · rw [if_pos h0] at e ⊢
      exact SameQueue.buildLeaves bs Q hx hfr F hp.2 (fun c hc => hb c (List.mem_cons_of_mem _ hc)) e
    · rw [if_neg h0] at e ⊢
      obtain ⟨⟨v, h⟩, e1, e2⟩ := except_bind_ok.1 e
      obtain ⟨v', e1', Qv, hv⟩ := Q.leafStep hfr F.heapAllocated e1
      have hb0 := hb b List.mem_cons_self
      obtain ⟨-, -, -, -, -, g6, -⟩ := leafStep_spec e1
      have nx : v.nextsym.toNat = b.toNat + 1 := by
        have := b.isLt
        rw [g6, BitVec.toNat_add, BitVec.toNat_setWidth]; simp; omega
      have hfv : v.freq = v'.freq := by rw [leafStep_frame e1, leafStep_frame e1']; exact hfr
      obtain ⟨u', e2', Qu⟩ := SameQueue.buildLeaves bs Qv hv hfv (F.leafStep hb0 h0 e1) hp.2
        (fun c hc => by have := hp.1 c hc; omega) e2
      exact ⟨u', except_bind_ok.2 ⟨(v', h), e1', e2'⟩, Qu⟩

theorem SameQueue.mergeLoop : ∀ (n : Nat) {s t u : State}, SameQueue s t → Forest s → Machine.mergeLoop n s = .ok u →
    ∃ u', Machine.mergeLoop n t = .ok u' ∧ SameQueue u u'
  | 0, s, t, u, Q, _, e => by cases e; exact ⟨t, rfl, Q⟩
  | n + 1, s, t, u, Q, F, e => by
    simp only [Machine.mergeLoop] at e ⊢
    rw [← Q.size]
    by_cases h2 : 1 < s.size.toNat
    · rw [if_pos h2] at e ⊢
      obtain ⟨⟨v, p⟩, e1, e2⟩ := except_bind_ok.1 e
      obtain ⟨v', e1', Qv⟩ := Q.mergeStep F e1
      obtain ⟨u', e2', Qu⟩ := SameQueue.mergeLoop n Qv (F.mergeStep e1) e2
      exact ⟨u', except_bind_ok.2 ⟨(v', p), e1', e2'⟩, Qu⟩
    · rw [if_neg h2] at e ⊢
      cases e; exact ⟨t, rfl, Q⟩

theorem SameLive.ofQueue {s t u u' : State} (L : SameLive s t) (h : u = withQueue s u) (h' : u' = withQueue t u')
    (Q : SameQueue u u') (hx : u.nextsym = u'.nextsym) : SameLive u u' where
  freq := by rw [h, h']; exact L.freq
  nnodes := Q.nnodes
  node := Q.node
  size := Q.size
  heap := Q.heap
  nextsym := hx
  clen := by rw [h, h']; exact L.clen
  code := fun b => by
    rw [codeOf_of_table_eq (by rw [h]; rfl : u.clen = s.clen) (by rw [h]; rfl),
      codeOf_of_table_eq (by rw [h']; rfl : u'.clen = t.clen) (by rw [h']; rfl)]
    exact L.code b
  codeValid := by rw [h, h']; exact L.codeValid
  acc := by rw [h, h']; exact L.acc
  cnt := by rw [h, h']; exact L.cnt
  fault := by rw [h, h']; exact L.fault
  err := by rw [h, h']; exact L.err
  cmd := by rw [h, h']; exact L.cmd
  rsp := by rw [h, h']; exact L.rsp
  out := by rw [h, h']; exact L.out

theorem SameLive.emptyQueue {s t : State} (L : SameLive s t) : SameLive (emptyQueue s) (emptyQueue t) :=
  L.ofQueue rfl rfl ⟨rfl, fun h hh => by simp [Allocated, Machine.emptyQueue] at hh, rfl,
    fun i hi => by simp [Machine.emptyQueue] at hi⟩ rfl

/-! ## GEN -/

theorem SameQueue.depthAtMost {s t : State} (Q : SameQueue s t) (F : Forest s) : ∀ (n : Nat) (h : Handle), Allocated s h →
    Machine.depthAtMost s n h = Machine.depthAtMost t n h
  | 0, h, ha => by simp only [Machine.depthAtMost, Q.node h ha]
  | n + 1, h, ha => by
    simp only [Machine.depthAtMost, ← Q.node h ha]
    cases hk : (nodeAt s h).kind
    · simp only
      rw [Q.depthAtMost F n _ (F.left_allocated ⟨ha, hk⟩), Q.depthAtMost F n _ (F.right_allocated ⟨ha, hk⟩)]
    · rfl

theorem SameQueue.leafPaths {s t : State} (Q : SameQueue s t) (F : Forest s) : ∀ (n : Nat) (h : Handle), Allocated s h →
    Machine.leafPaths s n h = Machine.leafPaths t n h
  | 0, h, ha => by simp only [Machine.leafPaths, Q.node h ha]
  | n + 1, h, ha => by
    simp only [Machine.leafPaths, ← Q.node h ha]
    cases hk : (nodeAt s h).kind
    · simp only
      rw [Q.leafPaths F n _ (F.left_allocated ⟨ha, hk⟩), Q.leafPaths F n _ (F.right_allocated ⟨ha, hk⟩)]
    · rfl

theorem SameQueue.genEntries {s t : State} (Q : SameQueue s t) (F : Forest s) {h : Handle} (ha : Allocated s h) :
    Machine.genEntries s h = Machine.genEntries t h := by
  simp only [Machine.genEntries, ← Q.node h ha, Q.leafPaths F _ h ha]

theorem clen_ext {s t : State} (h : ∀ b, clenAt s b = clenAt t b) : s.clen = t.clen := by
  apply Vector.ext
  intro i hi
  have := h (BitVec.ofNat 8 i)
  simp only [clenAt, BitVec.toNat_ofNat] at this
  have hm : i % 2 ^ 8 = i := Nat.mod_eq_of_lt hi
  simpa only [hm] using this

theorem SameLive.gen {s t u : State} {d : Word} (L : SameLive s t) (F : Forest s) (e : genBody s = .ok (u, d)) :
    ∃ u', genBody t = .ok (u', d) ∧ SameLive u u' := by
  obtain ⟨h0, h1, hd, hu, rfl⟩ := genBody_ok.1 e
  have hi : 0 < s.size.toNat := by simp [h1]
  have hroot := L.heap 0 hi
  have ha := F.heapAllocated 0 hi
  have hent := L.queue.genEntries F ha
  obtain ⟨u', e'⟩ : ∃ u', genBody t = .ok (u', 0#32) :=
    ⟨_, genBody_ok.2 ⟨L.cnt ▸ h0, L.size ▸ h1, by rw [← hroot, ← L.queue.depthAtMost F _ _ ha]; exact hd, rfl, rfl⟩⟩
  have hu' := (genBody_ok.1 e').2.2.2.1
  have fu : u = { withTable s u with codeValid := true } := by
    rw [hu, writeCodes_frame]; simp [withTable, clearCodes]
  have fu' : u' = { withTable t u' with codeValid := true } := by
    rw [hu', writeCodes_frame]; simp [withTable, clearCodes]
  have hnd := F.genEntries_nodup h1
  have hcode : ∀ b, clenAt u b = clenAt u' b ∧ codeOf u b = codeOf u' b := by
    intro b
    have g := genBody_table e b
    have g' := genBody_table e' b
    rw [← hroot, ← hent] at g'
    rcases g with ⟨hn, hz⟩ | ⟨p, hp, hl, hc, -⟩ <;> rcases g' with ⟨hn', hz'⟩ | ⟨p', hp', hl', hc', -⟩
    · exact ⟨hz.trans hz'.symm, by simp [codeOf, hz, hz']⟩
    · exact absurd (List.mem_map_of_mem (f := (·.1)) hp') hn
    · exact absurd (List.mem_map_of_mem (f := (·.1)) hp) hn'
    · have := eq_of_mem_of_nodup_fst hnd hp hp'
      subst this
      exact ⟨BitVec.eq_of_toNat_eq (hl.trans hl'.symm), hc.trans hc'.symm⟩
  refine ⟨u', e', ?_⟩
  have Q := L.queue
  exact
    { freq := by rw [fu, fu']; exact L.freq
      nnodes := by rw [fu, fu']; exact L.nnodes
      node := fun h hh => by
        rw [nodeAt_of_node_eq (by rw [fu]; rfl : u.node = s.node), nodeAt_of_node_eq (by rw [fu']; rfl : u'.node = t.node)]
        exact L.node h (by rw [fu] at hh; exact hh)
      size := by rw [fu, fu']; exact L.size
      heap := fun i hi => by
        rw [heapAt_of_heap_eq (by rw [fu]; rfl : u.heap = s.heap), heapAt_of_heap_eq (by rw [fu']; rfl : u'.heap = t.heap)]
        exact L.heap i (by rw [fu] at hi; exact hi)
      nextsym := by rw [fu, fu']; exact L.nextsym
      clen := clen_ext fun b => (hcode b).1
      code := fun b => (hcode b).2
      codeValid := by rw [fu, fu']
      acc := by rw [fu, fu']; exact L.acc
      cnt := by rw [fu, fu']; exact L.cnt
      fault := by rw [fu, fu']; exact L.fault
      err := by rw [fu, fu']; exact L.err
      cmd := by rw [fu, fu']; exact L.cmd
      rsp := by rw [fu, fu']; exact L.rsp
      out := by rw [fu, fu']; exact L.out }

/-! ## ENC and FLUSH -/

theorem shiftBits_congr (cs : List Bool) : ∀ {s t : State}, s.acc = t.acc → s.cnt = t.cnt → s.out = t.out →
    (shiftBits cs s).acc = (shiftBits cs t).acc ∧ (shiftBits cs s).cnt = (shiftBits cs t).cnt ∧
      (shiftBits cs s).out = (shiftBits cs t).out := by
  induction cs with
  | nil => exact fun h1 h2 h3 => ⟨h1, h2, h3⟩
  | cons c cs ih =>
    intro s t h1 h2 h3
    have hs : ∀ x, shiftBits (c :: cs) x = shiftBits cs (shiftBit c x) := fun _ => rfl
    rw [hs, hs]
    apply ih <;> (simp only [shiftBit, h1, h2]; split <;> simp [h3])

theorem SameLive.ofBuffer {s t u u' : State} (L : SameLive s t) (h : u = withBuffer s u) (h' : u' = withBuffer t u')
    (h1 : u.acc = u'.acc) (h2 : u.cnt = u'.cnt) (h3 : u.out = u'.out) : SameLive u u' where
  freq := by rw [h, h']; exact L.freq
  nnodes := by rw [h, h']; exact L.nnodes
  node := fun x hx => by
    rw [nodeAt_of_node_eq (by rw [h]; rfl : u.node = s.node), nodeAt_of_node_eq (by rw [h']; rfl : u'.node = t.node)]
    exact L.node x (by rw [h] at hx; exact hx)
  size := by rw [h, h']; exact L.size
  heap := fun i hi => by
    rw [heapAt_of_heap_eq (by rw [h]; rfl : u.heap = s.heap), heapAt_of_heap_eq (by rw [h']; rfl : u'.heap = t.heap)]
    exact L.heap i (by rw [h] at hi; exact hi)
  nextsym := by rw [h, h']; exact L.nextsym
  clen := by rw [h, h']; exact L.clen
  code := fun b => by
    rw [codeOf_of_table_eq (by rw [h]; rfl : u.clen = s.clen) (by rw [h]; rfl),
      codeOf_of_table_eq (by rw [h']; rfl : u'.clen = t.clen) (by rw [h']; rfl)]
    exact L.code b
  codeValid := by rw [h, h']; exact L.codeValid
  acc := h1
  cnt := h2
  fault := by rw [h, h']; exact L.fault
  err := by rw [h, h']; exact L.err
  cmd := by rw [h, h']; exact L.cmd
  rsp := by rw [h, h']; exact L.rsp
  out := h3

theorem SameLive.flush {s t : State} (L : SameLive s t) : SameLive (flushBits s) (flushBits t) := by
  refine L.ofBuffer (flushBits_frame s) (flushBits_frame t) ?_ ?_ ?_ <;>
    (simp only [flushBits, L.cnt]; split <;> simp [L.acc, L.cnt, L.out])

/-! ## The three ends of a command, and the reads -/

theorem SameLive.withFault {s t : State} (L : SameLive s t) (f : Bool) (e : BitVec 4) (r : Response) :
    SameLive { s with fault := f, err := e, rsp := s.rsp ++ [r] } { t with fault := f, err := e, rsp := t.rsp ++ [r] } :=
  { L with fault := rfl, err := rfl, rsp := by simp [L.rsp], node := L.node, heap := L.heap, code := L.code }

theorem SameLive.answer {s t : State} (L : SameLive s t) (r : Response) :
    SameLive { s with rsp := s.rsp ++ [r] } { t with rsp := t.rsp ++ [r] } :=
  { L with rsp := by simp [L.rsp], node := L.node, heap := L.heap, code := L.code }

theorem SameLive.clenAt {s t : State} (L : SameLive s t) (b : Byte) : clenAt s b = clenAt t b := clenAt_of_clen_eq L.clen b

theorem SameLive.codeBit {s t : State} (L : SameLive s t) {b : Byte} {k : Nat} (hk : k < (Machine.clenAt s b).toNat) :
    codeBit s b k = codeBit t b k := by
  have h := congrArg (fun l => l[k]?) (L.code b)
  have hk' : k < (Machine.clenAt t b).toNat := L.clenAt b ▸ hk
  simpa [codeOf, hk, hk'] using h

theorem SameLive.readData {s t : State} (L : SameLive s t) (i : Instr) : readData i s = readData i t := by
  cases i <;> simp only [Machine.readData]
  case rdStatus => simp [statusView, L.acc, L.cnt, L.err, L.codeValid, L.fault]
  case rdPqstat => simp [pqstatView, L.nextsym, L.nnodes, L.size]
  case rdFreq b => rw [freqAt_of_freq_eq L.freq]
  case rdPq i =>
    simp only [heapOperand, ← L.size]
    by_cases h : i.toNat < s.size.toNat
    · simp [h, L.heap _ h]
    · simp [h]
  case rdNode h sel =>
    simp only [nodeOperand, ← L.nnodes]
    by_cases hh : h.toNat < s.nnodes.toNat
    · simp [hh, L.node _ hh]
    · simp [hh]
  case rdClen b => rw [L.clenAt]
  case rdCode b j =>
    have : codeWordBit s b j = codeWordBit t b j := by
      funext i
      simp only [codeWordBit, ← L.clenAt]
      by_cases h : 32 * j.toNat + i < (Machine.clenAt s b).toNat
      · simp [h, L.codeBit h]
      · simp [h]
    simp [codeWord, this]

/-- A command that completes in s completes in t, with the same response. -/
theorem SameLive.body_ok {i : Instr} {s t u : State} {d : Word} (L : SameLive s t) (I : Invariants s)
    (e : body i s = .ok (u, d)) : ∃ u', body i t = .ok (u', d) ∧ SameLive u u' := by
  have F := I.forest
  cases i <;> simp only [body] at e ⊢
  case nop => cases e; exact ⟨t, rfl, L⟩
  case count b =>
    obtain ⟨h0, h1, rfl, rfl⟩ := countBody_ok.1 e
    refine ⟨_, countBody_ok.2 ⟨L.nnodes ▸ h0, by rw [← freqAt_of_freq_eq L.freq]; exact h1, rfl, rfl⟩, ?_⟩
    exact { L with freq := by simp [setFreq, freqAt_of_freq_eq L.freq, L.freq], node := L.node, heap := L.heap, code := L.code }
  case build =>
    obtain ⟨⟨b, hb⟩, v, e1, e2, rfl⟩ := buildBody_ok.1 e
    obtain ⟨v', e1', Qv, hv⟩ := SameQueue.buildLeaves allSyms L.emptyQueue.queue rfl L.freq (forest_emptyQueue s)
      pairwise_allSyms (fun _ _ => by simp) e1
    have Fv : Forest v := by
      obtain ⟨x, ex, Fx, -⟩ := (forest_emptyQueue s).buildLeaves allSyms _ (covered_emptyQueue s) rfl pairwise_allSyms
        (fun _ _ => by simp)
      rw [e1] at ex; cases ex; exact Fx
    obtain ⟨u', e2', Qu⟩ := Qv.mergeLoop _ Fv e2
    have hnx : u.nextsym = u'.nextsym := by rw [mergeLoop_nextsym e2, mergeLoop_nextsym e2', hv]
    have h1 : 0 < u.size.toNat := by
      obtain ⟨x, ex, -, -, -, hx, -⟩ := buildBody_spec (s := s) ⟨b, hb⟩
      rw [e] at ex
      simp only [Except.ok.injEq, Prod.mk.injEq] at ex
      rw [ex.1, hx]; decide
    refine ⟨u', buildBody_ok.2 ⟨⟨b, by rw [← freqAt_of_freq_eq L.freq]; exact hb⟩, v', e1', by rw [← Qv.size]; exact e2',
      by rw [Qu.heap 0 h1]⟩, L.ofQueue ?_ ?_ Qu hnx⟩
    · exact withQueue_trans (withQueue_trans (t := Machine.emptyQueue s) rfl (buildLeaves_frame e1)) (mergeLoop_frame e2)
    · exact withQueue_trans (withQueue_trans (t := Machine.emptyQueue t) rfl (buildLeaves_frame e1')) (mergeLoop_frame e2')
  case gen => exact L.gen F e
  case enc b =>
    obtain ⟨h0, h1, rfl, rfl⟩ := encBody_ok.1 e
    refine ⟨_, encBody_ok.2 ⟨L.codeValid ▸ h0, L.clenAt b ▸ h1, rfl, rfl⟩, ?_⟩
    rw [← L.code b]
    obtain ⟨q1, q2, q3⟩ := shiftBits_congr (codeOf s b) L.acc L.cnt L.out
    exact L.ofBuffer (shiftBits_frame _ s) (shiftBits_frame _ t) q1 q2 q3
  case flush => cases e; exact ⟨_, rfl, L.flush⟩
  case pqInit => cases e; exact ⟨_, rfl, L.emptyQueue⟩
  case leaf b =>
    obtain ⟨h0, h1, x, e1, rfl⟩ := leafBody_ok.1 e
    obtain ⟨u', e1', Q, hx⟩ := L.queue.leafStep L.freq F.heapAllocated e1
    exact ⟨u', leafBody_ok.2 ⟨L.nextsym ▸ h0, by rw [← freqAt_of_freq_eq L.freq]; exact h1, x, e1', rfl⟩,
      L.ofQueue (leafStep_frame e1) (leafStep_frame e1') Q hx⟩
  case pqExt =>
    obtain ⟨m, e1, rfl⟩ := pqExtBody_ok.1 e
    obtain ⟨u', e1', Q⟩ := L.queue.pqExtractMin F.heapAllocated F.counts.2.2.2.1 e1
    refine ⟨u', pqExtBody_ok.2 ⟨m, e1', rfl⟩, ?_⟩
    have hq : u = withQueue s u := by obtain ⟨-, -, rfl⟩ := pqExtractMin_ok.1 e1; rfl
    have hq' : u' = withQueue t u' := by obtain ⟨-, -, rfl⟩ := pqExtractMin_ok.1 e1'; rfl
    refine L.ofQueue hq hq' Q ?_
    obtain ⟨-, -, rfl⟩ := pqExtractMin_ok.1 e1
    obtain ⟨-, -, rfl⟩ := pqExtractMin_ok.1 e1'
    exact L.nextsym
  case merge =>
    obtain ⟨h2, p, e1, rfl⟩ := mergeBody_ok.1 e
    obtain ⟨u', e1', Q⟩ := L.queue.mergeStep F e1
    exact ⟨u', mergeBody_ok.2 ⟨L.size ▸ h2, p, e1', rfl⟩, L.ofQueue (mergeStep_frame e1) (mergeStep_frame e1') Q
      (by rw [mergeStep_nextsym e1, mergeStep_nextsym e1']; exact L.nextsym)⟩
  all_goals cases e

end Sys2Proof.Machine
end

