-- ==== Sys2Proof/Laws/Encoding.lean ====
section
/-! SUPPORT. The five formats read backwards (30_encoding.md rule R81, rule R85): a word of a format is its opcode over the fields its
operand bits hold. -/

namespace Sys2Proof

/-- Bit k of a field. -/
theorem getLsbD_field {w : Word} {start len : Nat} (k : Nat) :
    (w.extractLsb' start len).getLsbD k = (decide (k < len) && w.getLsbD (start + k)) := by simp

/-- A field of zeros, bit by bit. -/
theorem field_zero {w : Word} {start len : Nat} (h : w.extractLsb' start len = 0#len) {k : Nat} (h1 : start ≤ k)
    (h2 : k < start + len) : w.getLsbD k = false := by
  have := congrArg (fun v => v.getLsbD (k - start)) h
  simp only [getLsbD_field, BitVec.getLsbD_zero] at this
  rwa [show start + (k - start) = k by omega, decide_eq_true (by omega : k - start < len), Bool.true_and] at this

theorem formatN_ok {w : Word} {i j : Instr} : formatN w i = .ok j ↔ w.extractLsb' 0 24 = 0#24 ∧ i = j := by
  simp only [formatN]; split_ifs with h <;> simp [h]

theorem formatS_ok {w : Word} {f : Byte → Instr} {j : Instr} (h : formatS w f = .ok j) :
    j = f (symOf w) ∧ w.extractLsb' 0 24 = 0#16 ++ symOf w := by
  simp only [formatS] at h
  split_ifs at h with hz
  refine ⟨(Except.ok.inj h).symm, ?_⟩
  apply BitVec.eq_of_getLsbD_eq
  intro k hk
  rw [BitVec.getLsbD_append, getLsbD_field]
  by_cases h8 : k < 8
  · simp [symOf, h8, hk]
  · rw [field_zero hz (k := 0 + k) (by omega) (by omega)]; simp [h8]

theorem formatP_ok {w : Word} {f : BitVec 9 → Instr} {j : Instr} (h : formatP w f = .ok j) :
    j = f (idxOf w) ∧ w.extractLsb' 0 24 = 0#15 ++ idxOf w := by
  simp only [formatP] at h
  split_ifs at h with hz
  refine ⟨(Except.ok.inj h).symm, ?_⟩
  apply BitVec.eq_of_getLsbD_eq
  intro k hk
  rw [BitVec.getLsbD_append, getLsbD_field]
  by_cases h9 : k < 9
  · simp [idxOf, h9, hk]
  · rw [field_zero hz (k := 0 + k) (by omega) (by omega)]; simp [h9]

theorem formatH_ok {w : Word} {f : Handle → BitVec 2 → Instr} {j : Instr} (h : formatH w f = .ok j) :
    j = f (handleOf w) (selOf w) ∧ selOf w ≠ 3#2 ∧ w.extractLsb' 0 24 = 0#6 ++ selOf w ++ 0#7 ++ handleOf w := by
  simp only [formatH] at h
  split_ifs at h with hz hs
  refine ⟨(Except.ok.inj h).symm, hs, ?_⟩
  apply BitVec.eq_of_getLsbD_eq
  intro k hk
  simp only [BitVec.getLsbD_append, getLsbD_field, handleOf, selOf, BitVec.getLsbD_zero]
  by_cases h1 : k < 9
  · simp [h1, hk]
  · by_cases h2 : k - 9 < 7
    · rw [field_zero hz.2 (k := 0 + k) (by omega) (by omega)]; simp [h1, h2]
    · by_cases h3 : k - 9 - 7 < 2
      · have : 16 + (k - 9 - 7) = 0 + k := by omega
        simp only [h1, h2, h3, if_true, if_false, decide_true, Bool.true_and, this]; simp [hk]
      · rw [field_zero hz.1 (k := 0 + k) (by omega) (by omega)]; simp [h1, h2, h3]

theorem formatC_ok {w : Word} {f : Byte → BitVec 3 → Instr} {j : Instr} (h : formatC w f = .ok j) :
    j = f (symOf w) (codeWordOf w) ∧ w.extractLsb' 0 24 = 0#5 ++ codeWordOf w ++ 0#8 ++ symOf w := by
  simp only [formatC] at h
  split_ifs at h with hz
  refine ⟨(Except.ok.inj h).symm, ?_⟩
  apply BitVec.eq_of_getLsbD_eq
  intro k hk
  simp only [BitVec.getLsbD_append, getLsbD_field, symOf, codeWordOf, BitVec.getLsbD_zero]
  by_cases h1 : k < 8
  · simp [h1, hk]
  · by_cases h2 : k - 8 < 8
    · rw [field_zero hz.2 (k := 0 + k) (by omega) (by omega)]; simp [h1, h2]
    · by_cases h3 : k - 8 - 8 < 3
      · have : 16 + (k - 8 - 8) = 0 + k := by omega
        simp only [h1, h2, h3, if_true, if_false, decide_true, Bool.true_and, this]; simp [hk]
      · rw [field_zero hz.1 (k := 0 + k) (by omega) (by omega)]; simp [h1, h2, h3]

theorem of_ite {α : Type} {c : Prop} [Decidable c] {a b x : α} (h : (if c then a else b) = x) : (c ∧ a = x) ∨ b = x := by
  split_ifs at h with hc
  · exact .inl ⟨hc, h⟩
  · exact .inr h

theorem formatN_error {w : Word} {i : Instr} : (∃ r, formatN w i = .error r) ↔ w.extractLsb' 0 24 ≠ 0#24 := by
  simp only [formatN]; split_ifs with h <;> simp [h]

theorem formatS_error {w : Word} {f : Byte → Instr} : (∃ r, formatS w f = .error r) ↔ w.extractLsb' 8 16 ≠ 0#16 := by
  simp only [formatS]; split_ifs with h <;> simp [h]

theorem formatP_error {w : Word} {f : BitVec 9 → Instr} : (∃ r, formatP w f = .error r) ↔ w.extractLsb' 9 15 ≠ 0#15 := by
  simp only [formatP]; split_ifs with h <;> simp [h]

theorem formatH_error {w : Word} {f : Handle → BitVec 2 → Instr} : (∃ r, formatH w f = .error r) ↔
    ¬ (w.extractLsb' 18 6 = 0#6 ∧ w.extractLsb' 9 7 = 0#7) ∨ selOf w = 3#2 := by
  simp only [formatH]
  by_cases h : w.extractLsb' 18 6 = 0#6 ∧ w.extractLsb' 9 7 = 0#7
  · by_cases h' : selOf w = 3#2 <;> simp [h, h']
  · rw [if_neg h]; simp [h]

theorem formatC_error {w : Word} {f : Byte → BitVec 3 → Instr} : (∃ r, formatC w f = .error r) ↔
    ¬ (w.extractLsb' 19 5 = 0#5 ∧ w.extractLsb' 8 8 = 0#8) := by
  simp only [formatC]; split_ifs with h <;> simp [h]

/-- A word that decodes to a command has the command's opcode and operand bits. -/
theorem fields_of_decode {w : Word} {i : Instr} (h : decode w = .ok i) :
    opcodeOf w = i.opcode ∧ w.extractLsb' 0 24 = i.operandBits ∧ i.wellFormed = true := by
  unfold decode at h
  dsimp only at h
  rcases of_ite h with ⟨ho, h⟩ | h
  · obtain ⟨hz, rfl⟩ := formatN_ok.1 h; exact ⟨ho, hz, rfl⟩
  rcases of_ite h with ⟨ho, h⟩ | h
  · obtain ⟨hz, rfl⟩ := formatN_ok.1 h; exact ⟨ho, hz, rfl⟩
  rcases of_ite h with ⟨ho, h⟩ | h
  · obtain ⟨rfl, hz⟩ := formatS_ok h; exact ⟨ho, hz, rfl⟩
  rcases of_ite h with ⟨ho, h⟩ | h
  · obtain ⟨hz, rfl⟩ := formatN_ok.1 h; exact ⟨ho, hz, rfl⟩
  rcases of_ite h with ⟨ho, h⟩ | h
  · obtain ⟨hz, rfl⟩ := formatN_ok.1 h; exact ⟨ho, hz, rfl⟩
  rcases of_ite h with ⟨ho, h⟩ | h
  · obtain ⟨rfl, hz⟩ := formatS_ok h; exact ⟨ho, hz, rfl⟩
  rcases of_ite h with ⟨ho, h⟩ | h
  · obtain ⟨hz, rfl⟩ := formatN_ok.1 h; exact ⟨ho, hz, rfl⟩
  rcases of_ite h with ⟨ho, h⟩ | h
  · obtain ⟨hz, rfl⟩ := formatN_ok.1 h; exact ⟨ho, hz, rfl⟩
  rcases of_ite h with ⟨ho, h⟩ | h
  · obtain ⟨rfl, hz⟩ := formatS_ok h; exact ⟨ho, hz, rfl⟩
  rcases of_ite h with ⟨ho, h⟩ | h
  · obtain ⟨hz, rfl⟩ := formatN_ok.1 h; exact ⟨ho, hz, rfl⟩
  rcases of_ite h with ⟨ho, h⟩ | h
  · obtain ⟨hz, rfl⟩ := formatN_ok.1 h; exact ⟨ho, hz, rfl⟩
  rcases of_ite h with ⟨ho, h⟩ | h
  · obtain ⟨hz, rfl⟩ := formatN_ok.1 h; exact ⟨ho, hz, rfl⟩
  rcases of_ite h with ⟨ho, h⟩ | h
  · obtain ⟨hz, rfl⟩ := formatN_ok.1 h; exact ⟨ho, hz, rfl⟩
  rcases of_ite h with ⟨ho, h⟩ | h
  · obtain ⟨rfl, hz⟩ := formatS_ok h; exact ⟨ho, hz, rfl⟩
  rcases of_ite h with ⟨ho, h⟩ | h
  · obtain ⟨rfl, hz⟩ := formatP_ok h; exact ⟨ho, hz, rfl⟩
  rcases of_ite h with ⟨ho, h⟩ | h
  · obtain ⟨rfl, hs, hz⟩ := formatH_ok h; exact ⟨ho, hz, by simpa [Instr.wellFormed] using hs⟩
  rcases of_ite h with ⟨ho, h⟩ | h
  · obtain ⟨rfl, hz⟩ := formatS_ok h; exact ⟨ho, hz, rfl⟩
  rcases of_ite h with ⟨ho, h⟩ | h
  · obtain ⟨rfl, hz⟩ := formatC_ok h; exact ⟨ho, hz, rfl⟩
  cases h

/-- A word is its opcode over its other 24 bits. -/
theorem word_eq_fields (w : Word) : opcodeOf w ++ w.extractLsb' 0 24 = w := by
  apply BitVec.eq_of_getLsbD_eq
  intro k hk
  rw [BitVec.getLsbD_append, getLsbD_field]
  by_cases h : k < 24
  · simp [h]
  · simp only [h, if_false, opcodeOf, getLsbD_field]
    rw [show 24 + (k - 24) = k by omega, decide_eq_true (by omega : k - 24 < 8), Bool.true_and]

theorem toNat_opcodeOf (w : Word) : (opcodeOf w).toNat = w.toNat / 2 ^ 24 := by
  have := w.isLt
  simp only [opcodeOf, BitVec.extractLsb'_toNat, Nat.shiftRight_eq_div_pow]
  omega

/-- A field is zero when the word has no bit of the field's mask. -/
theorem and_mask_eq_zero (w : Word) {start len : Nat} (h : start + len ≤ 32) :
    w &&& ((BitVec.allOnes len).setWidth 32 <<< start) = 0#32 ↔ w.extractLsb' start len = 0#len := by
  constructor
  · intro hz
    apply BitVec.eq_of_getLsbD_eq
    intro k hk
    have := congrArg (fun v => v.getLsbD (start + k)) hz
    have e1 : start + k < 32 := by omega
    have e2 : ¬ start + k < start := by omega
    have e3 : start + k - start = k := by omega
    have e4 : k < 32 := by omega
    simpa [e1, e2, e3, e4, hk] using this
  · intro hz
    apply BitVec.eq_of_getLsbD_eq
    intro k hk
    by_cases h1 : start ≤ k
    · by_cases h2 : k < start + len
      · simp [field_zero hz h1 h2]
      · have e : ¬ k - start < len := by omega
        simp [e]
    · have e : k < start := by omega
      simp [e]

theorem and_or_eq_zero (w a b : Word) : w &&& (a ||| b) = 0#32 ↔ w &&& a = 0#32 ∧ w &&& b = 0#32 := by
  constructor
  · intro hz
    refine ⟨?_, ?_⟩ <;>
    · apply BitVec.eq_of_getLsbD_eq
      intro k hk
      have := congrArg (fun v => v.getLsbD k) hz
      simp only [BitVec.getLsbD_and, BitVec.getLsbD_or, BitVec.getLsbD_zero] at this ⊢
      revert this
      cases w.getLsbD k <;> cases a.getLsbD k <;> cases b.getLsbD k <;> simp
  · rintro ⟨h1, h2⟩
    rw [BitVec.and_or_distrib_left, h1, h2]; rfl

end Sys2Proof
end

