-- ==== Sys2Proof/Laws/Faults.lean ====
section
/-! SUPPORT. Which fault a command raises (60_exceptions.md rule R171): the first failing check, and never the checks the rule calls
unreachable. -/

namespace Sys2Proof.Machine

/-- Room for one more leaf (10_state.md rule R35 item 8). -/
theorem Forest.leaf_room {s : State} (F : Forest s) {b : Byte} (h : s.nextsym.toNat ≤ b.toNat) :
    s.nnodes.toNat < 511 ∧ s.size.toNat < 256 := by
  have := b.isLt
  have := F.leaves_le
  have := F.counts
  have := countKind_add s
  omega

/-- The pseudocode of a command faults exactly when a check of the table fails, and with its code. -/
theorem Forest.body_faults {s : State} (F : Forest s) {i : Instr} (hr : i.isRead = false) (hc : i ≠ .clr) :
    match body i s with
    | .ok _ => firstFault i s = none
    | .error e => firstFault i s = some e.code := by
  cases i <;> simp only [Instr.isRead, Bool.true_eq_false] at hr <;> simp only [body, firstFault]
  case clr => exact absurd rfl hc
  case count b =>
    by_cases h1 : s.nnodes = 0#9
    · by_cases h2 : freqAt s b = Config.freqMax
      · simp [countBody, h1, h2, Cause.code]
      · simp [countBody, h1, h2]
    · simp [countBody, h1, Cause.code]
  case build =>
    by_cases h : ∃ b, freqAt s b ≠ 0#32
    · obtain ⟨t, e, -⟩ := buildBody_spec h
      rw [e]
      obtain ⟨b, hb⟩ := h
      exact if_neg fun q => hb (q b (mem_allSyms b))
    · have h' : ∀ b, freqAt s b = 0#32 := fun b => by by_contra q; exact h ⟨b, q⟩
      have ha : (allSyms.any fun b => freqAt s b ≠ 0#32) = false := by simp [h']
      simp only [buildBody, ha, require_false, except_error_bind]
      exact if_pos fun b _ => h' b
  case gen =>
    by_cases h1 : s.cnt = 0#3
    · by_cases h2 : s.size = 1#9
      · obtain ⟨u, e⟩ := F.genBody_completes h1 h2
        rw [e]; simp [h1, h2]
      · by_cases h0 : s.size = 0#9 <;> simp [genBody, h1, h2, h0, Cause.code]
    · simp [genBody, h1, Cause.code]
  case enc b =>
    cases h1 : s.codeValid
    · simp [encBody, h1, Cause.code]
    · by_cases h2 : clenAt s b = 0#9 <;> simp [encBody, h1, h2, Cause.code]
  case leaf b =>
    by_cases h1 : s.nextsym.toNat ≤ b.toNat
    · by_cases h2 : freqAt s b = 0#32
      · simp [leafBody, h1, h2, Nat.not_lt.2 h1, Cause.code]
      · obtain ⟨u, e⟩ := leafStep_completes b (F.leaf_room h1).1 (F.leaf_room h1).2
        simp [leafBody, h1, h2, Nat.not_lt.2 h1, e]
    · simp [leafBody, h1, Nat.lt_of_not_le h1, Cause.code]
  case pqExt =>
    by_cases h1 : 1 ≤ s.size.toNat
    · obtain ⟨u, m, e⟩ := pqExtractMin_completes h1
      simp [pqExtBody, h1, Nat.not_lt.2 h1, e]
    · simp [pqExtBody, h1, Nat.lt_of_not_le h1, Cause.code]
  case merge =>
    by_cases h1 : 2 ≤ s.size.toNat
    · obtain ⟨u, e⟩ := F.mergeStep_completes h1
      simp [mergeBody, h1, Nat.not_lt.2 h1, e]
    · simp [mergeBody, h1, Nat.lt_of_not_le h1, Cause.code]

/-- A read command faults exactly when its index is out of range (45_read_commands.md rule R167). -/
theorem readData_faults {i : Instr} (hr : i.isRead = true) (hw : i.wellFormed = true) (s : State) :
    match readData i s with
    | .ok _ => firstFault i s = none
    | .error e => firstFault i s = some 9#4 ∧ e = .range ∧ ((∃ idx, i = .rdPq idx) ∨ ∃ h sel, i = .rdNode h sel) := by
  cases i <;> simp only [Instr.isRead, Bool.false_eq_true] at hr <;> simp only [readData, firstFault]
  case rdPq idx =>
    by_cases h : idx.toNat < s.size.toNat <;> simp [heapOperand, h, Except.map]
  case rdNode h sel =>
    have hs : sel ≠ 3#2 := by simpa [Instr.wellFormed] using hw
    by_cases h' : h.toNat < s.nnodes.toNat <;> simp [nodeOperand, h', Except.map, hs]

theorem firstFault_ne {i : Instr} {s : State} {c : BitVec 4} (h : firstFault i s = some c) : c ≠ 10#4 ∧ c ≠ 11#4 := by
  cases i <;> simp only [firstFault] at h <;> (try split_ifs at h) <;> cases h <;> decide

theorem SameLive.firstFault {s t : State} (L : SameLive s t) (i : Instr) : firstFault i s = firstFault i t := by
  have hf : freqAt s = freqAt t := funext fun b => freqAt_of_freq_eq L.freq b
  have hcl : Machine.clenAt s = Machine.clenAt t := funext fun b => L.clenAt b
  cases i <;> simp only [Machine.firstFault, hf, hcl, L.nnodes, L.size, L.nextsym, L.cnt, L.codeValid]

theorem code_injective {a b : Cause} (h : a.code = b.code) : a = b := by
  cases a <;> cases b <;> first | rfl | (simp [Cause.code] at h)

/-! ## Faults do not depend on dead storage -/

/-- The forest is a matter of the frequency table and the live parts of the queue and the arena. -/
theorem Forest.sameQueue {s t : State} (F : Forest s) (Q : SameQueue s t) (hf : s.freq = t.freq) (hx : s.nextsym = t.nextsym) :
    Forest t := by
  have al : ∀ x, Allocated t x ↔ Allocated s x := fun x => by simp only [Allocated, Q.nnodes]
  have nd : ∀ x, Allocated s x → nodeAt t x = nodeAt s x := fun x hx => (Q.node x hx).symm
  have wd : ∀ x, Allocated s x → wt t x = wt s x := fun x hx => (Q.wt hx).symm
  have lf : ∀ x, IsLeaf t x ↔ IsLeaf s x := fun x => by
    simp only [IsLeaf, al]; exact and_congr_right fun h => by rw [nd x h]
  have it : ∀ x, IsInternal t x ↔ IsInternal s x := fun x => by
    simp only [IsInternal, al]; exact and_congr_right fun h => by rw [nd x h]
  have ch : ∀ c p, IsChild t c p ↔ IsChild s c p := fun c p => by
    simp only [IsChild, it]; exact and_congr_right fun h => by rw [nd p h.1]
  have lh : liveHeap t = liveHeap s := by
    simp only [liveHeap, ← Q.size]
    exact List.map_congr_left fun i hi => (Q.heap i (List.mem_range.1 hi)).symm
  have hh : ∀ i, i < s.size.toNat → heapAt t i = heapAt s i := fun i hi => (Q.heap i hi).symm
  exact
    { nextsym := hx ▸ F.nextsym
      heapOrdered := fun i h1 hi => by
        rw [← Q.size] at hi
        rw [hh i hi, hh _ (by omega), wd _ (F.heapAllocated i hi), wd _ (F.heapAllocated _ (by omega))]
        exact F.heapOrdered i h1 hi
      heapAllocated := (heapAllocated_iff t).2 fun x hx => (al x).2 ((heapAllocated_iff s).1 F.heapAllocated x (lh ▸ hx))
      heapDistinct := lh ▸ F.heapDistinct
      leafRecord := fun h hl => by
        have hl := (lf h).1 hl
        rw [wd h hl.1, nd h hl.1, ← freqAt_of_freq_eq hf, ← hx]
        exact F.leafRecord h hl
      leafDistinct := fun h k hl kl e => by
        have hl := (lf h).1 hl
        have kl := (lf k).1 kl
        rw [nd h hl.1, nd k kl.1] at e
        exact F.leafDistinct h k hl kl e
      internalRecord := fun h hi => by
        have hi := (it h).1 hi
        rw [wd h hi.1, nd h hi.1, wd _ (F.left_allocated hi), wd _ (F.right_allocated hi)]
        exact F.internalRecord h hi
      childOnce := fun c p q hp hq => F.childOnce c p q ((ch c p).1 hp) ((ch c q).1 hq)
      heapNotChild := heapNotChild_iff.2 fun x hx p hp => heapNotChild_iff.1 F.heapNotChild x (lh ▸ hx) p ((ch x p).1 hp) }

/-- A command that faults in s faults in t, with the same code. -/
theorem SameLive.body_error {i : Instr} {s t : State} {e : Cause} (L : SameLive s t) (F : Forest s) (hr : i.isRead = false)
    (hc : i ≠ .clr) (h : body i s = .error e) : body i t = .error e := by
  have h1 := F.body_faults hr hc
  have h2 := (F.sameQueue L.queue L.freq L.nextsym).body_faults hr hc
  rw [h] at h1
  rw [← L.firstFault] at h2
  cases hb : body i t with
  | ok a => rw [hb] at h2; simp only at h1 h2; rw [h1] at h2; cases h2
  | error y =>
    rw [hb] at h2
    simp only at h1 h2
    rw [h1] at h2
    rw [code_injective (Option.some.inj h2)]

end Sys2Proof.Machine
end

