-- ==== Sys2Proof/Laws/PerInstr.lean ====
section
/-! SUPPORT. The per-instruction family TableRow: a command's mask and match value are its row of the opcode table, and the row
accepts the command's word (30_encoding.md rule R81, rule R83). -/

namespace Sys2Proof.Laws.TableRow

open Sys2Proof

/-- The row of i is in the table, and accepts the word of i. -/
def Statement (i : Instr) : Prop := i.row ∈ opcodeTable ∧ i.row.accepts (encode i) = true

theorem nop : Statement .nop := ⟨by decide, by decide⟩

theorem clr : Statement .clr := ⟨by decide, by decide⟩

theorem count (a : Byte) : Statement (.count a) := by
  refine ⟨by simp [Instr.row, Instr.mask, Instr.opcode, opcodeTable], ?_⟩
  revert a; decide +kernel

theorem build : Statement .build := ⟨by decide, by decide⟩

theorem gen : Statement .gen := ⟨by decide, by decide⟩

theorem enc (a : Byte) : Statement (.enc a) := by
  refine ⟨by simp [Instr.row, Instr.mask, Instr.opcode, opcodeTable], ?_⟩
  revert a; decide +kernel

theorem flush : Statement .flush := ⟨by decide, by decide⟩

theorem pqInit : Statement .pqInit := ⟨by decide, by decide⟩

theorem leaf (a : Byte) : Statement (.leaf a) := by
  refine ⟨by simp [Instr.row, Instr.mask, Instr.opcode, opcodeTable], ?_⟩
  revert a; decide +kernel

theorem pqExt : Statement .pqExt := ⟨by decide, by decide⟩

theorem merge : Statement .merge := ⟨by decide, by decide⟩

theorem rdStatus : Statement .rdStatus := ⟨by decide, by decide⟩

theorem rdPqstat : Statement .rdPqstat := ⟨by decide, by decide⟩

theorem rdFreq (a : Byte) : Statement (.rdFreq a) := by
  refine ⟨by simp [Instr.row, Instr.mask, Instr.opcode, opcodeTable], ?_⟩
  revert a; decide +kernel

theorem rdPq (a : BitVec 9) : Statement (.rdPq a) := by
  refine ⟨by simp [Instr.row, Instr.mask, Instr.opcode, opcodeTable], ?_⟩
  revert a; decide +kernel

theorem rdNode (a : Handle) (b : BitVec 2) : Statement (.rdNode a b) := by
  refine ⟨by simp [Instr.row, Instr.mask, Instr.opcode, opcodeTable], ?_⟩
  revert a b; decide +kernel

theorem rdClen (a : Byte) : Statement (.rdClen a) := by
  refine ⟨by simp [Instr.row, Instr.mask, Instr.opcode, opcodeTable], ?_⟩
  revert a; decide +kernel

theorem rdCode (a : Byte) (b : BitVec 3) : Statement (.rdCode a b) := by
  refine ⟨by simp [Instr.row, Instr.mask, Instr.opcode, opcodeTable], ?_⟩
  revert a b; decide +kernel

end Sys2Proof.Laws.TableRow
end

