-- ==== Sys2Proof/Laws/Ports.lean ====
section
/-! SUPPORT. A command does not read the ports (10_state.md rule R37): whatever the host will do next, the responses issued before and the
bytes emitted before make no difference to what it does. -/

namespace Sys2Proof.Machine

/-- s with other things for the host to do, and after other responses and bytes. -/
def rebase (c : List HostEvent) (r : List Response) (o : List Byte) (s : State) : State :=
  { s with cmd := c, rsp := r ++ s.rsp, out := o ++ s.out }

theorem respond_rebase (c : List HostEvent) (r : List Response) (o : List Byte) (d : Word) (s : State) :
    respond d (rebase c r o s) = rebase c r o (respond d s) := by simp [respond, rebase]

theorem refuse_rebase (c : List HostEvent) (r : List Response) (o : List Byte) (s : State) :
    refuse (rebase c r o s) = rebase c r o (refuse s) := by simp [refuse, rebase]

theorem raise_rebase (c : List HostEvent) (r : List Response) (o : List Byte) (e : Cause) (s : State) :
    raise e (rebase c r o s) = rebase c r o (raise e s) := by simp [raise, refuse, rebase]

theorem sameQueue_rebase (c : List HostEvent) (r : List Response) (o : List Byte) (s : State) :
    SameQueue s (rebase c r o s) := ⟨rfl, fun _ _ => rfl, rfl, fun _ _ => rfl⟩

theorem leafStep_rebase {b : Byte} {s t : State} {h : Handle} (c : List HostEvent) (r : List Response) (o : List Byte)
    (e : leafStep b s = .ok (t, h)) : leafStep b (rebase c r o s) = .ok (rebase c r o t, h) := by
  simp only [leafStep, except_bind_ok, except_pure, Except.ok.injEq, Prod.mk.injEq] at e ⊢
  obtain ⟨⟨u, h'⟩, ha, v, hi, rfl, rfl⟩ := e
  obtain ⟨h1, rfl, rfl⟩ := nodeAlloc_ok.1 ha
  obtain ⟨h2, rfl⟩ := pqInsert_ok.1 hi
  exact ⟨⟨_, _⟩, nodeAlloc_ok.2 ⟨h1, rfl, rfl⟩, _, pqInsert_ok.2 ⟨h2, rfl⟩, rfl, rfl⟩

theorem mergeStep_rebase {s t : State} {p : Handle} (c : List HostEvent) (r : List Response) (o : List Byte)
    (e : mergeStep s = .ok (t, p)) : mergeStep (rebase c r o s) = .ok (rebase c r o t, p) := by
  simp only [mergeStep, except_bind_ok, except_pure, Except.ok.injEq, Prod.mk.injEq] at e ⊢
  obtain ⟨⟨a, l⟩, ea, ⟨b, x⟩, eb, ⟨c', q⟩, ec, d, ed, rfl, rfl⟩ := e
  obtain ⟨h1, rfl, rfl⟩ := pqExtractMin_ok.1 ea
  obtain ⟨h2, rfl, rfl⟩ := pqExtractMin_ok.1 eb
  obtain ⟨h3, rfl, rfl⟩ := nodeAlloc_ok.1 ec
  obtain ⟨h4, rfl⟩ := pqInsert_ok.1 ed
  exact ⟨⟨_, _⟩, pqExtractMin_ok.2 ⟨h1, rfl, rfl⟩, ⟨_, _⟩, pqExtractMin_ok.2 ⟨h2, rfl, rfl⟩, ⟨_, _⟩,
    nodeAlloc_ok.2 ⟨h3, rfl, rfl⟩, _, pqInsert_ok.2 ⟨h4, rfl⟩, rfl, rfl⟩

theorem buildLeaves_rebase (c : List HostEvent) (r : List Response) (o : List Byte) : ∀ {bs : List Byte} {s t : State},
    buildLeaves bs s = .ok t → buildLeaves bs (rebase c r o s) = .ok (rebase c r o t)
  | [], s, t, e => by cases e; rfl
  | b :: bs, s, t, e => by
    simp only [buildLeaves] at e ⊢
    have : freqAt (rebase c r o s) b = freqAt s b := rfl
    rw [this]
    split_ifs at e ⊢
    · exact buildLeaves_rebase c r o e
    · obtain ⟨⟨u, h⟩, e1, e2⟩ := except_bind_ok.1 e
      exact except_bind_ok.2 ⟨(_, h), leafStep_rebase c r o e1, buildLeaves_rebase c r o e2⟩

theorem mergeLoop_rebase (c : List HostEvent) (r : List Response) (o : List Byte) : ∀ {n : Nat} {s t : State},
    mergeLoop n s = .ok t → mergeLoop n (rebase c r o s) = .ok (rebase c r o t)
  | 0, s, t, e => by cases e; rfl
  | n + 1, s, t, e => by
    simp only [mergeLoop] at e ⊢
    have : (rebase c r o s).size = s.size := rfl
    rw [this]
    split_ifs at e ⊢
    · obtain ⟨⟨u, h⟩, e1, e2⟩ := except_bind_ok.1 e
      exact except_bind_ok.2 ⟨(_, h), mergeStep_rebase c r o e1, mergeLoop_rebase c r o e2⟩
    · cases e; rfl

theorem writeCodes_rebase (c : List HostEvent) (r : List Response) (o : List Byte) (es : List (Byte × List Bool)) :
    ∀ s, writeCodes es (rebase c r o s) = rebase c r o (writeCodes es s) := by
  induction es with
  | nil => exact fun _ => rfl
  | cons e es ih => exact fun s => ih (setCode e.1 e.2 s)

theorem shiftBits_rebase (c : List HostEvent) (r : List Response) (o : List Byte) (cs : List Bool) :
    ∀ s, shiftBits cs (rebase c r o s) = rebase c r o (shiftBits cs s) := by
  induction cs with
  | nil => exact fun _ => rfl
  | cons x cs ih =>
    intro s
    have : shiftBit x (rebase c r o s) = rebase c r o (shiftBit x s) := by
      simp only [shiftBit, rebase]; split <;> simp_all [emit]
    exact (congrArg (shiftBits cs) this).trans (ih _)

theorem flushBits_rebase (c : List HostEvent) (r : List Response) (o : List Byte) (s : State) :
    flushBits (rebase c r o s) = rebase c r o (flushBits s) := by
  simp only [flushBits, rebase]; split <;> simp_all [emit]

theorem body_ok_rebase {i : Instr} {s u : State} {d : Word} (c : List HostEvent) (r : List Response) (o : List Byte)
    (F : Forest s) (e : body i s = .ok (u, d)) : body i (rebase c r o s) = .ok (rebase c r o u, d) := by
  cases i <;> simp only [body] at e ⊢
  case nop => cases e; rfl
  case count b =>
    obtain ⟨h0, h1, rfl, rfl⟩ := countBody_ok.1 e
    exact countBody_ok.2 ⟨h0, h1, rfl, rfl⟩
  case build =>
    obtain ⟨hb, v, e1, e2, rfl⟩ := buildBody_ok.1 e
    exact buildBody_ok.2 ⟨hb, _, buildLeaves_rebase c r o e1, mergeLoop_rebase c r o e2, rfl⟩
  case gen =>
    obtain ⟨h0, h1, hd, rfl, rfl⟩ := genBody_ok.1 e
    have Q := sameQueue_rebase c r o s
    have ha := F.heapAllocated 0 (by simp [h1])
    refine genBody_ok.2 ⟨h0, h1, ?_, ?_, rfl⟩
    · rw [← Q.heap 0 (by simp [h1]), ← Q.depthAtMost F _ _ ha]; exact hd
    · rw [← Q.heap 0 (by simp [h1]), ← Q.genEntries F ha]
      exact congrArg (fun x => { x with codeValid := true })
        (writeCodes_rebase c r o (genEntries s (heapAt s 0)) (clearCodes s)).symm
  case enc b =>
    obtain ⟨h0, h1, rfl, rfl⟩ := encBody_ok.1 e
    exact encBody_ok.2 ⟨h0, h1, (shiftBits_rebase c r o _ s).symm, rfl⟩
  case flush => cases e; rw [flushBits_rebase]
  case pqInit => cases e; rfl
  case leaf b =>
    obtain ⟨h0, h1, x, e1, rfl⟩ := leafBody_ok.1 e
    exact leafBody_ok.2 ⟨h0, h1, x, leafStep_rebase c r o e1, rfl⟩
  case pqExt =>
    obtain ⟨m, e1, rfl⟩ := pqExtBody_ok.1 e
    obtain ⟨h1, rfl, rfl⟩ := pqExtractMin_ok.1 e1
    exact pqExtBody_ok.2 ⟨_, pqExtractMin_ok.2 ⟨h1, rfl, rfl⟩, rfl⟩
  case merge =>
    obtain ⟨h2, p, e1, rfl⟩ := mergeBody_ok.1 e
    exact mergeBody_ok.2 ⟨h2, p, mergeStep_rebase c r o e1, rfl⟩
  all_goals cases e

theorem forest_rebase {s : State} (c : List HostEvent) (r : List Response) (o : List Byte) (F : Forest s) :
    Forest (rebase c r o s) := F.congr rfl rfl rfl rfl rfl rfl

theorem body_error_rebase {i : Instr} {s : State} {x : Cause} (c : List HostEvent) (r : List Response) (o : List Byte)
    (F : Forest s) (hr : i.isRead = false) (hc : i ≠ .clr) (e : body i s = .error x) :
    body i (rebase c r o s) = .error x := by
  have h := F.body_faults hr hc
  have h' := (forest_rebase c r o F).body_faults hr hc
  have hf : firstFault i (rebase c r o s) = firstFault i s := by cases i <;> rfl
  rw [e] at h
  simp only [hf] at h'
  cases hb : body i (rebase c r o s) with
  | ok a => rw [hb] at h'; simp only at h'; rw [h'] at h; cases h
  | error y =>
    rw [hb] at h'
    simp only at h h'
    rw [h] at h'
    rw [code_injective (Option.some.inj h').symm]

/-- A command does the same whatever the ports hold. -/
theorem exec_rebase {i : Instr} {s t : State} (c : List HostEvent) (r : List Response) (o : List Byte)
    (F : Forest s) (h : exec i s = .next t) : exec i (rebase c r o s) = .next (rebase c r o t) := by
  by_cases hc : i = .clr
  · subst hc
    obtain rfl := Host.Outcome.next.inj h
    exact congrArg Host.Outcome.next (respond_rebase c r o 0#32 (clearState s))
  · cases hw : i.wellFormed
    · rw [exec_illFormed hw] at h ⊢
      obtain rfl := Host.Outcome.next.inj h
      simp only [execIllegal, command]
      have : (rebase c r o s).fault = s.fault := rfl
      rw [this]
      cases s.fault
      · simp [complete, raise_rebase]
      · simp [refuse_rebase]
    · cases hr : i.isRead
      · rw [exec_command hr hc] at h ⊢
        have hf' : (rebase c r o s).fault = s.fault := rfl
        rcases command_cases h with ⟨hf, rfl⟩ | ⟨hf, u, d, hb, rfl⟩ | ⟨hf, e, hb, rfl⟩
        · rw [command_faulted (hf'.trans hf), refuse_rebase]
        · rw [body_ok_rebase c r o F hb, command_ok (hf'.trans hf), respond_rebase]
        · rw [body_error_rebase c r o F hr hc hb, command_error (hf'.trans hf), raise_rebase]
      · rw [exec_read hr hw] at h ⊢
        have hd : readData i (rebase c r o s) = readData i s := by cases i <;> rfl
        rw [hd]
        have hf' : (rebase c r o s).fault = s.fault := rfl
        rcases readCommand_cases h with ⟨d, hb, rfl⟩ | ⟨hf, ht⟩ | ⟨hf, e, hb, rfl⟩
        · simp [readCommand, hb, respond_rebase]
        · subst ht
          cases hb : readData i s with
          | error e => simp [readCommand, hf', hf, refuse_rebase]
          | ok d =>
            rw [hb] at h
            simp only [readCommand, Host.Outcome.next.injEq] at h
            simp only [readCommand, respond_rebase, h]
        · simp [readCommand, hb, hf', hf, raise_rebase]

end Sys2Proof.Machine
end

