-- ==== Sys2Proof/Laws/Sift.lean ====
section
/-! SUPPORT. Where the sift loops leave every entry: the loop-free descriptions of Safety.lean. -/

namespace Sys2Proof.Machine

theorem parentPos_lt {i : Nat} (h : i ≠ 0) : parentPos i < i := by unfold parentPos; omega

theorem parentPos_iterate_le (m i : Nat) : parentPos^[m] i ≤ i := by
  induction m generalizing i with
  | zero => exact le_rfl
  | succ m ih =>
    rw [Function.iterate_succ_apply]
    exact (ih _).trans (by unfold parentPos; omega)

/-- Sifting an entry up from position i, over all positions. -/
theorem siftUp_places (w : Handle → Weight) : ∀ (fuel : Nat) (a : Vector Handle 256) (i : Nat), i ≤ fuel → i < 256 →
    ∃ k,
      (∀ m, m < k → 0 < parentPos^[m] i ∧ w (heapGet a i) < w (heapGet a (parentPos^[m + 1] i)) ∧
        heapGet (siftUp w fuel a i) (parentPos^[m] i) = heapGet a (parentPos^[m + 1] i)) ∧
      heapGet (siftUp w fuel a i) (parentPos^[k] i) = heapGet a i ∧
      (parentPos^[k] i = 0 ∨ ¬ w (heapGet a i) < w (heapGet a (parentPos^[k + 1] i))) ∧
      ∀ j, (∀ m, m ≤ k → j ≠ parentPos^[m] i) → heapGet (siftUp w fuel a i) j = heapGet a j
  | 0, a, i, hf, _ => ⟨0, by omega, rfl, .inl (by simpa using hf), fun _ _ => rfl⟩
  | fuel + 1, a, i, hf, hi => by
    simp only [siftUp]
    by_cases h0 : i = 0
    · rw [if_pos h0]
      exact ⟨0, by omega, rfl, .inl (by simpa using h0), fun _ _ => rfl⟩
    · have hp := parentPos_lt h0
      have hpe : (i - 1) / 2 = parentPos i := rfl
      rw [if_neg h0, hpe]
      split_ifs with hw
      · have hs := heapGet_heapSwap hi (hp.trans hi) a
        obtain ⟨k, h1, h2, h3, h4⟩ := siftUp_places w fuel (heapSwap a i (parentPos i)) (parentPos i) (by omega) (hp.trans hi)
        have hx : heapGet (heapSwap a i (parentPos i)) (parentPos i) = heapGet a i := by rw [hs, if_pos rfl]
        rw [hx] at h1 h2 h3
        have hlow : ∀ m, 0 < parentPos^[m] (parentPos i) →
            heapGet (heapSwap a i (parentPos i)) (parentPos^[m + 1] (parentPos i)) =
              heapGet a (parentPos^[m + 1] (parentPos i)) := by
          intro m hm
          have : parentPos^[m + 1] (parentPos i) < parentPos^[m] (parentPos i) := by
            rw [Function.iterate_succ_apply']; exact parentPos_lt (by omega)
          have := parentPos_iterate_le m (parentPos i)
          rw [hs, if_neg (by omega), if_neg (by omega)]
        refine ⟨k + 1, ?_, ?_, ?_, ?_⟩
        · intro m hm
          cases m with
          | zero =>
            refine ⟨by simpa using Nat.pos_of_ne_zero h0, hw, ?_⟩
            have := h4 i fun m _ => by have := parentPos_iterate_le m (parentPos i); omega
            simp only [Function.iterate_zero, id_eq, Function.iterate_one, zero_add]
            rw [this, hs, if_neg (by omega), if_pos rfl]
          | succ m =>
            obtain ⟨g1, g2, g3⟩ := h1 m (by omega)
            rw [hlow m g1] at g2 g3
            simpa only [Function.iterate_succ_apply] using ⟨g1, g2, g3⟩
        · simpa only [Function.iterate_succ_apply] using h2
        · simp only [Function.iterate_succ_apply] at *
          rcases Nat.eq_zero_or_pos (parentPos^[k] (parentPos i)) with h | h
          · exact .inl h
          · rcases h3 with h3 | h3
            · exact .inl h3
            · rw [hlow k h] at h3; exact .inr h3
        · intro j hj
          have hji : j ≠ i := by simpa using hj 0 (by omega)
          have hjp : j ≠ parentPos i := by simpa using hj 1 (by omega)
          rw [h4 j fun m hm => by simpa only [Function.iterate_succ_apply] using hj (m + 1) (by omega), hs, if_neg hjp,
            if_neg hji]
      · exact ⟨0, by omega, rfl, .inr (by simpa using hw), fun _ _ => rfl⟩

/-- `pq_insert` (41_priority_queue.md rule R112). -/
theorem pqInsert_siftedUp {h : Handle} {s t : State} (e : pqInsert h s = .ok t) :
    SiftedUp (wt s) s.size.toNat h (heapAt s) (heapAt t) := by
  obtain ⟨hs, rfl⟩ := pqInsert_ok.1 e
  obtain ⟨k, h1, h2, h3, h4⟩ :=
    siftUp_places (wt s) s.size.toNat (heapSet s.heap s.size.toNat h) s.size.toNat le_rfl hs
  have g := heapGet_heapSet hs s.heap h
  rw [g, if_pos rfl] at h1 h2 h3
  have hlow : ∀ m, 0 < parentPos^[m] s.size.toNat →
      heapGet (heapSet s.heap s.size.toNat h) (parentPos^[m + 1] s.size.toNat) = heapAt s (parentPos^[m + 1] s.size.toNat) := by
    intro m hm
    have : parentPos^[m + 1] s.size.toNat < parentPos^[m] s.size.toNat := by
      rw [Function.iterate_succ_apply']; exact parentPos_lt (by omega)
    have := parentPos_iterate_le m s.size.toNat
    rw [g, if_neg (by omega)]; rfl
  refine ⟨k, ?_, h2, ?_, ?_⟩
  · intro m hm
    obtain ⟨g1, g2, g3⟩ := h1 m hm
    rw [hlow m g1] at g2 g3
    exact ⟨g1, g2, g3⟩
  · rcases Nat.eq_zero_or_pos (parentPos^[k] s.size.toNat) with h0 | h0
    · exact .inl h0
    · rcases h3 with h3 | h3
      · exact .inl h3
      · rw [hlow k h0] at h3; exact .inr h3
  · intro i _ hi
    have : i ≠ s.size.toNat := by simpa using hi 0 (by omega)
    exact (h4 i hi).trans (by rw [g, if_neg this]; rfl)

theorem siftChoice_stay {w : Handle → Weight} {n : Nat} {a : Vector Handle 256} {i : Nat} (h : siftChoice w n a i = i) :
    ∀ c, c = 2 * i + 1 ∨ c = 2 * i + 2 → c < n → ¬ w (heapGet a c) < w (heapGet a i) := by
  simp only [siftChoice] at h
  split_ifs at h with h1 h2 h2
  all_goals first | omega | skip
  rintro c (rfl | rfl) hc hlt
  · exact h1 ⟨hc, hlt⟩
  · exact h2 ⟨hc, hlt⟩

theorem siftChoice_move {w : Handle → Weight} {n : Nat} {a : Vector Handle 256} {i : Nat} (h : siftChoice w n a i ≠ i) :
    IsLighterChild w n (heapGet a) i (siftChoice w n a i) ∧ w (heapGet a (siftChoice w n a i)) < w (heapGet a i) := by
  simp only [siftChoice] at h ⊢
  split_ifs at h ⊢ with h1 h2 h2
  · exact ⟨⟨h2.1, .inr ⟨rfl, h2.2⟩⟩, BitVec.lt_def.2 ((BitVec.lt_def.1 h2.2).trans (BitVec.lt_def.1 h1.2))⟩
  · refine ⟨⟨h1.1, .inl ⟨rfl, fun hr => ?_⟩⟩, h1.2⟩
    exact BitVec.not_lt.1 fun q => h2 ⟨hr, q⟩
  · refine ⟨⟨h2.1, .inr ⟨rfl, ?_⟩⟩, h2.2⟩
    have hl : ¬ w (heapGet a (2 * i + 1)) < w (heapGet a i) := fun q => h1 ⟨by omega, q⟩
    exact BitVec.lt_def.2 ((BitVec.lt_def.1 h2.2).trans_le (BitVec.le_def.1 (BitVec.not_lt.1 hl)))
  · exact absurd rfl h

/-- Sifting an entry down from position i. -/
theorem siftDown_places (w : Handle → Weight) {n : Nat} (hn : n ≤ 256) : ∀ (fuel : Nat) (a : Vector Handle 256) (i : Nat),
    n ≤ fuel + i → i < n →
    ∃ (k : Nat) (path : Nat → Nat), path 0 = i ∧
      (∀ m, m < k → IsLighterChild w n (heapGet a) (path m) (path (m + 1)) ∧ w (heapGet a (path (m + 1))) < w (heapGet a i) ∧
        heapGet (siftDown w n fuel a i) (path m) = heapGet a (path (m + 1))) ∧
      (∀ m, m ≤ k → i ≤ path m) ∧
      heapGet (siftDown w n fuel a i) (path k) = heapGet a i ∧
      (∀ c, c = 2 * path k + 1 ∨ c = 2 * path k + 2 → c < n → ¬ w (heapGet a c) < w (heapGet a i)) ∧
      ∀ j, (∀ m, m ≤ k → j ≠ path m) → heapGet (siftDown w n fuel a i) j = heapGet a j
  | 0, a, i, hf, hi => by omega
  | fuel + 1, a, i, hf, hi => by
    simp only [siftDown]
    by_cases h0 : siftChoice w n a i = i
    · rw [if_pos h0]
      exact ⟨0, fun _ => i, rfl, by omega, fun _ _ => le_rfl, rfl, siftChoice_stay h0, fun _ _ => rfl⟩
    · rw [if_neg h0]
      obtain ⟨hc, hw⟩ := siftChoice_move h0
      generalize hs : siftChoice w n a i = c at *
      have hcn : c < n := hc.1
      have hic : i < c := by rcases hc.2 with ⟨h, -⟩ | ⟨h, -⟩ <;> omega
      have sw := heapGet_heapSwap (show i < 256 by omega) (show c < 256 by omega) a
      obtain ⟨k, path, p0, h1, hge, h2, h3, h4⟩ := siftDown_places w hn fuel (heapSwap a i c) c (by omega) hcn
      have hx : heapGet (heapSwap a i c) c = heapGet a i := by rw [sw, if_pos rfl]
      have hlow : ∀ j, c < j → heapGet (heapSwap a i c) j = heapGet a j := by
        intro j hj; rw [sw, if_neg (by omega), if_neg (by omega)]
      rw [hx] at h1 h2 h3
      refine ⟨k + 1, fun m => if m = 0 then i else path (m - 1), by simp, ?_, ?_, ?_, ?_, ?_⟩
      · intro m hm
        cases m with
        | zero =>
          simp only [if_true, zero_add, Nat.one_ne_zero, if_false, Nat.sub_self, p0]
          refine ⟨hc, hw, ?_⟩
          rw [h4 i fun m hm => by have := hge m hm; omega, sw, if_neg (by omega), if_pos rfl]
        | succ m =>
          obtain ⟨g1, g2, g3⟩ := h1 m (by omega)
          have gm := hge m (by omega)
          have gl : path m < path (m + 1) := by rcases g1.2 with ⟨h, -⟩ | ⟨h, -⟩ <;> omega
          have e1 : (m + 1 + 1 : Nat) ≠ 0 := by omega
          simp only [Nat.succ_ne_zero, if_false, Nat.add_sub_cancel, e1]
          rw [hlow _ (by omega)] at g2 g3
          refine ⟨⟨g1.1, ?_⟩, g2, g3⟩
          have := g1.2
          rw [hlow _ (by omega : c < 2 * path m + 1), hlow _ (by omega : c < 2 * path m + 2)] at this
          exact this
      · intro m hm
        cases m with
        | zero => simp
        | succ m => have := hge m (by omega); simp; omega
      · simpa using h2
      · have gk := hge k le_rfl
        intro d hd hdn
        simp only [Nat.succ_ne_zero, if_false, Nat.add_sub_cancel] at hd
        have := h3 d hd hdn
        rwa [hlow d (by omega)] at this
      · intro j hj
        have hji : j ≠ i := by simpa using hj 0 (by omega)
        have hjp : ∀ m, m ≤ k → j ≠ path m := fun m hm => by simpa using hj (m + 1) (by omega)
        rw [h4 j hjp, sw, if_neg (by simpa [p0] using hjp 0 (by omega)), if_neg hji]

/-- `pq_extract_min` (41_priority_queue.md rule R114, rule R115). -/
theorem pqExtractMin_siftedDown {s t : State} {m : Handle} (e : pqExtractMin s = .ok (t, m)) (hs : s.size.toNat ≤ 256) :
    SiftedDown (wt s) (s.size.toNat - 1) (heapAt s (s.size.toNat - 1)) (heapAt s) (heapAt t) := by
  obtain ⟨h1, rfl, rfl⟩ := pqExtractMin_ok.1 e
  have g := heapGet_heapSet (show 0 < 256 by omega) s.heap (heapAt s (s.size.toNat - 1))
  generalize hx : heapAt s (s.size.toNat - 1) = x at *
  rcases Nat.eq_zero_or_pos (s.size.toNat - 1) with h0 | h0
  · refine ⟨0, fun _ => 0, rfl, by omega, ?_, by omega, by omega⟩
    simp only [heapAt, h0, siftDown]
    rw [g, if_pos rfl]
  · obtain ⟨k, path, p0, q1, qge, q2, q3, q4⟩ :=
      siftDown_places (wt s) (n := s.size.toNat - 1) (by omega) (s.size.toNat - 1) (heapSet s.heap 0 x) 0 (by omega) h0
    rw [g 0, if_pos rfl] at q1 q2 q3
    have hlow : ∀ j, 0 < j → heapGet (heapSet s.heap 0 x) j = heapAt s j := by
      intro j hj; rw [g, if_neg (by omega)]; rfl
    refine ⟨k, path, p0, ?_, q2, ?_, ?_⟩
    · intro m hm
      obtain ⟨g1, g2, g3⟩ := q1 m hm
      have gl : path m < path (m + 1) := by rcases g1.2 with ⟨h, -⟩ | ⟨h, -⟩ <;> omega
      rw [hlow _ (by omega)] at g2 g3
      refine ⟨⟨g1.1, ?_⟩, g2, g3⟩
      have := g1.2
      rw [hlow _ (by omega : 0 < 2 * path m + 1), hlow _ (by omega : 0 < 2 * path m + 2)] at this
      exact this
    · intro c hc hcn
      have := q3 c hc hcn
      rwa [hlow c (by omega)] at this
    · intro i hi hp
      have : i ≠ 0 := by simpa [p0] using hp 0 (by omega)
      exact (q4 i hp).trans (hlow i (by omega))

end Sys2Proof.Machine
end

