-- ==== Sys2Proof/Tests/Slice0.lean ====
section
/-! SUPPORT. Tests: words of 95_test_vectors.md part V1 and what they decode to, ill-formed terms, one-step vectors of parts V2 to
V7, and for each statement with hypotheses a witness that meets them. Every expected number is the vector's or is worked out by hand from
the rule named. -/

namespace Sys2Proof.Tests

open Sys2Proof.Machine

set_option Elab.async false

/-! ## Helpers -/

/-- The command ends in a next state that passes the check. -/
def onNext (r : Result) (p : State → Bool) : Bool :=
  match r with
  | .next t => p t
  | _ => false

theorem exists_of_onNext {r : Result} {p : State → Bool} (h : onNext r p = true) : ∃ t, r = .next t ∧ p t = true := by
  cases r with
  | next t => exact ⟨t, rfl, h⟩
  | fault f => simp [onNext] at h
  | refused f => simp [onNext] at h

/-- The last response is (err, data). -/
def responded (err : Bool) (data : Word) (s : State) : Bool := s.rsp.getLast? == some ⟨err, data⟩

/-- The reset state with these frequencies. -/
def freqs (fs : List (Byte × Freq)) : State := fs.foldl (fun s e => setFreq e.1 e.2 s) State.reset

/-- A leaf record, and an internal one (10_state.md rule R23). -/
def leafOf (b : Byte) (w : Weight) : Node := ⟨.leaf, b, w, 0x1FF#9, 0x1FF#9⟩
def joinOf (w : Weight) (l r : Handle) : Node := ⟨.internal, 0#8, w, l, r⟩

/-- s with these arena records and these heap entries. -/
def withTree (nodes : List Node) (heap : List Handle) (s : State) : State :=
  { s with
    node := (List.range nodes.length).foldl (fun a k => nodeSet a (BitVec.ofNat 9 k) (nodes.getD k (leafOf 0#8 0#40))) s.node
    nnodes := BitVec.ofNat 9 nodes.length
    heap := (List.range heap.length).foldl (fun a k => heapSet a k (heap.getD k 0#9)) s.heap
    size := BitVec.ofNat 9 heap.length }

/-- s with this code table and these pending bits. -/
def withCodes (cs : List (Byte × List Bool)) (acc : Byte) (cnt : BitVec 3) (s : State) : State :=
  { cs.foldl (fun s e => setCode e.1 e.2 s) s with codeValid := true, acc := acc, cnt := cnt }

/-- s in the faulted state (60_exceptions.md rule R172). -/
def faulted (code : BitVec 4) (s : State) : State := { s with fault := true, err := code }

/-- The state after a run of commands that all end in a next state. -/
def after (is : List Instr) (s : State) : State :=
  match execAll is s with
  | .next t => t
  | _ => s

theorem execAll_after (is : List Instr) (s : State) : execAll is s = .next (after is s) := by
  obtain ⟨t, h⟩ := execAll_next is s
  simp [after, h]

theorem inv_after {s : State} (I : Invariants s) (is : List Instr) : Invariants (after is s) := I.execAll (execAll_after is s)

theorem inv_reset : Invariants State.reset := inv_of_resetValues (resetValues_resetCore State.reset)

/-- The states the witnesses use: reset with the frequencies of "aaab" and of "aaaa", their trees and their code tables. -/
def aaab : State := setFreq 0x62#8 1#32 (setFreq 0x61#8 3#32 State.reset)
def aaaa : State := setFreq 0x61#8 4#32 State.reset
@[irreducible] def aaabLeaves : State := after [.leaf 0x61#8, .leaf 0x62#8] aaab
@[irreducible] def aaabTree : State := after [.merge] aaabLeaves
@[irreducible] def aaaaTree : State := after [.leaf 0x61#8] aaaa
@[irreducible] def aaabCodes : State := after [.gen] aaabTree

theorem inv_aaab : Invariants aaab := (inv_reset.count rfl _ _).count rfl _ _
theorem inv_aaaa : Invariants aaaa := inv_reset.count rfl _ _
theorem inv_aaabLeaves : Invariants aaabLeaves := by unfold aaabLeaves; exact inv_after inv_aaab _
theorem inv_aaabTree : Invariants aaabTree := by unfold aaabTree; exact inv_after inv_aaabLeaves _
theorem inv_aaaaTree : Invariants aaaaTree := by unfold aaaaTree; exact inv_after inv_aaaa _
theorem inv_aaabCodes : Invariants aaabCodes := by unfold aaabCodes; exact inv_after inv_aaabTree _

/-! ## WellFormed: the one ill-formed term (30_encoding.md rule R82) -/

theorem test_selector_three_is_ill_formed : (Instr.rdNode 5#9 3#2).wellFormed = false := by decide
theorem test_selector_two_is_well_formed : (Instr.rdNode 511#9 2#2).wellFormed = true := by decide

/-! ## Decode: 95_test_vectors.md V1, every command -/

theorem test_decode_nop : decode 0x00000000#32 = .ok .nop := by decide
theorem test_decode_clr : decode 0x01000000#32 = .ok .clr := by decide
theorem test_decode_count : decode 0x02000061#32 = .ok (.count 0x61#8) := by decide
theorem test_decode_count_last : decode 0x020000FF#32 = .ok (.count 0xFF#8) := by decide
theorem test_decode_build : decode 0x03000000#32 = .ok .build := by decide
theorem test_decode_gen : decode 0x04000000#32 = .ok .gen := by decide
theorem test_decode_enc : decode 0x05000000#32 = .ok (.enc 0#8) := by decide
theorem test_decode_flush : decode 0x06000000#32 = .ok .flush := by decide
theorem test_decode_pqInit : decode 0x10000000#32 = .ok .pqInit := by decide
theorem test_decode_leaf : decode 0x110000FF#32 = .ok (.leaf 0xFF#8) := by decide
theorem test_decode_pqExt : decode 0x12000000#32 = .ok .pqExt := by decide
theorem test_decode_merge : decode 0x13000000#32 = .ok .merge := by decide
theorem test_decode_rdStatus : decode 0x20000000#32 = .ok .rdStatus := by decide
theorem test_decode_rdPqstat : decode 0x21000000#32 = .ok .rdPqstat := by decide
theorem test_decode_rdFreq : decode 0x22000080#32 = .ok (.rdFreq 0x80#8) := by decide
theorem test_decode_rdPq : decode 0x230001FF#32 = .ok (.rdPq 511#9) := by decide
theorem test_decode_rdNode_hi : decode 0x240201FF#32 = .ok (.rdNode 511#9 2#2) := by decide
theorem test_decode_rdNode_lo : decode 0x24010005#32 = .ok (.rdNode 5#9 1#2) := by decide
theorem test_decode_rdClen : decode 0x25000061#32 = .ok (.rdClen 0x61#8) := by decide
theorem test_decode_rdCode : decode 0x26070061#32 = .ok (.rdCode 0x61#8 7#3) := by decide

/-- The illegal words of V1, with the reason V1 gives. -/
theorem test_decode_unassigned : [0x07000000#32, 0x0F000000#32, 0x14000000#32, 0x1F000000#32, 0x27000000#32, 0xFF000000#32,
    0xFFFFFFFF#32].all fun w => decide (decode w = .error .opcode) := by decide
theorem test_decode_zero_fields : [0x00000001#32, 0x01800000#32, 0x02000161#32, 0x05010061#32, 0x23000200#32, 0x24040000#32,
    0x24000200#32, 0x26080061#32, 0x26000161#32].all fun w => decide (decode w = .error .zeroField) := by decide
theorem test_decode_selector : decode 0x24030000#32 = .error .selector := by decide
theorem test_decodeTableWord : decodeTableWord 32 0x26070061 = some (.rdCode 0x61#8 7#3) ∧ decodeTableWord 32 0x07000000 = none := by
  decide

/-! ## One step of each command: 95_test_vectors.md V2 to V7 -/

theorem test_nop_faulted_is_refused : onNext (exec .nop (faulted 4#4 State.reset)) (fun t => responded true 0#32 t && t.err == 4#4) := by
  decide +kernel

/-- V2: CLR with FAULT = 1, ERR = 4, CNT = 4, ACC = 0x0E. -/
theorem test_clr_leaves_the_fault : onNext (exec .clr (faulted 4#4 (withCodes [(0x61#8, [true])] 0x0E#8 4#3 aaab)))
    (fun t => responded false 0#32 t && !t.fault && t.err == 0#4 && t.cnt == 0#3 && freqAt t 0x61#8 == 0#32 && t.out == []) := by
  decide +kernel

/-- V2: FREQ[0] = 0xFFFFFFFE, and index 255. -/
theorem test_count_to_the_maximum : onNext (exec (.count 0#8) (freqs [(0#8, 0xFFFFFFFE#32)]))
    (fun t => responded false 0#32 t && freqAt t 0#8 == 0xFFFFFFFF#32) := by decide +kernel
/-- V2: FREQ[0] = 0xFFFFFFFF and NNODES = 1: ERR_SEQ is checked before ERR_OVF. -/
theorem test_count_check_order : onNext (exec (.count 0#8) (withTree [leafOf 0#8 5#40] [] (freqs [(0#8, 0xFFFFFFFF#32)])))
    (fun t => responded true 0#32 t && t.err == 2#4) := by decide +kernel

/-- V4: BUILD of "aaab". -/
theorem test_build_aaab : onNext (exec .build aaab) (fun t => responded false 2#32 t && nodeAt t 2#9 == joinOf 4#40 1#9 0#9 &&
    pqstatView t == 0x06300C01#32) := by decide +kernel
/-- V4: BUILD of nothing. -/
theorem test_build_of_nothing : onNext (exec .build State.reset) (fun t => responded true 0#32 t && statusView t == 0x31#32) := by
  decide +kernel

/-- V5: "aabbc" has b = "0", c = "10", a = "11"; the tree is V4's. -/
theorem test_gen_aabbc : onNext (exec .gen (withTree [leafOf 0x61#8 2#40, leafOf 0x62#8 2#40, leafOf 0x63#8 1#40, joinOf 3#40 2#9 0#9,
      joinOf 5#40 1#9 3#9] [4#9] State.reset))
    (fun t => codeOf t 0x61#8 == [true, true] && codeOf t 0x62#8 == [false] && codeOf t 0x63#8 == [true, false] && t.codeValid) := by
  decide +kernel
/-- V5, S2: a root that is a leaf has the code "0". -/
theorem test_gen_single : onNext (exec .gen (withTree [leafOf 0x61#8 4#40] [0#9] aaaa)) (fun t => codeOf t 0x61#8 == [false]) := by
  decide +kernel

/-- V5: "aabbc" = 11 11 0 0 10: after "aabb" six bits 111100 are pending, the code of c completes 0xF2. -/
theorem test_enc_completes_a_byte : onNext (exec (.enc 0x63#8) (withCodes [(0x63#8, [true, false])] 0x3C#8 6#3 State.reset))
    (fun t => t.out == [0xF2#8] && t.cnt == 0#3 && t.acc == 0#8) := by decide +kernel
/-- P1: the fourth ENC of "aaab": 111 and then 0. -/
theorem test_enc_first_bit_oldest : onNext (exec (.enc 0x62#8) (withCodes [(0x62#8, [false])] 0x07#8 3#3 State.reset))
    (fun t => t.out == [] && t.acc == 0x0E#8 && t.cnt == 4#3) := by decide +kernel

/-- P1: FLUSH with ACC = 0x0E, CNT = 4 emits 0xE0. -/
theorem test_flush_pads_low : onNext (exec .flush (withCodes [] 0x0E#8 4#3 State.reset))
    (fun t => t.out == [0xE0#8] && t.acc == 0#8 && t.cnt == 0#3) := by decide +kernel

theorem test_pqInit_keeps_frequencies : onNext (exec .pqInit (withTree [leafOf 0x61#8 3#40] [0#9] aaab))
    (fun t => t.size == 0#9 && t.nnodes == 0#9 && freqAt t 0x61#8 == 3#32) := by decide +kernel

/-- V3, trace A: LEAF 'd' of weight 3 into [1(3), 0(5), 2(8)] gives [1(3), 3(3), 2(8), 0(5)]. -/
theorem test_leaf_stays_below_its_equal : onNext (exec (.leaf 0x64#8) (withTree [leafOf 0x61#8 5#40, leafOf 0x62#8 3#40,
      leafOf 0x63#8 8#40] [1#9, 0#9, 2#9] (freqs [(0x64#8, 3#32)])))
    (fun t => responded false 3#32 t && liveHeap t == [1#9, 3#9, 2#9, 0#9] && t.nextsym == 0x65#9) := by decide +kernel
/-- V3: FREQ['a'] = 0, NEXTSYM = 0x62: ERR_ORDER is checked before ERR_ZEROW. -/
theorem test_leaf_check_order : onNext (exec (.leaf 0x61#8) { State.reset with nextsym := 0x62#9 })
    (fun t => responded true 0#32 t && t.err == 6#4) := by decide +kernel

/-- V3, trace B: PQ_EXT on [0(1), 1(2), 2(2), 3(5), 4(6), 5(7), 6(9)]: the left of two equal children rises. -/
theorem test_pqExt_left_child_first : onNext (exec .pqExt (withTree [leafOf 0x41#8 1#40, leafOf 0x42#8 2#40, leafOf 0x43#8 2#40,
      leafOf 0x44#8 5#40, leafOf 0x45#8 6#40, leafOf 0x46#8 7#40, leafOf 0x47#8 9#40] [0#9, 1#9, 2#9, 3#9, 4#9, 5#9, 6#9] State.reset))
    (fun t => responded false 0#32 t && liveHeap t == [1#9, 3#9, 2#9, 6#9, 4#9, 5#9]) := by decide +kernel
theorem test_pqExt_empty : onNext (exec .pqExt State.reset) (fun t => responded true 0#32 t && t.err == 4#4) := by decide +kernel

/-- V4: MERGE of two leaves of weight 2^32 - 1: the 40-bit sum does not wrap. -/
theorem test_merge_does_not_wrap : onNext (exec .merge (withTree [leafOf 0#8 0xFFFFFFFF#40, leafOf 0xFF#8 0xFFFFFFFF#40] [0#9, 1#9]
      State.reset))
    (fun t => responded false 2#32 t && nodeAt t 2#9 == joinOf 0x1FFFFFFFE#40 0#9 1#9 && liveHeap t == [2#9]) := by decide +kernel
theorem test_merge_of_one : onNext (exec .merge (withTree [leafOf 0#8 5#40] [0#9] State.reset))
    (fun t => responded true 0#32 t && t.err == 4#4 && liveHeap t == [0#9]) := by decide +kernel

/-- P1: STATUS after the four ENCs of "aaab". -/
theorem test_rdStatus : onNext (exec .rdStatus (withCodes [] 0x0E#8 4#3 State.reset)) (responded false 0x000E0402#32) := by decide +kernel
/-- V3: PQSTAT with SIZE = NNODES = 7, NEXTSYM = 0x68. -/
theorem test_rdPqstat : onNext (exec .rdPqstat { State.reset with size := 7#9, nnodes := 7#9, nextsym := 0x68#9 })
    (responded false 0x06801C07#32) := by decide +kernel
theorem test_rdFreq_while_faulted : onNext (exec (.rdFreq 0x61#8) (faulted 3#4 aaab)) (fun t => responded false 3#32 t && t.fault) := by
  decide +kernel
theorem test_rdPq_last : onNext (exec (.rdPq 1#9) (withTree [] [4#9, 3#9] State.reset)) (responded false 3#32) := by decide +kernel
theorem test_rdPq_size : onNext (exec (.rdPq 2#9) (withTree [] [4#9, 3#9] State.reset))
    (fun t => responded true 0#32 t && t.err == 9#4) := by decide +kernel
/-- P4: LINKS of a leaf 'a'. -/
theorem test_rdNode_links : onNext (exec (.rdNode 0#9 0#2) (withTree [leafOf 0x61#8 4#40] [0#9] State.reset))
    (responded false 0x0587FFFF#32) := by decide +kernel
/-- V4: WT_HI of the sum 0x1FFFFFFFE. -/
theorem test_rdNode_weight_high : onNext (exec (.rdNode 0#9 2#2) (withTree [joinOf 0x1FFFFFFFE#40 0#9 1#9] [0#9] State.reset))
    (responded false 1#32) := by decide +kernel
theorem test_rdClen : onNext (exec (.rdClen 0x72#8) (withCodes [(0x72#8, [true, true, false])] 0#8 0#3 State.reset))
    (responded false 3#32) := by decide +kernel
/-- V5: the code "110" of r, and the second word of a code of 33 ones. -/
theorem test_rdCode_first_bit_is_bit_31 : onNext (exec (.rdCode 0x72#8 0#3) (withCodes [(0x72#8, [true, true, false])] 0#8 0#3 State.reset))
    (responded false 0xC0000000#32) := by decide +kernel
theorem test_rdCode_second_word : onNext (exec (.rdCode 0x21#8 1#3) (withCodes [(0x21#8, List.replicate 33 true)] 0#8 0#3 State.reset))
    (responded false 0x80000000#32) := by decide +kernel

/-- A step: an illegal word, RST in the middle of a FLUSH, a sink that stalls (70_reset_and_hazards.md rule R190, rule R201). -/
theorem test_step_illegal_word : onNext (step (State.reset.withFetchWord 32 0x24030000)) (fun t => statusView t == 0x11#32) := by
  decide +kernel
theorem test_step_rst_keeps_out : onNext (step { withCodes [] 0x0E#8 4#3 State.reset with cmd := [.commandThenRst 0x06000000#32 0], out := [1#8] })
    (fun t => t.out == [1#8] && t.rsp == [] && t.cnt == 0#3 && t.cmd == []) := by decide +kernel

/-! ## Witnesses: for each statement with hypotheses, states and operands that meet them, clause by clause -/

theorem witness_DecodeAndEncodeAgree : (Instr.rdNode 511#9 2#2).wellFormed = true ∧ (Instr.rdCode 0xFF#8 7#3).wellFormed = true ∧
    decode 0x240201FF#32 = .ok (.rdNode 511#9 2#2) ∧ decode 0#32 = .ok .nop := by decide

/-- A word of each kind that rule R86 names, at both ends of each range of opcodes, and the legal words beside them. -/
theorem witness_IllegalWordsAreThoseOfTheRule :
    ([0x07000000#32, 0x0F000000#32, 0x14000000#32, 0x1F000000#32, 0x27000000#32, 0xFFFFFFFF#32, 0x06000001#32, 0x05FFFF00#32, 0x23FFFE00#32,
      0x24000200#32, 0x24040000#32, 0x24030000#32, 0x26080000#32, 0x26000100#32].all fun w => (decode w).toOption.isNone) ∧
    ([0x06000000#32, 0x10000000#32, 0x13000000#32, 0x20000000#32, 0x050000FF#32, 0x230001FF#32, 0x240201FF#32, 0x260700FF#32].all
      fun w => (decode w).toOption.isSome) := by decide

theorem witness_StepRunsTheDecodedCommand : ({ State.reset with cmd := [.command 0x02000061#32] }).cmd = .command 0x02000061#32 :: [] ∧
    decode 0x02000061#32 = .ok (.count 0x61#8) := by decide

theorem witness_PlacedWordRunsNext : (Instr.rdNode 511#9 0#2).wellFormed = true := by decide

theorem witness_IdleCoreKeepsItsState : aaabTree.cmd = [] := by decide +kernel

theorem witness_IllegalWordFaultsOrIsRefused :
    ({ aaab with cmd := [.command 0x07000000#32] }).cmd = .command 0x07000000#32 :: [] ∧ decode 0x07000000#32 = .error .opcode ∧
    ({ aaab with cmd := [.command 0x07000000#32] }).fault = false ∧
    (faulted 3#4 { aaab with cmd := [.command 0x07000000#32] }).fault = true := by decide +kernel

theorem witness_SelectorThreeRunsAsIllegal : aaab.fault = false ∧ (faulted 3#4 aaab).fault = true := by decide +kernel

/-- A word whose response has the error bit, and one whose response has not. -/
theorem witness_EveryWordGetsOneResponse : aaab.fault = false ∧ onNext (runWord 0x24030000#32 aaab) (responded true 0#32) ∧
    onNext (runWord 0x22000061#32 aaab) (responded false 3#32) := by decide +kernel

theorem witness_StepNeverRetractsOutput : ∃ s t : State, step s = .next t ∧ s.out = [1#8] ∧ t.out = [1#8, 0xE0#8] := by
  obtain ⟨t, h, ht⟩ := exists_of_onNext (r := step { withCodes [] 0x0E#8 4#3 State.reset with cmd := [.command 0x06000000#32], out := [1#8] })
    (p := fun t => t.out == [1#8, 0xE0#8]) (by decide +kernel)
  exact ⟨_, t, h, rfl, by simpa using ht⟩

/-- `ENC` of a code of 256 bits with 7 pending, `FLUSH` with 7 pending, and a command that is neither. -/
theorem witness_EmittedByteBounds :
    (∃ s t : State, exec (.enc 0x61#8) s = .next t ∧ (clenAt s 0x61#8).toNat ≤ 256 ∧ t.out.length = 32) ∧
    (∃ s t : State, exec .flush s = .next t ∧ t.out.length = 1) ∧ (∃ s t : State, exec .nop s = .next t) := by
  obtain ⟨t, h, ht⟩ := exists_of_onNext (r := exec (.enc 0x61#8) (withCodes [(0x61#8, List.replicate 256 true)] 0x7F#8 7#3 State.reset))
    (p := fun t => t.out.length == 32) (by decide +kernel)
  obtain ⟨u, h', hu⟩ := exists_of_onNext (r := exec .flush (withCodes [] 0x7F#8 7#3 State.reset))
    (p := fun t => t.out.length == 1) (by decide +kernel)
  exact ⟨⟨_, t, h, by decide +kernel, by simpa using ht⟩, ⟨_, u, h', by simpa using hu⟩, ⟨State.reset, _, rfl⟩⟩

theorem witness_ResetOfAnIdleCore : ({ aaabTree with cmd := [.rst, .rst] }).cmd = .rst :: [.rst] := by decide +kernel

theorem witness_ResetDuringACommand : ({ aaabTree with cmd := [.commandThenRst 0x06000000#32 1] }).cmd =
    .commandThenRst 0x06000000#32 1 :: [] := by decide +kernel

/-- A `FLUSH` that emits one byte, into a sink that accepts one byte and into one that accepts none. -/
theorem witness_StalledSinkStopsTheCore :
    onNext (step { withCodes [] 0x7F#8 7#3 State.reset with cmd := [.commandWithStalledSink 0x06000000#32 1] }) (fun t => t.out.length == 1) ∧
    (match step { withCodes [] 0x7F#8 7#3 State.reset with cmd := [.commandWithStalledSink 0x06000000#32 0] } with
      | .fault .sinkStalled => true
      | _ => false) = true := by decide +kernel

theorem witness_NopRespondsAndChangesNothing : aaabTree.fault = false := by decide +kernel

/-- The three clauses; the first at the last count that does not overflow. -/
theorem witness_CountIncrementsItsEntry :
    (let s := freqs [(0xFF#8, 0xFFFFFFFE#32)]
     s.fault = false ∧ s.nnodes = 0#9 ∧ freqAt s 0xFF#8 ≠ 0xFFFFFFFF#32) ∧
    (aaabTree.fault = false ∧ aaabTree.nnodes ≠ 0#9) ∧
    (let s := freqs [(0xFF#8, 0xFFFFFFFF#32)]
     s.fault = false ∧ s.nnodes = 0#9 ∧ freqAt s 0xFF#8 = 0xFFFFFFFF#32) := by decide +kernel

/-- `COUNT` commands with others among them, and after them a read and a `MERGE` that faults; then the bound of the second clause. -/
theorem witness_FrequencySumLaw :
    (∃ (is js : List Instr) (u t : State), .clr ∉ is ∧ countedSyms is = [0x61#8, 0x62#8, 0x61#8] ∧
      execAll (.clr :: is) aaabTree = .next u ∧ u.fault = false ∧ .clr ∉ js ∧ countedSyms js = [] ∧ execAll js u = .next t ∧
      t.fault = true) ∧
    (∀ b : Byte, [0x61#8, 0x62#8].count b < 2 ^ 32) := by
  refine ⟨⟨[.nop, .count 0x61#8, .leaf 0x61#8, .pqInit, .count 0x62#8, .rdStatus, .count 0x61#8, .leaf 0x62#8],
    [.rdFreq 0x61#8, .merge], _, _, by decide, by decide, execAll_after _ _, by decide +kernel, by decide, by decide, execAll_after _ _,
    by decide +kernel⟩, fun b => ?_⟩
  have := List.count_le_length (a := b) (l := [0x61#8, 0x62#8])
  exact lt_of_le_of_lt this (by decide)

theorem witness_PqInitEmptiesQueueAndArena : aaabTree.fault = false ∧ aaabTree.size = 1#9 := by decide +kernel

/-- The first clause at sym = NEXTSYM, sym = 255 and the last free record; then the two faults. -/
theorem witness_LeafCreatesAndInsertsALeaf :
    (let s := after [.leaf 0x61#8] aaab
     s.fault = false ∧ s.nextsym.toNat = (0x62#8 : Byte).toNat ∧ freqAt s 0x62#8 ≠ 0#32 ∧ s.nnodes.toNat < 511 ∧ s.size.toNat < 256) ∧
    (let s := { freqs [(0xFF#8, 1#32)] with nnodes := 510#9, size := 255#9 }
     s.fault = false ∧ s.nextsym.toNat ≤ (0xFF#8 : Byte).toNat ∧ freqAt s 0xFF#8 ≠ 0#32 ∧ s.nnodes.toNat < 511 ∧ s.size.toNat < 256) ∧
    (aaabLeaves.fault = false ∧ (0x62#8 : Byte).toNat < aaabLeaves.nextsym.toNat) ∧
    (aaabLeaves.fault = false ∧ aaabLeaves.nextsym.toNat ≤ (0x63#8 : Byte).toNat ∧ freqAt aaabLeaves 0x63#8 = 0#32) := by decide +kernel

/-- A queue of one entry, one of 256, and the empty queue. -/
theorem witness_PqExtRemovesTheRoot :
    (aaabTree.fault = false ∧ aaabTree.size.toNat = 1) ∧
    (let s := { State.reset with size := 256#9 }
     s.fault = false ∧ s.size.toNat = 256) ∧
    (aaab.fault = false ∧ aaab.size = 0#9) := by decide +kernel

theorem witness_HeapPropertyPreserved :
    (∃ t, HeapOrdered aaabLeaves ∧ aaabLeaves.size = 2#9 ∧ pqInsert 5#9 aaabLeaves = .ok t) ∧
    (∃ t m, aaabLeaves.size.toNat ≤ 256 ∧ HeapOrdered aaabLeaves ∧ pqExtractMin aaabLeaves = .ok (t, m)) := by
  have h : aaabLeaves.size = 2#9 := by decide +kernel
  exact ⟨⟨_, inv_aaabLeaves.heapOrdered, h, pqInsert_ok.2 ⟨by simp [h], rfl⟩⟩, _, _, by simp [h], inv_aaabLeaves.heapOrdered,
    pqExtractMin_ok.2 ⟨by simp [h], rfl, rfl⟩⟩

/-- The first clause with two entries and with 256 and the last free record; the second with one entry and with none. -/
theorem witness_MergeJoinsTheTwoExtracted :
    (aaabLeaves.fault = false ∧ aaabLeaves.size.toNat = 2 ∧ aaabLeaves.nnodes.toNat < 511) ∧
    (let s := { State.reset with nnodes := 510#9, size := 256#9 }
     s.fault = false ∧ s.size.toNat = 256 ∧ s.nnodes.toNat < 511) ∧
    (aaabTree.fault = false ∧ aaabTree.size.toNat = 1) ∧ (aaab.fault = false ∧ aaab.size.toNat = 0) := by decide +kernel

theorem witness_MergeJoinsTheTwoLightest :
    ∃ t, Invariants aaabLeaves ∧ aaabLeaves.fault = false ∧ 2 ≤ aaabLeaves.size.toNat ∧ exec .merge aaabLeaves = .next t := by
  obtain ⟨t, h⟩ := exec_next .merge aaabLeaves
  exact ⟨t, inv_aaabLeaves, by decide +kernel, by decide +kernel, h⟩

theorem witness_BuildIsTheCommandSequence : aaab.fault = false ∧ ∃ b, freqAt aaab b ≠ 0#32 := ⟨by decide +kernel, 0x61#8, by decide +kernel⟩

/-- Two byte values present, and one alone. -/
theorem witness_BuildResult : (aaab.fault = false ∧ (∃ b, freqAt aaab b ≠ 0#32) ∧ presentSyms aaab = [0x61#8, 0x62#8]) ∧
    aaaa.fault = false ∧ (∃ b, freqAt aaaa b ≠ 0#32) ∧ presentSyms aaaa = [0x61#8] :=
  ⟨⟨by decide +kernel, ⟨0x61#8, by decide +kernel⟩, by decide +kernel⟩, by decide +kernel, ⟨0x61#8, by decide +kernel⟩, by decide +kernel⟩

theorem witness_BuildOfNothingFaults : State.reset.fault = false ∧ ∀ b, freqAt State.reset b = 0#32 :=
  ⟨rfl, (resetValues_resetCore State.reset).freq⟩

/-- A root that is internal with its two paths, a root that is a leaf, and a byte value that no leaf has. -/
theorem witness_GenAssignsTheTreePaths :
    (Invariants aaabTree ∧ aaabTree.fault = false ∧ aaabTree.cnt = 0#3 ∧ aaabTree.size = 1#9 ∧
      (nodeAt aaabTree (heapAt aaabTree 0)).kind = .internal ∧ TreePath aaabTree (heapAt aaabTree 0) [true] 0#9) ∧
    (Invariants aaaaTree ∧ aaaaTree.fault = false ∧ aaaaTree.cnt = 0#3 ∧ aaaaTree.size = 1#9 ∧
      (nodeAt aaaaTree (heapAt aaaaTree 0)).kind = .leaf ∧
      ∀ p l, TreePath aaaaTree (heapAt aaaaTree 0) p l → (nodeAt aaaaTree l).sym ≠ 0x62#8) := by
  have hi : (nodeAt aaabTree (heapAt aaabTree 0)).kind = .internal := by decide +kernel
  have hr : (nodeAt aaabTree (heapAt aaabTree 0)).right = 0#9 := by decide +kernel
  have hl : (nodeAt aaabTree 0#9).kind = .leaf := by decide +kernel
  have hk : (nodeAt aaaaTree (heapAt aaaaTree 0)).kind = .leaf := by decide +kernel
  have hs : (nodeAt aaaaTree (heapAt aaaaTree 0)).sym ≠ 0x62#8 := by decide +kernel
  refine ⟨⟨inv_aaabTree, by decide +kernel, by decide +kernel, by decide +kernel, hi, .right hi (by rw [hr]; exact .leaf hl)⟩,
    inv_aaaaTree, by decide +kernel, by decide +kernel, by decide +kernel, hk, ?_⟩
  intro p l h
  cases h with
  | leaf _ => exact hs
  | left h1 _ => simp [hk] at h1
  | right h1 _ => simp [hk] at h1

/-- Bits pending, no root, two roots. -/
theorem witness_GenFaultsInOrder :
    (let s := withCodes [] 1#8 1#3 aaabTree
     s.fault = false ∧ s.cnt ≠ 0#3) ∧
    (aaab.fault = false ∧ aaab.cnt = 0#3 ∧ aaab.size = 0#9) ∧
    (aaabLeaves.fault = false ∧ aaabLeaves.cnt = 0#3 ∧ aaabLeaves.size ≠ 0#9 ∧ aaabLeaves.size ≠ 1#9) := by decide +kernel

/-- Two coded byte values, and one. -/
theorem witness_GeneratedTableIsACompletePrefixCode :
    (∃ t, Invariants aaabTree ∧ aaabTree.fault = false ∧ exec .gen aaabTree = .next t ∧ t.fault = false ∧ (codedSyms t).length = 2) ∧
    (∃ t, Invariants aaaaTree ∧ aaaaTree.fault = false ∧ exec .gen aaaaTree = .next t ∧ t.fault = false ∧ codedSyms t = [0x61#8]) := by
  obtain ⟨t, h, ht⟩ := exists_of_onNext (r := exec .gen aaabTree) (p := fun t => !t.fault && (codedSyms t).length == 2) (by decide +kernel)
  obtain ⟨u, h', hu⟩ := exists_of_onNext (r := exec .gen aaaaTree) (p := fun t => !t.fault && codedSyms t == [0x61#8]) (by decide +kernel)
  simp at ht hu
  exact ⟨⟨t, inv_aaabTree, by decide +kernel, h, ht⟩, u, inv_aaaaTree, by decide +kernel, h', hu⟩

/-- The first clause with the longest code, the largest CNT and ACC at its bound; then the two faults. -/
theorem witness_EncAppendsTheCode :
    (let s := withCodes [(0x61#8, List.replicate 256 true)] 0x7F#8 7#3 State.reset
     s.fault = false ∧ s.codeValid = true ∧ clenAt s 0x61#8 ≠ 0#9 ∧ s.acc.toNat < 2 ^ s.cnt.toNat) ∧
    (aaabTree.fault = false ∧ aaabTree.codeValid = false) ∧
    (aaabCodes.fault = false ∧ aaabCodes.codeValid = true ∧ clenAt aaabCodes 0x63#8 = 0#9) := by decide +kernel

theorem witness_FlushPadsTheLastByte :
    (aaabCodes.fault = false ∧ aaabCodes.cnt = 0#3) ∧
    (let s := withCodes [] 0x7F#8 7#3 State.reset
     s.fault = false ∧ s.cnt ≠ 0#3) := by decide +kernel

theorem aaab_has_codes : ∀ b ∈ [0x61#8, 0x61#8, 0x61#8, 0x62#8], HasCode aaabCodes b := by
  have ha : HasCode aaabCodes 0x61#8 := by unfold HasCode; decide +kernel
  have hb : HasCode aaabCodes 0x62#8 := by unfold HasCode; decide +kernel
  intro b h
  simp at h
  rcases h with rfl | rfl <;> assumption

theorem witness_OutputStreamIsTheCodesPadded : aaabCodes.cnt = 0#3 ∧ aaabCodes.fault = false ∧ aaabCodes.codeValid = true ∧
    ∀ b ∈ [0x61#8, 0x61#8, 0x61#8, 0x62#8], HasCode aaabCodes b :=
  ⟨by decide +kernel, by decide +kernel, by decide +kernel, aaab_has_codes⟩

theorem witness_OutputDeterminesTheSymbols : ∃ (xs ys : List Byte) (t u : State), Invariants aaabCodes ∧ aaabCodes.cnt = 0#3 ∧
    aaabCodes.fault = false ∧ aaabCodes.codeValid = true ∧ (∀ b ∈ xs, HasCode aaabCodes b) ∧ (∀ b ∈ ys, HasCode aaabCodes b) ∧
    xs.length = ys.length ∧ execAll (xs.map .enc ++ [.flush]) aaabCodes = .next t ∧
    execAll (ys.map .enc ++ [.flush]) aaabCodes = .next u ∧ t.out = u.out :=
  ⟨_, _, _, _, inv_aaabCodes, by decide +kernel, by decide +kernel, by decide +kernel, aaab_has_codes, aaab_has_codes, rfl,
    execAll_after _ _, execAll_after _ _, rfl⟩

/-- The last live position, and SIZE itself with FAULT = 0 and with FAULT = 1. -/
theorem witness_RdPqReturnsTheLiveHandle :
    (1#9 : BitVec 9).toNat < aaabLeaves.size.toNat ∧
    (aaabLeaves.size.toNat ≤ (2#9 : BitVec 9).toNat ∧ aaabLeaves.fault = false) ∧
    ((faulted 4#4 aaabLeaves).size.toNat ≤ (2#9 : BitVec 9).toNat ∧ (faulted 4#4 aaabLeaves).fault = true) := by decide +kernel

/-- The last allocated handle, NNODES itself and NIL with FAULT = 0, NNODES with FAULT = 1. -/
theorem witness_RdNodeReturnsThePart :
    (2#9 : Handle).toNat < aaabTree.nnodes.toNat ∧
    (aaabTree.nnodes.toNat ≤ (3#9 : Handle).toNat ∧ aaabTree.nnodes.toNat ≤ (511#9 : Handle).toNat ∧ (2#2 : BitVec 2) ≠ 3#2 ∧
      aaabTree.fault = false) ∧
    ((faulted 4#4 aaabTree).nnodes.toNat ≤ (3#9 : Handle).toNat ∧ (faulted 4#4 aaabTree).fault = true) := by decide +kernel

theorem witness_ReadsChangeNothing :
    ((Instr.rdNode 2#9 2#2).isRead = true ∧ (Instr.rdNode 2#9 2#2).wellFormed = true ∧ firstFault (.rdNode 2#9 2#2) aaabTree = none) ∧
    ((Instr.rdPq 1#9).isRead = true ∧ (Instr.rdPq 1#9).wellFormed = true ∧ firstFault (.rdPq 1#9) aaabTree ≠ none ∧
      aaabTree.fault = false) ∧
    (firstFault (.rdPq 1#9) (faulted 4#4 aaabTree) ≠ none ∧ (faulted 4#4 aaabTree).fault = true) := by decide +kernel

theorem witness_FaultsArePrecise : ∃ t, aaabTree.fault = false ∧ exec .merge aaabTree = .next t ∧ t.fault = true := by
  obtain ⟨t, h, ht⟩ := exists_of_onNext (r := exec .merge aaabTree) (p := fun t => t.fault) (by decide +kernel)
  exact ⟨t, by decide +kernel, h, ht⟩

theorem witness_FaultedCoreRefuses : (faulted 4#4 aaabTree).fault = true ∧ (Instr.merge ≠ .clr ∧ Instr.merge.isRead = false) ∧
    ((Instr.rdPq 0#9).isRead = true ∧ firstFault (.rdPq 0#9) (faulted 4#4 aaabTree) = none) ∧
    ((Instr.rdPq 1#9).isRead = true ∧ (Instr.rdPq 1#9).wellFormed = true ∧ firstFault (.rdPq 1#9) (faulted 4#4 aaabTree) ≠ none) := by
  decide +kernel

/-- A faulted core that gets a refused command, `CLR` and RST. -/
theorem witness_OnlyClrOrResetLeavesTheFaultedState :
    (∃ s t : State, s.fault = true ∧ step s = .next t ∧ t.fault = true ∧ s.cmd ≠ []) ∧
    (∃ s t : State, s.fault = true ∧ step s = .next t ∧ t.fault = false ∧ s.cmd = [.command 0x01000000#32]) ∧
    (∃ s t : State, s.fault = true ∧ step s = .next t ∧ t.fault = false ∧ s.cmd = [.rst]) := by
  obtain ⟨t, h, ht⟩ := exists_of_onNext (r := step (faulted 4#4 { aaabTree with cmd := [.command 0x13000000#32] }))
    (p := fun t => t.fault) (by decide +kernel)
  obtain ⟨u, h', hu⟩ := exists_of_onNext (r := step (faulted 4#4 { aaabTree with cmd := [.command 0x01000000#32] }))
    (p := fun t => !t.fault) (by decide +kernel)
  obtain ⟨v, h'', hv⟩ := exists_of_onNext (r := step (faulted 4#4 { aaabTree with cmd := [.rst] }))
    (p := fun t => !t.fault) (by decide +kernel)
  simp at hu hv
  exact ⟨⟨_, t, rfl, h, ht, by simp [faulted]⟩, ⟨_, u, rfl, h', hu, rfl⟩, ⟨_, v, rfl, h'', hv, rfl⟩⟩

/-- A command whose check fails, one whose checks hold, and an illegal word. -/
theorem witness_TheFirstFailingCheckIsReported : Instr.merge.wellFormed = true ∧ Instr.gen.wellFormed = true ∧ Invariants aaabTree ∧ aaabTree.fault = false ∧ firstFault .merge aaabTree = some 4#4 ∧
    firstFault .gen aaabTree = none ∧ decode 0x24030000#32 = .error .selector :=
  ⟨by decide, by decide, inv_aaabTree, by decide +kernel, by decide +kernel, by decide +kernel, by decide⟩

theorem witness_DepthAndCapacityFaultsNeverHappen : ∃ s t : State, Invariants s ∧ s.err ≠ 10#4 ∧ s.err ≠ 11#4 ∧ s.cmd ≠ [] ∧ step s = .next t := by
  obtain ⟨t, h⟩ := exec_next .gen { aaabTree with cmd := [] }
  exact ⟨{ aaabTree with cmd := [.command 0x04000000#32] }, t, inv_aaabTree.congr rfl rfl rfl rfl rfl rfl rfl rfl rfl rfl rfl inv_aaabTree.errZero,
    by decide +kernel, by decide +kernel, by simp, h⟩

/-- A command that writes its elements, one that faults, and `CLR`. -/
theorem witness_OnlyTheNamedCommandsWriteAnElement : (∃ t, exec (.leaf 0x61#8) aaab = .next t ∧ t.size ≠ aaab.size) ∧
    (∃ t, exec .merge aaab = .next t ∧ t.fault ≠ aaab.fault) ∧
    (∃ t, exec .clr (faulted 4#4 aaab) = .next t ∧ t.fault ≠ (faulted 4#4 aaab).fault) := by
  obtain ⟨t, h, ht⟩ := exists_of_onNext (r := exec (.leaf 0x61#8) aaab) (p := fun t => t.size != aaab.size) (by decide +kernel)
  obtain ⟨u, h', hu⟩ := exists_of_onNext (r := exec .merge aaab) (p := fun t => t.fault != aaab.fault) (by decide +kernel)
  exact ⟨⟨t, h, by simpa using ht⟩, ⟨u, h', by simpa using hu⟩, ⟨_, rfl, by decide +kernel⟩⟩

theorem witness_EveryStepKeepsTheInvariants : ∃ s t : State, Invariants s ∧ s.cmd ≠ [] ∧ step s = .next t := by
  obtain ⟨s, t, h1, -, -, h2, h3⟩ := witness_DepthAndCapacityFaultsNeverHappen
  exact ⟨s, t, h1, h2, h3⟩

/-- Two states that differ in a heap entry and a record that are not live. -/
theorem witness_DeadStorageIsUnobservable : ∃ s t : State, s ≠ t ∧ SameLive s t ∧ Invariants s ∧ ∃ s', step s = .next s' := by
  refine ⟨State.reset, { State.reset with heap := Vector.replicate 256 7#9, node := Vector.replicate 511 (leafOf 1#8 1#40) }, ?_, ?_,
    inv_reset, _, rfl⟩
  · intro h
    have := congrArg (fun s => heapAt s 0) h
    revert this
    decide +kernel
  · exact {
      freq := rfl, nnodes := rfl, node := fun h hh => absurd hh (by simp [Allocated, State.reset]), size := rfl
      heap := fun i hi => absurd hi (by simp [State.reset]), nextsym := rfl, clen := rfl, code := fun _ => rfl, codeValid := rfl
      acc := rfl, cnt := rfl, fault := rfl, err := rfl, cmd := rfl, rsp := rfl, out := rfl }

theorem witness_CompressionRunProducesThePackedCodes : [0x61#8, 0x61#8, 0x61#8, 0x62#8] ≠ [] ∧
    ∀ b : Byte, [0x61#8, 0x61#8, 0x61#8, 0x62#8].count b < 2 ^ 32 :=
  ⟨by decide, fun b => lt_of_le_of_lt (List.count_le_length (a := b) (l := [0x61#8, 0x61#8, 0x61#8, 0x62#8])) (by decide)⟩

theorem witness_CompressionIsDeterministic : ∃ t t' : State, execAll (compress [0x61#8, 0x62#8]) aaabTree = .next t ∧
    execAll (compress [0x61#8, 0x62#8]) State.reset = .next t' ∧ [0x61#8, 0x62#8] ≠ ([] : List Byte) ∧
    ∀ b : Byte, [0x61#8, 0x62#8].count b < 2 ^ 32 :=
  ⟨_, _, execAll_after _ _, execAll_after _ _, by decide,
    fun b => lt_of_le_of_lt (List.count_le_length (a := b) (l := [0x61#8, 0x62#8])) (by decide)⟩

end Sys2Proof.Tests
end

section
/-! The obligations of the family 10_state.md: a step's dispatch (rule R21), the invariants (rule R35) and dead storage (rule R36). The
laws say what a command does; here they are carried through the port, to every event of the host (70_reset_and_hazards.md rule R203). -/

namespace Sys2Proof.Machine

/-! ## A step -/

theorem step_of_idle {s : State} (h : s.cmd = []) : step s = .next s := by simp [step, h]

theorem step_of_event {s : State} {e : HostEvent} {rest : List HostEvent} (h : s.cmd = e :: rest) :
    step s = onEvent e { s with cmd := rest } := by simp [step, h]

theorem runWord_of_decode {w : Word} {i : Instr} (h : decode w = .ok i) (s : State) : runWord w s = exec i s := by
  simp [runWord, h]

/-- Every word runs as a term of `Instr`: an illegal one as `RD_NODE 0, 3`, the term that is itself an illegal word (log entry 9). -/
theorem runWord_eq_exec (w : Word) : ∃ i, ∀ s, runWord w s = exec i s := by
  cases h : decode w with
  | ok i => exact ⟨i, runWord_of_decode h⟩
  | error r => exact ⟨.rdNode 0#9 3#2, fun s => by rw [exec_illFormed rfl]; simp [runWord, h]⟩

/-- What the host's next action leads to: a command that ran to completion, or the state after RST. -/
theorem onEvent_next_cases {e : HostEvent} {s t : State} (h : onEvent e s = .next t) :
    (∃ i, exec i s = .next t) ∨ ∃ u, t = resetCore u := by
  cases e with
  | rst => exact .inr ⟨s, (Host.Outcome.next.inj h).symm⟩
  | command w =>
    obtain ⟨i, hw⟩ := runWord_eq_exec w
    exact .inl ⟨i, (hw s).symm.trans h⟩
  | commandThenRst w taken =>
    obtain ⟨i, hw⟩ := runWord_eq_exec w
    obtain ⟨u, hu⟩ := exec_next i s
    simp only [onEvent, hw, hu] at h
    exact .inr ⟨_, (Host.Outcome.next.inj h).symm⟩
  | commandWithStalledSink w taken =>
    obtain ⟨i, hw⟩ := runWord_eq_exec w
    obtain ⟨u, hu⟩ := exec_next i s
    simp only [onEvent, hw, hu] at h
    split at h
    · exact .inl ⟨i, hu.trans h⟩
    · cases h

/-! ## The invariants (rule R35) -/

theorem invariants_reset : Invariants State.reset := inv_of_resetValues (resetValues_resetCore State.reset)

theorem Invariants.withCmd {s : State} (I : Invariants s) (c : List HostEvent) : Invariants { s with cmd := c } :=
  I.congr rfl rfl rfl rfl rfl rfl rfl rfl rfl rfl rfl I.errZero

theorem Invariants.onEvent_next {e : HostEvent} {s t : State} (I : Invariants s) (h : onEvent e s = .next t) : Invariants t := by
  rcases onEvent_next_cases h with ⟨i, hi⟩ | ⟨u, rfl⟩
  · exact I.exec hi
  · exact inv_of_resetValues (resetValues_resetCore u)

theorem Invariants.step_next {s t : State} (I : Invariants s) (h : step s = .next t) : Invariants t := by
  cases hc : s.cmd with
  | nil => rw [step_of_idle hc] at h; cases h; exact I
  | cons e rest => rw [step_of_event hc] at h; exact (I.withCmd rest).onEvent_next h

/-! ## Dead storage (rule R36) -/

/-- The same outcome but for dead storage: next states that agree on the live ranges, or the same stop. -/
inductive SameOutcome : Result → Result → Prop where
  | next {s t : State} : SameLive s t → SameOutcome (.next s) (.next t)
  | fault (r : Fault) : SameOutcome (.fault r) (.fault r)
  | refused (r : Refusal) : SameOutcome (.refused r) (.refused r)

theorem SameLive.refl (s : State) : SameLive s s := by constructor <;> intros <;> rfl

theorem SameLive.withCmd {s t : State} (L : SameLive s t) (c : List HostEvent) :
    SameLive { s with cmd := c } { t with cmd := c } :=
  { L with cmd := rfl, node := L.node, heap := L.heap, code := L.code }

theorem codeOf_clearState (s : State) (b : Byte) : codeOf (clearState s) b = [] := by simp [codeOf, clenAt_clearState]

/-- After `CLR` no element of the queue, the arena or a code is live. -/
theorem SameLive.clear {s t : State} (L : SameLive s t) : SameLive (clearState s) (clearState t) :=
  { L with
    freq := rfl, nnodes := rfl, size := rfl, nextsym := rfl, clen := rfl, codeValid := rfl
    acc := rfl, cnt := rfl, fault := rfl, err := rfl
    node := fun h hh => by simp [Allocated] at hh
    heap := fun i hi => by simp at hi
    code := fun b => by rw [codeOf_clearState, codeOf_clearState] }

theorem SameLive.sameOutcome_command {s t : State} {b b' : Except Cause (State × Word)} (L : SameLive s t)
    (hok : ∀ u d, b = .ok (u, d) → ∃ u', b' = .ok (u', d) ∧ SameLive u u') (herr : ∀ e, b = .error e → b' = .error e) :
    SameOutcome (command s b) (command t b') := by
  cases hf : s.fault with
  | true =>
    rw [command_faulted hf, command_faulted (L.fault ▸ hf)]
    exact .next (L.answer _)
  | false =>
    have hf' : t.fault = false := L.fault ▸ hf
    cases hb : b with
    | error e =>
      rw [herr e hb, command_error hf, command_error hf']
      exact .next (L.withFault _ _ _)
    | ok p =>
      obtain ⟨u', hb', Lu⟩ := hok p.1 p.2 hb
      rw [hb', command_ok hf, command_ok hf']
      exact .next (Lu.answer _)

theorem SameLive.sameOutcome_readCommand {s t : State} (L : SameLive s t) (d : Except Cause Word) :
    SameOutcome (readCommand s d) (readCommand t d) := by
  cases d with
  | ok d => exact .next (L.answer _)
  | error e =>
    simp only [readCommand, ← L.fault]
    cases s.fault with
    | true => exact .next (L.answer _)
    | false => exact .next (L.withFault _ _ _)

/-- No command looks at dead storage. -/
theorem SameLive.sameOutcome_exec {s t : State} (L : SameLive s t) (I : Invariants s) (i : Instr) :
    SameOutcome (exec i s) (exec i t) := by
  by_cases hc : i = .clr
  · subst hc; exact .next (L.clear.answer _)
  · cases hw : i.wellFormed with
    | false =>
      rw [exec_illFormed hw, exec_illFormed hw]
      exact L.sameOutcome_command (fun _ _ h => by cases h) fun _ h => h
    | true =>
      cases hr : i.isRead with
      | false =>
        rw [exec_command hr hc, exec_command hr hc]
        exact L.sameOutcome_command (fun _ _ => L.body_ok I) fun _ => L.body_error I.forest hr hc
      | true =>
        rw [exec_read hr hw, exec_read hr hw, ← L.readData i]
        exact L.sameOutcome_readCommand _

theorem SameLive.sameOutcome_runWord {s t : State} (L : SameLive s t) (I : Invariants s) (w : Word) :
    SameOutcome (runWord w s) (runWord w t) := by
  obtain ⟨i, hw⟩ := runWord_eq_exec w
  rw [hw, hw]
  exact L.sameOutcome_exec I i

theorem SameLive.emittedBetween_eq {s t s' t' : State} (L : SameLive s t) (L' : SameLive s' t') :
    emittedBetween s s' = emittedBetween t t' := by simp only [emittedBetween, L.out, L'.out]

theorem SameLive.resetCore_eq {s t : State} (L : SameLive s t) : resetCore s = resetCore t := by
  simp only [resetCore, L.cmd, L.rsp, L.out]

theorem SameLive.abandon_eq {s t s' t' : State} (L : SameLive s t) (L' : SameLive s' t') (taken : Nat) :
    abandon taken s s' = abandon taken t t' := by
  simp only [abandon, resetCore, L.emittedBetween_eq L', L.cmd, L.rsp, L.out]

theorem SameLive.sameOutcome_onEvent {s t : State} (L : SameLive s t) (I : Invariants s) (e : HostEvent) :
    SameOutcome (onEvent e s) (onEvent e t) := by
  cases e with
  | command w => exact L.sameOutcome_runWord I w
  | rst => simp only [onEvent, L.resetCore_eq]; exact .next (.refl _)
  | commandThenRst w taken =>
    have H := L.sameOutcome_runWord I w
    simp only [onEvent]
    generalize runWord w s = x, runWord w t = y at H ⊢
    cases H with
    | next L' => simp only [L.abandon_eq L']; exact .next (.refl _)
    | fault r => exact .fault r
    | refused r => exact .refused r
  | commandWithStalledSink w taken =>
    have H := L.sameOutcome_runWord I w
    simp only [onEvent]
    generalize runWord w s = x, runWord w t = y at H ⊢
    cases H with
    | next L' =>
      simp only [L.emittedBetween_eq L']
      split
      · exact .next L'
      · exact .fault _
    | fault r => exact .fault r
    | refused r => exact .refused r

theorem SameLive.sameOutcome_step {s t : State} (L : SameLive s t) (I : Invariants s) : SameOutcome (step s) (step t) := by
  cases hc : s.cmd with
  | nil =>
    rw [step_of_idle hc, step_of_idle (L.cmd ▸ hc)]
    exact .next L
  | cons e rest =>
    rw [step_of_event hc, step_of_event (L.cmd ▸ hc)]
    exact (L.withCmd rest).sameOutcome_onEvent (I.withCmd rest) e

/-! ## The obligations -/

/-- Settles O50: RST brings back the reset values, and every other step is a command, which keeps each part of the invariants. -/
theorem everyStepKeepsTheInvariants : Obligations.EveryStepKeepsTheInvariants := by
  unfold Obligations.EveryStepKeepsTheInvariants
  exact ⟨invariants_reset, fun _ _ I h => I.step_next h⟩

/-- Settles O52: steps from states that agree on the live ranges have the same outcome but for dead storage. -/
theorem deadStorageIsUnobservable : Obligations.DeadStorageIsUnobservable := by
  unfold Obligations.DeadStorageIsUnobservable
  intro s t L I
  have H := L.sameOutcome_step I
  constructor
  · intro s' h
    rw [h] at H
    generalize step t = y at H ⊢
    cases H with | next L' => exact ⟨_, rfl, L'⟩
  · intro r h
    rw [h] at H
    generalize step t = y at H ⊢
    cases H
    rfl

/-- Settles O4: the first entry of CMD is taken from the port and its word run. -/
theorem stepRunsTheDecodedCommand : Obligations.StepRunsTheDecodedCommand := by
  unfold Obligations.StepRunsTheDecodedCommand
  intro s w rest i hc hd
  rw [step_of_event hc]
  exact runWord_of_decode hd _

/-- Settles O51: the reset state has the values of rule R36, and those have the invariants. -/
theorem resetStateHasTheInvariants : Obligations.ResetStateHasTheInvariants := invariants_reset

end Sys2Proof.Machine
end

section
/-! The obligations of the family 20_memory.md: which commands append to OUT, how much, and that nothing takes a byte back (rule R56);
and which commands write each state element (rule R51). Both are read off `exec_cases`, the one list of what a command can do. -/

namespace Sys2Proof.Machine

/-! ## The output stream (rule R56) -/

/-- Only `ENC` and `FLUSH` touch OUT: `ENC` shifts the code of its symbol in, `FLUSH` pads the byte begun. -/
theorem exec_out {i : Instr} {s t : State} (h : exec i s = .next t) :
    t.out = s.out ∨ (∃ sym, i = .enc sym ∧ t.out = (shiftBits (codeOf s sym) s).out) ∨
      (i = .flush ∧ t.out = (flushBits s).out) := by
  rcases exec_cases h with ⟨-, rfl⟩ | ⟨-, -, rfl⟩ | ⟨-, e, rfl⟩ | ⟨-, -, d, -, rfl⟩ | ⟨-, -, -, u, d, hb, rfl⟩
  · exact .inl rfl
  · exact .inl rfl
  · exact .inl rfl
  · exact .inl rfl
  · obtain ⟨-, -, -, -, -, -, -, ⟨-, -, hout⟩ | ⟨sym, rfl⟩ | rfl⟩ := body_frame hb
    · exact .inl hout
    · obtain ⟨-, -, rfl, -⟩ := encBody_ok.1 hb
      exact .inr (.inl ⟨sym, rfl, rfl⟩)
    · cases hb
      exact .inr (.inr ⟨rfl, rfl⟩)

theorem exec_out_prefix {i : Instr} {s t : State} (h : exec i s = .next t) : s.out <+: t.out := by
  rcases exec_out h with hout | ⟨sym, -, hout⟩ | ⟨-, hout⟩
  · exact hout ▸ List.prefix_rfl
  · obtain ⟨bs, hbs, -⟩ := shiftBits_out (codeOf s sym) s
    exact ⟨bs, (hout.trans hbs).symm⟩
  · obtain ⟨bs, hbs, -⟩ := flushBits_out s
    exact ⟨bs, (hout.trans hbs).symm⟩

theorem runWord_next (w : Word) (s : State) : ∃ t, runWord w s = .next t := by
  obtain ⟨i, hw⟩ := runWord_eq_exec w
  exact hw s ▸ exec_next i s

theorem runWord_out_prefix {w : Word} {s t : State} (h : runWord w s = .next t) : s.out <+: t.out := by
  obtain ⟨i, hw⟩ := runWord_eq_exec w
  exact exec_out_prefix ((hw s).symm.trans h)

/-- RST keeps OUT, and RST during a command or a stalled sink takes back none of the bytes that were there before. -/
theorem onEvent_out_prefix {e : HostEvent} {s t : State} (h : onEvent e s = .next t) : s.out <+: t.out := by
  cases e with
  | command w => exact runWord_out_prefix h
  | rst => cases h; exact List.prefix_rfl
  | commandThenRst w taken =>
    obtain ⟨u, hu⟩ := runWord_next w s
    simp only [onEvent, hu] at h
    cases h
    exact List.prefix_append _ _
  | commandWithStalledSink w taken =>
    obtain ⟨u, hu⟩ := runWord_next w s
    simp only [onEvent, hu] at h
    split at h
    · cases h
      exact runWord_out_prefix hu
    · cases h

/-! ## The elements of the queue and the arena (rule R51) -/

/-- What `body_frame` says of the queue as a whole, element by element: `PQ_INIT` leaves HEAP and NODE, `PQ_EXT` leaves the arena and
NEXTSYM, `MERGE` leaves NEXTSYM. -/
theorem body_queue_frame {i : Instr} {s u : State} {d : Word} (h : body i s = .ok (u, d)) :
    (u.heap = s.heap ∨ (∃ sym, i = .leaf sym) ∨ i = .pqExt ∨ i = .merge ∨ i = .build) ∧
      (u.node = s.node ∨ (∃ sym, i = .leaf sym) ∨ i = .merge ∨ i = .build) ∧
      (u.size = s.size ∨ (∃ sym, i = .leaf sym) ∨ i = .pqExt ∨ i = .merge ∨ i = .build ∨ i = .pqInit) ∧
      (u.nnodes = s.nnodes ∨ (∃ sym, i = .leaf sym) ∨ i = .merge ∨ i = .build ∨ i = .pqInit) ∧
      (u.nextsym = s.nextsym ∨ (∃ sym, i = .leaf sym) ∨ i = .build ∨ i = .pqInit) := by
  obtain ⟨-, -, -, -, -, hq, -, -⟩ := body_frame h
  rcases hq with ⟨hnode, hnnodes, hheap, hsize, hnextsym⟩ | rfl | rfl | ⟨sym, rfl⟩ | rfl | rfl
  · exact ⟨.inl hheap, .inl hnode, .inl hsize, .inl hnnodes, .inl hnextsym⟩
  · simp
  · cases h; simp
  · simp
  · obtain ⟨m, e, -⟩ := pqExtBody_ok.1 h
    obtain ⟨-, -, rfl⟩ := pqExtractMin_ok.1 e
    simp
  · obtain ⟨-, p, e, -⟩ := mergeBody_ok.1 h
    simp [mergeStep_nextsym e]

/-! ## The obligations -/

/-- Settles O10: a step in an idle core keeps the state, and no event of the host takes a byte of OUT back. -/
theorem stepNeverRetractsOutput : Obligations.StepNeverRetractsOutput := by
  unfold Obligations.StepNeverRetractsOutput
  intro s t h
  cases hc : s.cmd with
  | nil => rw [step_of_idle hc] at h; cases h; exact List.prefix_rfl
  | cons e rest => rw [step_of_event hc] at h; exact onEvent_out_prefix (s := { s with cmd := rest }) h

/-- Settles O11: with at most 7 bits pending, a code of at most 256 bits fills at most (7 + 256) / 8 = 32 bytes. -/
theorem emittedByteBounds : Obligations.EmittedByteBounds := by
  unfold Obligations.EmittedByteBounds
  intro i s t h
  rcases exec_out h with hout | ⟨sym, rfl, hout⟩ | ⟨rfl, hout⟩
  · exact ⟨[], by simp [hout]⟩
  · obtain ⟨bs, hbs, hlen⟩ := shiftBits_out (codeOf s sym) s
    refine ⟨bs, hout.trans hbs, fun sym' hi hclen => ?_, fun hi => (nomatch hi), fun hne => absurd rfl (hne sym)⟩
    cases hi
    have hcnt := s.cnt.isLt
    rw [length_codeOf] at hlen
    omega
  · obtain ⟨bs, hbs, hlen⟩ := flushBits_out s
    refine ⟨bs, hout.trans hbs, fun sym hi => (nomatch hi), fun _ => ?_, fun _ hne => absurd rfl hne⟩
    rw [hlen]
    split <;> omega

/-- Settles O49: a refusal and a read write no element, a fault writes FAULT and ERR, `CLR` is named in every clause, and a command that
completes writes the elements of its own unit. -/
theorem onlyTheNamedCommandsWriteAnElement : Obligations.OnlyTheNamedCommandsWriteAnElement := by
  unfold Obligations.OnlyTheNamedCommandsWriteAnElement
  intro i s t h
  rcases exec_cases h with ⟨rfl, rfl⟩ | ⟨-, -, rfl⟩ | ⟨hf, e, rfl⟩ | ⟨-, -, d, -, rfl⟩ | ⟨-, hc, -, u, d, hb, rfl⟩
  · simp
  · simp
  · have hraise : ∃ code, raise e s = faultedWith code s := ⟨e.code, rfl⟩
    simp [hf, hraise]
  · simp
  · obtain ⟨hfault, herr, hcmd, -, hfreq, -, htable, hbuffer⟩ := body_frame hb
    obtain ⟨hheap, hnode, hsize, hnnodes, hnextsym⟩ := body_queue_frame hb
    simp only [hc, or_false]
    exact ⟨hfreq, hheap, hnode, hsize, hnnodes, hnextsym, htable, hbuffer.imp_left fun ⟨hacc, hcnt, _⟩ => ⟨hacc, hcnt⟩,
      .inl ⟨hfault, herr⟩, hcmd⟩

end Sys2Proof.Machine
end

section
/-! The obligations of the family 30_encoding.md: the decoder inverts the encoder (rule R81, rule R85), the illegal words (rule R86), and
the one response to every word (rule R84). -/

namespace Sys2Proof

/-! ## Decode after encode (rule R81, rule R85) -/

theorem opcodeOf_encode (i : Instr) : opcodeOf (encode i) = i.opcode := BitVec.extractLsb'_append_eq_left

theorem operandField_encode (i : Instr) {start len : Nat} (h : start + len ≤ 24) :
    (encode i).extractLsb' start len = i.operandBits.extractLsb' start len :=
  BitVec.extractLsb'_append_eq_of_add_le h

theorem formatN_encode {i : Instr} (hb : i.operandBits = 0#24) : formatN (encode i) i = .ok i := by
  simp [formatN, operandField_encode, hb]

theorem formatS_encode {i : Instr} {f : Byte → Instr} {sym : Byte} (hb : i.operandBits = 0#16 ++ sym) :
    formatS (encode i) f = .ok (f sym) := by
  have hz : (0#16 ++ sym).extractLsb' 8 16 = 0#16 := BitVec.extractLsb'_append_eq_left
  have hs : (0#16 ++ sym).extractLsb' 0 8 = sym := BitVec.extractLsb'_append_eq_right
  simp only [formatS, symOf, operandField_encode, Nat.reduceAdd, Nat.reduceLeDiff, hb, hz, hs, if_true]

theorem formatP_encode {i : Instr} {f : BitVec 9 → Instr} {idx : BitVec 9} (hb : i.operandBits = 0#15 ++ idx) :
    formatP (encode i) f = .ok (f idx) := by
  have hz : (0#15 ++ idx).extractLsb' 9 15 = 0#15 := BitVec.extractLsb'_append_eq_left
  have hi : (0#15 ++ idx).extractLsb' 0 9 = idx := BitVec.extractLsb'_append_eq_right
  simp only [formatP, idxOf, operandField_encode, Nat.reduceAdd, Nat.reduceLeDiff, hb, hz, hi, if_true]

/-- The four fields of formats H and C, a "zero" field over a short one over a "zero" field over a long one. -/
theorem fields_of_append {k l m n : Nat} (a : BitVec k) (b : BitVec l) (c : BitVec m) (d : BitVec n) :
    (a ++ b ++ c ++ d).extractLsb' (l + m + n) k = a ∧ (a ++ b ++ c ++ d).extractLsb' (m + n) l = b ∧
      (a ++ b ++ c ++ d).extractLsb' n m = c ∧ (a ++ b ++ c ++ d).extractLsb' 0 n = d := by
  refine ⟨?_, ?_, ?_, BitVec.extractLsb'_append_eq_right⟩
  · rw [BitVec.extractLsb'_append_eq_of_le (by omega), BitVec.extractLsb'_append_eq_of_le (by omega),
      show l + m + n - n - m = l by omega, BitVec.extractLsb'_append_eq_left]
  · rw [BitVec.extractLsb'_append_eq_of_le (by omega), BitVec.extractLsb'_append_eq_of_le (by omega),
      show m + n - n - m = 0 by omega, BitVec.extractLsb'_append_eq_right]
  · rw [BitVec.extractLsb'_append_eq_of_le le_rfl, Nat.sub_self, BitVec.extractLsb'_append_eq_right]

theorem formatH_encode {i : Instr} {f : Handle → BitVec 2 → Instr} {h : Handle} {sel : BitVec 2} (hs : sel ≠ 3#2)
    (hb : i.operandBits = 0#6 ++ sel ++ 0#7 ++ h) : formatH (encode i) f = .ok (f h sel) := by
  obtain ⟨hz, hsel, hz', hh⟩ := fields_of_append 0#6 sel 0#7 h
  simp only [Nat.reduceAdd] at hz hsel hz' hh
  simp only [formatH, selOf, handleOf, operandField_encode, Nat.reduceAdd, Nat.reduceLeDiff, hb, hz, hsel, hz', hh, hs,
    and_true, if_true, if_false]

theorem formatC_encode {i : Instr} {f : Byte → BitVec 3 → Instr} {sym : Byte} {word : BitVec 3}
    (hb : i.operandBits = 0#5 ++ word ++ 0#8 ++ sym) : formatC (encode i) f = .ok (f sym word) := by
  obtain ⟨hz, hword, hz', hs⟩ := fields_of_append 0#5 word 0#8 sym
  simp only [Nat.reduceAdd] at hz hword hz' hs
  simp only [formatC, symOf, codeWordOf, operandField_encode, Nat.reduceAdd, Nat.reduceLeDiff, hb, hz, hword, hz', hs,
    and_true, if_true]

/-- The opcode picks the format, and the format reads back the operands that the encoder placed. -/
theorem decode_encode {i : Instr} (hw : i.wellFormed = true) : decode (encode i) = .ok i := by
  have ho := opcodeOf_encode i
  cases i <;> simp only [Instr.opcode] at ho <;> simp only [decode, ho, BitVec.reduceEq, if_true, if_false]
  case count | enc | leaf | rdFreq | rdClen => exact formatS_encode rfl
  case rdPq => exact formatP_encode rfl
  case rdNode h sel => exact formatH_encode (by simpa [Instr.wellFormed] using hw) rfl
  case rdCode => exact formatC_encode rfl
  all_goals exact formatN_encode rfl

theorem encode_of_decode {w : Word} {i : Instr} (h : decode w = .ok i) : encode i = w := by
  obtain ⟨hop, hbits, -⟩ := fields_of_decode h
  rw [encode, ← hop, ← hbits, word_eq_fields]

/-! ## The illegal words (rule R86) -/

/-- The opcodes of the commands of format N (rule R83). -/
abbrev opcodesN : List Nat := [0x00, 0x01, 0x03, 0x04, 0x06, 0x10, 0x12, 0x13, 0x20, 0x21]

/-- The opcodes of the commands of format S (rule R83). -/
abbrev opcodesS : List Nat := [0x02, 0x05, 0x11, 0x22, 0x25]

/-- An opcode is in one of the unassigned ranges or has one of the five formats. -/
theorem opcode_cases (w : Word) :
    (0x07 ≤ w.toNat / 2 ^ 24 ∧ w.toNat / 2 ^ 24 ≤ 0x0F) ∨ (0x14 ≤ w.toNat / 2 ^ 24 ∧ w.toNat / 2 ^ 24 ≤ 0x1F) ∨
      0x27 ≤ w.toNat / 2 ^ 24 ∨ w.toNat / 2 ^ 24 ∈ opcodesN ∨ w.toNat / 2 ^ 24 ∈ opcodesS ∨ w.toNat / 2 ^ 24 = 0x23 ∨
      w.toNat / 2 ^ 24 = 0x24 ∨ w.toNat / 2 ^ 24 = 0x26 := by
  simp only [List.mem_cons, List.not_mem_nil, or_false]
  omega

theorem opcodeOf_eq_ofNat (w : Word) : opcodeOf w = BitVec.ofNat 8 (w.toNat / 2 ^ 24) := by
  rw [← toNat_opcodeOf, BitVec.ofNat_toNat, BitVec.setWidth_eq]

theorem decode_eq_formatN {w : Word} (h : w.toNat / 2 ^ 24 ∈ opcodesN) : ∃ i, decode w = formatN w i := by
  simp only [List.mem_cons, List.not_mem_nil, or_false] at h
  rcases h with h | h | h | h | h | h | h | h | h | h <;>
  · simp only [decode, opcodeOf_eq_ofNat, h]
    exact ⟨_, rfl⟩

theorem decode_eq_formatS {w : Word} (h : w.toNat / 2 ^ 24 ∈ opcodesS) : ∃ f, decode w = formatS w f := by
  simp only [List.mem_cons, List.not_mem_nil, or_false] at h
  rcases h with h | h | h | h | h <;>
  · simp only [decode, opcodeOf_eq_ofNat, h]
    exact ⟨_, rfl⟩

theorem decode_eq_formatP {w : Word} (h : w.toNat / 2 ^ 24 = 0x23) : decode w = formatP w .rdPq := by
  simp only [decode, opcodeOf_eq_ofNat, h]; rfl

theorem decode_eq_formatH {w : Word} (h : w.toNat / 2 ^ 24 = 0x24) : decode w = formatH w .rdNode := by
  simp only [decode, opcodeOf_eq_ofNat, h]; rfl

theorem decode_eq_formatC {w : Word} (h : w.toNat / 2 ^ 24 = 0x26) : decode w = formatC w .rdCode := by
  simp only [decode, opcodeOf_eq_ofNat, h]; rfl

theorem not_and_eq_zero (w m : Word) : ~~~w &&& m = 0#32 ↔ w &&& m = m := by
  simp only [BitVec.eq_of_getLsbD_eq_iff, BitVec.getLsbD_and, BitVec.getLsbD_not, BitVec.getLsbD_zero]
  refine forall₂_congr fun k hk => ?_
  cases w.getLsbD k <;> cases m.getLsbD k <;> simp [hk]

/-- A field is all ones when the word has every bit of the field's mask. -/
theorem and_mask_eq_mask (w : Word) {start len : Nat} (h : start + len < 32) :
    w &&& ((BitVec.allOnes len).setWidth 32 <<< start) = (BitVec.allOnes len).setWidth 32 <<< start ↔
      w.extractLsb' start len = BitVec.allOnes len := by
  have hnot : (~~~w).extractLsb' start len = ~~~(w.extractLsb' start len) := BitVec.extractLsb'_not_of_lt h
  rw [← not_and_eq_zero, and_mask_eq_zero _ h.le, hnot, BitVec.not_eq_comm]
  simp [eq_comm]

theorem decode_error_formatN {w : Word} (h : w.toNat / 2 ^ 24 ∈ opcodesN) :
    (∃ r, decode w = .error r) ↔ w &&& 0x00FFFFFF#32 ≠ 0#32 := by
  obtain ⟨i, hd⟩ := decode_eq_formatN h
  have hmask : 0x00FFFFFF#32 = (BitVec.allOnes 24).setWidth 32 <<< 0 := by decide
  rw [hd, formatN_error, hmask, ne_eq, ne_eq, and_mask_eq_zero w (by decide)]

theorem decode_error_formatS {w : Word} (h : w.toNat / 2 ^ 24 ∈ opcodesS) :
    (∃ r, decode w = .error r) ↔ w &&& 0x00FFFF00#32 ≠ 0#32 := by
  obtain ⟨f, hd⟩ := decode_eq_formatS h
  have hmask : 0x00FFFF00#32 = (BitVec.allOnes 16).setWidth 32 <<< 8 := by decide
  rw [hd, formatS_error, hmask, ne_eq, ne_eq, and_mask_eq_zero w (by decide)]

theorem decode_error_formatP {w : Word} (h : w.toNat / 2 ^ 24 = 0x23) :
    (∃ r, decode w = .error r) ↔ w &&& 0x00FFFE00#32 ≠ 0#32 := by
  have hmask : 0x00FFFE00#32 = (BitVec.allOnes 15).setWidth 32 <<< 9 := by decide
  rw [decode_eq_formatP h, formatP_error, hmask, ne_eq, ne_eq, and_mask_eq_zero w (by decide)]

theorem decode_error_formatH {w : Word} (h : w.toNat / 2 ^ 24 = 0x24) :
    (∃ r, decode w = .error r) ↔ w &&& 0x00FCFE00#32 ≠ 0#32 ∨ w &&& 0x00030000#32 = 0x00030000#32 := by
  have hmask : 0x00FCFE00#32 = (BitVec.allOnes 6).setWidth 32 <<< 18 ||| (BitVec.allOnes 7).setWidth 32 <<< 9 := by decide
  have hsel : 0x00030000#32 = (BitVec.allOnes 2).setWidth 32 <<< 16 := by decide
  rw [decode_eq_formatH h, formatH_error, hmask, hsel, ne_eq, and_or_eq_zero, and_mask_eq_zero w (by decide),
    and_mask_eq_zero w (by decide), and_mask_eq_mask w (by decide)]
  rfl

theorem decode_error_formatC {w : Word} (h : w.toNat / 2 ^ 24 = 0x26) :
    (∃ r, decode w = .error r) ↔ w &&& 0x00F8FF00#32 ≠ 0#32 := by
  have hmask : 0x00F8FF00#32 = (BitVec.allOnes 5).setWidth 32 <<< 19 ||| (BitVec.allOnes 8).setWidth 32 <<< 8 := by decide
  rw [decode_eq_formatC h, formatC_error, hmask, ne_eq, and_or_eq_zero, and_mask_eq_zero w (by decide),
    and_mask_eq_zero w (by decide)]

/-- A word that decodes to a command has the command's opcode, and no command's opcode is in an unassigned range. -/
theorem decode_error_unassigned {w : Word}
    (h : (0x07 ≤ w.toNat / 2 ^ 24 ∧ w.toNat / 2 ^ 24 ≤ 0x0F) ∨ (0x14 ≤ w.toNat / 2 ^ 24 ∧ w.toNat / 2 ^ 24 ≤ 0x1F) ∨
      0x27 ≤ w.toNat / 2 ^ 24) : ∃ r, decode w = .error r := by
  cases hd : decode w with
  | error r => exact ⟨r, rfl⟩
  | ok i =>
    obtain ⟨hop, -, -⟩ := fields_of_decode hd
    rw [← toNat_opcodeOf, hop] at h
    cases i <;> simp [Instr.opcode] at h

end Sys2Proof

namespace Sys2Proof.Machine

/-! ## One response to every word (rule R84), the illegal ones included (rule R85) -/

/-- A completed command answers (0, d) and leaves FAULT as it was, `CLR` answers (0, 0) with FAULT = 0, and a refusal and a fault answer
(1, 0). -/
theorem exec_one_response {i : Instr} {s t : State} (h : exec i s = .next t) :
    ∃ r, t.rsp = s.rsp ++ [r] ∧ (r.err = true → r.data = 0#32) ∧ (s.fault = false → (r.err = true ↔ t.fault = true)) ∧
      t.cmd = s.cmd := by
  rcases exec_cases h with ⟨-, rfl⟩ | ⟨hf, -, rfl⟩ | ⟨-, e, rfl⟩ | ⟨-, -, d, -, rfl⟩ | ⟨-, -, -, u, d, hb, rfl⟩
  · exact ⟨⟨false, 0#32⟩, by simp⟩
  · exact ⟨⟨true, 0#32⟩, by simp [hf]⟩
  · exact ⟨⟨true, 0#32⟩, by simp⟩
  · exact ⟨⟨false, d⟩, by simp⟩
  · obtain ⟨hfault, -, hcmd, hrsp, -⟩ := body_frame hb
    exact ⟨⟨false, d⟩, by simp [hfault, hcmd, hrsp]⟩

theorem runWord_of_illegal {w : Word} {r : Illegal} (h : decode w = .error r) (s : State) : runWord w s = execIllegal s := by
  simp [runWord, h]

theorem execIllegal_ready {s : State} (h : s.fault = false) : execIllegal s = .next (faultedWith 1#4 s) := command_error h

theorem execIllegal_faulted {s : State} (h : s.fault = true) : execIllegal s = .next (refusedIn s) := command_faulted h _

/-! ## The obligations -/

/-- Settles O1: the encoder places the operands in the fields of the format that the opcode picks, and the decoder reads every bit of a
word it accepts, as the opcode, an operand or a zero. -/
theorem decodeAndEncodeAgree : Obligations.DecodeAndEncodeAgree := by
  unfold Obligations.DecodeAndEncodeAgree
  refine ⟨fun _ => decode_encode, fun w i h => ⟨?_, encode_of_decode h⟩⟩
  obtain ⟨-, -, hw⟩ := fields_of_decode h
  exact hw

/-- Settles O2: an unassigned opcode is always illegal, and for the opcodes of each format the format says which words are. -/
theorem illegalWordsAreThoseOfTheRule : Obligations.IllegalWordsAreThoseOfTheRule := by
  unfold Obligations.IllegalWordsAreThoseOfTheRule
  intro w
  constructor
  · intro he
    rcases opcode_cases w with h | h | h | hN | hS | hP | hH | hC
    · exact .inl h
    · exact .inr (.inl h)
    · exact .inr (.inr (.inl h))
    · exact .inr (.inr (.inr (.inl ⟨hN, (decode_error_formatN hN).1 he⟩)))
    · exact .inr (.inr (.inr (.inr (.inl ⟨hS, (decode_error_formatS hS).1 he⟩))))
    · exact .inr (.inr (.inr (.inr (.inr (.inl ⟨hP, (decode_error_formatP hP).1 he⟩)))))
    · exact .inr (.inr (.inr (.inr (.inr (.inr (.inl ⟨hH, (decode_error_formatH hH).1 he⟩))))))
    · exact .inr (.inr (.inr (.inr (.inr (.inr (.inr ⟨hC, (decode_error_formatC hC).1 he⟩))))))
  · rintro (h | h | h | ⟨hN, hz⟩ | ⟨hS, hz⟩ | ⟨hP, hz⟩ | ⟨hH, hz⟩ | ⟨hC, hz⟩)
    · exact decode_error_unassigned (.inl h)
    · exact decode_error_unassigned (.inr (.inl h))
    · exact decode_error_unassigned (.inr (.inr h))
    · exact (decode_error_formatN hN).2 hz
    · exact (decode_error_formatS hS).2 hz
    · exact (decode_error_formatP hP).2 hz
    · exact (decode_error_formatH hH).2 hz
    · exact (decode_error_formatC hC).2 hz

/-- Settles O9: every word runs as a term of `Instr`, and each end of a command issues one response. -/
theorem everyWordGetsOneResponse : Obligations.EveryWordGetsOneResponse := by
  unfold Obligations.EveryWordGetsOneResponse
  intro w s
  obtain ⟨i, hw⟩ := runWord_eq_exec w
  obtain ⟨t, ht⟩ := exec_next i s
  obtain ⟨r, hr⟩ := exec_one_response ht
  exact ⟨t, r, (hw s).trans ht, hr⟩

/-- Settles O3: the decoder evaluated on the six words. -/
theorem writtenWordsDecode : Obligations.WrittenWordsDecode := by
  unfold Obligations.WrittenWordsDecode
  decide

/-- Settles O7: an illegal word is dispatched as a command that fails with ERR_ILLCMD. -/
theorem illegalWordFaultsOrIsRefused : Obligations.IllegalWordFaultsOrIsRefused := by
  unfold Obligations.IllegalWordFaultsOrIsRefused
  intro s w rest r hc hd
  rw [step_of_event hc, onEvent, runWord_of_illegal hd]
  exact ⟨fun hf => execIllegal_ready (s := { s with cmd := rest }) hf,
    fun hf => execIllegal_faulted (s := { s with cmd := rest }) hf⟩

end Sys2Proof.Machine
end

section
/-! The obligations of the family 40_control_freq.md: `NOP` and `CLR` (rule R100, rule R101), `COUNT` with its two checks (rule R102), and
the sum law (rule R103), which is the run laws of `COUNT` started from the state after `CLR`. -/

namespace Sys2Proof.Machine

/-! ## CLR (rule R101) -/

theorem exec_clr (s : State) : exec .clr s = .next (respond 0#32 (clearState s)) := rfl

theorem execAll_clr (is : List Instr) (s : State) : execAll (.clr :: is) s = execAll is (respond 0#32 (clearState s)) :=
  execAll_cons_next (exec_clr s)

/-! ## The checks of COUNT (rule R102) -/

theorem countBody_seq {s : State} (sym : Byte) (hn : s.nnodes ≠ 0#9) : countBody sym s = .error .seq := by
  simp [countBody, hn]

theorem countBody_ovf {s : State} {sym : Byte} (hn : s.nnodes = 0#9) (hm : freqAt s sym = Config.freqMax) :
    countBody sym s = .error .ovf := by
  simp [countBody, hn, hm]

theorem exec_count_error {s : State} {sym : Byte} {e : Cause} (hf : s.fault = false) (hb : countBody sym s = .error e) :
    exec (.count sym) s = .next (faultedWith e.code s) := by
  rw [exec_command rfl (by simp), body, hb]
  exact command_error hf

/-! ## The sum law (rule R103) -/

theorem freqTotal_of_count {s : State} {syms : List Byte} (h : ∀ b, (freqAt s b).toNat = syms.count b) :
    freqTotal s = syms.length := by
  simp only [freqTotal, h, sum_count]

/-- Started by `CLR`, a run that ends with FAULT = 0 has counted from zero. -/
theorem freqAt_of_clr_run {is : List Instr} {s u : State} (hc : .clr ∉ is) (h : execAll (.clr :: is) s = .next u)
    (hf : u.fault = false) (b : Byte) : (freqAt u b).toNat = (countedSyms is).count b := by
  rw [execAll_clr] at h
  obtain ⟨-, hcount⟩ := execAll_counted is _ u hc h hf
  simpa [freqAt_clearState] using hcount b

/-! ## The obligations -/

/-- Settles O18: FREQ[sym] + 1 does not wrap below 2^32 - 1, and the two checks fail in the order of the pseudocode. -/
theorem countIncrementsItsEntry : Obligations.CountIncrementsItsEntry := by
  unfold Obligations.CountIncrementsItsEntry
  intro s sym hf
  refine ⟨fun hn hm => ?_, fun hn => exec_count_error hf (countBody_seq sym hn),
    fun hn hm => exec_count_error hf (countBody_ovf hn hm)⟩
  refine ⟨_, exec_count hf hn hm, rfl, ?_, fun b hb => ?_⟩
  · rw [freqAt_respond, freqAt_setFreq, if_pos rfl, count_increment hm]
  · rw [freqAt_respond, freqAt_setFreq, if_neg hb]

/-- Settles O19: up to u every `COUNT` has incremented its entry, and from u to t nothing writes FREQ. -/
theorem frequencySumLaw : Obligations.FrequencySumLaw := by
  unfold Obligations.FrequencySumLaw
  constructor
  · intro is js s u t hc hrun hf hc' hjs hrun'
    have hfreq : t.freq = u.freq := execAll_freq_frame hc' hjs hrun'
    have hcount : ∀ b, (freqAt t b).toNat = (countedSyms is).count b := fun b => by
      rw [freqAt_of_freq_eq hfreq, freqAt_of_clr_run hc hrun hf]
    exact ⟨hcount, freqTotal_of_count hcount⟩
  · intro syms s hsyms
    obtain ⟨t, hrun, ht, -⟩ := execAll_counts syms (respond 0#32 (clearState s)) rfl rfl fun b => by
      simpa [freqAt_clearState] using hsyms b
    exact ⟨t, (execAll_clr _ s).trans hrun, by rw [ht]; rfl⟩

/-- Settles O16: with FAULT = 0 the dispatch runs the pseudocode of `NOP`, which only responds. -/
theorem nopRespondsAndChangesNothing : Obligations.NopRespondsAndChangesNothing := by
  unfold Obligations.NopRespondsAndChangesNothing
  exact fun s hf => command_ok hf

/-- Settles O17: `CLR` is dispatched whatever FAULT is, and what it writes has the reset values. -/
theorem clrReturnsToTheResetState : Obligations.ClrReturnsToTheResetState := by
  unfold Obligations.ClrReturnsToTheResetState
  intro s
  have hreset : ResetValues (respond 0#32 (clearState s)) := { resetValues_clearState s with }
  exact ⟨_, exec_clr s, hreset, rfl, rfl, rfl⟩

end Sys2Proof.Machine
end

section
/-! The obligations of the family 41_priority_queue.md: `PQ_INIT`, `LEAF` and `PQ_EXT` (rule R118 to rule R120), the heap property (rule
R122), and the determinism of `COMPRESS` (rule R121), which holds because `CLR` leaves nothing live of what was there before. -/

namespace Sys2Proof.Machine

/-! ## The two ends of a command dispatched with FAULT = 0 (rule R174) -/

theorem exec_of_body_ok {i : Instr} {s u : State} {d : Word} (hr : i.isRead = false) (hc : i ≠ .clr) (hf : s.fault = false)
    (hb : body i s = .ok (u, d)) : exec i s = .next (respond d u) := by
  rw [exec_command hr hc, hb]
  exact command_ok hf

theorem exec_of_body_error {i : Instr} {s : State} {e : Cause} (hr : i.isRead = false) (hc : i ≠ .clr) (hf : s.fault = false)
    (hb : body i s = .error e) : exec i s = .next (faultedWith e.code s) := by
  rw [exec_command hr hc, hb]
  exact command_error hf

/-! ## LEAF (rule R119) -/

theorem leafBody_order {s : State} {sym : Byte} (hx : sym.toNat < s.nextsym.toNat) : leafBody sym s = .error .order := by
  simp [leafBody, Nat.not_le.2 hx]

theorem leafBody_zerow {s : State} {sym : Byte} (hx : s.nextsym.toNat ≤ sym.toNat) (hz : freqAt s sym = 0#32) :
    leafBody sym s = .error .zerow := by
  simp [leafBody, hx, hz]

/-- The registers after a leaf step, each count one higher. -/
theorem leafStep_registers {sym : Byte} {s t : State} {h : Handle} (e : leafStep sym s = .ok (t, h)) :
    t = { s with
      node := t.node, nnodes := s.nnodes + 1#9, heap := t.heap, size := s.size + 1#9, nextsym := sym.setWidth 9 + 1#9 } := by
  simp only [leafStep, except_bind_ok, except_pure, Except.ok.injEq, Prod.mk.injEq] at e
  obtain ⟨⟨u, h'⟩, ha, v, hi, rfl, rfl⟩ := e
  obtain ⟨-, rfl, rfl⟩ := nodeAlloc_ok.1 ha
  obtain ⟨-, rfl⟩ := pqInsert_ok.1 hi
  rfl

/-- The allocation before the insertion leaves HEAP and SIZE, and the steps after it leave the records. -/
theorem leafStep_siftedUp {sym : Byte} {s t : State} {h : Handle} (e : leafStep sym s = .ok (t, h)) :
    SiftedUp (wt t) s.size.toNat h (heapAt s) (heapAt t) := by
  simp only [leafStep, except_bind_ok, except_pure, Except.ok.injEq, Prod.mk.injEq] at e
  obtain ⟨⟨u, h'⟩, ha, v, hi, rfl, rfl⟩ := e
  obtain ⟨-, rfl, rfl⟩ := nodeAlloc_ok.1 ha
  have hsift := pqInsert_siftedUp hi
  obtain ⟨-, rfl⟩ := pqInsert_ok.1 hi
  exact hsift

/-! ## PQ_EXT (rule R120) -/

theorem pqExtBody_pqEmpty {s : State} (h : s.size = 0#9) : pqExtBody s = .error .pqEmpty := by
  simp [pqExtBody, h]

/-- The extracted root is not heavier than any entry that stays (rule R122). -/
theorem pqExtractMin_minimum {s t : State} {m : Handle} (e : pqExtractMin s = .ok (t, m)) (hs : s.size.toNat ≤ 256)
    (ho : HeapOrdered s) : ∀ x ∈ liveHeap t, wt s m ≤ wt s x := by
  intro x hx
  obtain ⟨-, -, rfl, -, hperm, -⟩ := pqExtractMin_spec e hs
  obtain ⟨i, hi, rfl⟩ := mem_liveHeap.1 (hperm.mem_iff.2 (List.mem_cons_of_mem _ hx))
  exact BitVec.le_def.2 (root_minimum ho i hi)

/-! ## Runs that start with CLR (rule R121) -/

/-- s after a first `CLR`, with nothing on the ports from before it. -/
def cleared (s : State) : State := respond 0#32 (clearState { s with cmd := [], rsp := [], out := [] })

theorem exec_clr_eq_rebase (s : State) : exec .clr s = .next (rebase s.cmd s.rsp s.out (cleared s)) := by
  rw [exec_clr]
  simp [rebase, cleared, respond, clearState]

theorem invariants_cleared (s : State) : Invariants (cleared s) := (inv_of_resetValues (resetValues_clearState _)).respond _

/-- Cleared states differ in dead storage alone. -/
theorem sameLive_cleared (s s' : State) : SameLive (cleared s) (cleared s') where
  freq := rfl
  nnodes := rfl
  node := fun h hh => by simp [cleared, Allocated] at hh
  size := rfl
  heap := fun i hi => by simp [cleared] at hi
  nextsym := rfl
  clen := rfl
  code := fun b => (codeOf_clearState _ b).trans (codeOf_clearState _ b).symm
  codeValid := rfl
  acc := rfl
  cnt := rfl
  fault := rfl
  err := rfl
  cmd := rfl
  rsp := rfl
  out := rfl

/-- A run does the same whatever the ports hold. -/
theorem execAll_rebase (c : List HostEvent) (r : List Response) (o : List Byte) : ∀ {is : List Instr} {s t : State},
    Invariants s → execAll is s = .next t → execAll is (rebase c r o s) = .next (rebase c r o t)
  | [], s, t, _, h => by cases h; rfl
  | i :: is, s, t, I, h => by
    obtain ⟨u, hu⟩ := exec_next i s
    rw [execAll_cons_next hu] at h
    rw [execAll_cons_next (exec_rebase c r o I.forest hu)]
    exact execAll_rebase c r o (I.exec hu) h

theorem SameLive.exec_next {i : Instr} {s s' t t' : State} (L : SameLive s s') (I : Invariants s) (h : exec i s = .next t)
    (h' : exec i s' = .next t') : SameLive t t' := by
  have H := L.sameOutcome_exec I i
  rw [h, h'] at H
  cases H with | next L' => exact L'

/-- Runs from states that agree on the live ranges end in such states. -/
theorem SameLive.execAll_next : ∀ {is : List Instr} {s s' t t' : State}, SameLive s s' → Invariants s →
    execAll is s = .next t → execAll is s' = .next t' → SameLive t t'
  | [], s, s', t, t', L, _, h, h' => by cases h; cases h'; exact L
  | i :: is, s, s', t, t', L, I, h, h' => by
    obtain ⟨u, hu⟩ := Machine.exec_next i s
    obtain ⟨u', hu'⟩ := Machine.exec_next i s'
    rw [execAll_cons_next hu] at h
    rw [execAll_cons_next hu'] at h'
    exact (L.exec_next I hu hu').execAll_next (I.exec hu) h h'

/-- A run that starts with `CLR` is the run from the cleared state, after what the ports held before. -/
theorem execAll_clr_cases {is : List Instr} {s t : State} (h : execAll (.clr :: is) s = .next t) :
    ∃ u, execAll is (cleared s) = .next u ∧ t = rebase s.cmd s.rsp s.out u := by
  obtain ⟨u, hu⟩ := execAll_next is (cleared s)
  rw [execAll_cons_next (exec_clr_eq_rebase s), execAll_rebase _ _ _ (invariants_cleared s) hu] at h
  exact ⟨u, hu, (Host.Outcome.next.inj h).symm⟩

/-- Any two runs of the same commands after `CLR` append the same bytes and leave the same codes. -/
theorem execAll_clr_deterministic {is : List Instr} {s s' t t' : State} (h : execAll (.clr :: is) s = .next t)
    (h' : execAll (.clr :: is) s' = .next t') :
    (∃ bs, t.out = s.out ++ bs ∧ t'.out = s'.out ++ bs) ∧ ∀ b, codeOf t b = codeOf t' b := by
  obtain ⟨u, hu, rfl⟩ := execAll_clr_cases h
  obtain ⟨u', hu', rfl⟩ := execAll_clr_cases h'
  have L : SameLive u u' := (sameLive_cleared s s').execAll_next (invariants_cleared s) hu hu'
  exact ⟨⟨u.out, rfl, congrArg (s'.out ++ ·) L.out.symm⟩, L.code⟩

/-! ## The obligations -/

/-- Settles O21: the leaf step is an allocation and then an insertion, and the two checks before it fail in the order of the
pseudocode. -/
theorem leafCreatesAndInsertsALeaf : Obligations.LeafCreatesAndInsertsALeaf := by
  unfold Obligations.LeafCreatesAndInsertsALeaf
  intro s sym hf
  refine ⟨fun hx hz hn hs => ?_, fun hx => exec_of_body_error (i := .leaf sym) rfl (by simp) hf (leafBody_order hx),
    fun hx hz => exec_of_body_error (i := .leaf sym) rfl (by simp) hf (leafBody_zerow hx hz)⟩
  obtain ⟨u, e⟩ := leafStep_completes sym hn hs
  obtain ⟨-, -, -, -, -, -, -, hrecord, hframe, -⟩ := leafStep_spec e
  have hsift := leafStep_siftedUp e
  refine ⟨_, exec_leaf hf hx hz e, ?_, hrecord, hframe, hsift⟩
  rw [leafStep_registers e]
  rfl

/-- Settles O22: with an entry in the queue `PQ_EXT` is `pq_extract_min`, and its one check fails on the empty queue. -/
theorem pqExtRemovesTheRoot : Obligations.PqExtRemovesTheRoot := by
  unfold Obligations.PqExtRemovesTheRoot
  intro s hf
  refine ⟨fun h1 hs => ?_, fun h0 => exec_of_body_error (i := .pqExt) rfl (by simp) hf (pqExtBody_pqEmpty h0)⟩
  obtain ⟨u, m, e⟩ := pqExtractMin_completes h1
  have hsift := pqExtractMin_siftedDown e hs
  have hexec : exec .pqExt s = .next (respond (m.setWidth 32) u) :=
    exec_of_body_ok rfl (by simp) hf (pqExtBody_ok.2 ⟨m, e, rfl⟩)
  refine ⟨_, hexec, ?_, hsift⟩
  obtain ⟨-, rfl, rfl⟩ := pqExtractMin_ok.1 e
  rfl

/-- Settles O23: the sift loops permute the entries and restore the heap property, and the root of an ordered heap is a lightest
entry. -/
theorem heapPropertyPreserved : Obligations.HeapPropertyPreserved := by
  unfold Obligations.HeapPropertyPreserved
  constructor
  · intro s t h ho e
    obtain ⟨-, -, -, hperm, hordered⟩ := pqInsert_spec e
    exact ⟨hordered ho, hperm⟩
  · intro s t m hs ho e
    obtain ⟨-, -, -, -, hperm, hordered⟩ := pqExtractMin_spec e hs
    exact ⟨hordered ho, hperm, pqExtractMin_minimum e hs ho⟩

/-- Settles O54: `COMPRESS` starts with `CLR`, after which no live element and no port tells the two runs apart. -/
theorem compressionIsDeterministic : Obligations.CompressionIsDeterministic := by
  unfold Obligations.CompressionIsDeterministic
  intro s s' t t' syms h h' _ _
  exact execAll_clr_deterministic h h'

/-- Settles O20: with FAULT = 0 the dispatch runs the pseudocode of `PQ_INIT`, which clears three registers. -/
theorem pqInitEmptiesQueueAndArena : Obligations.PqInitEmptiesQueueAndArena := by
  unfold Obligations.PqInitEmptiesQueueAndArena
  exact fun s hf => command_ok hf

end Sys2Proof.Machine
end

section
/-! The obligations of the family 42_tree_builder.md: `MERGE` (rule R130), which is two extractions, an allocation and an insertion, and
`BUILD` (rule R131 to rule R134), whose laws give its result and the run of commands it equals. -/

namespace Sys2Proof.Machine

/-! ## MERGE (rule R130) -/

theorem mergeBody_pqEmpty {s : State} (h : s.size.toNat < 2) : mergeBody s = .error .pqEmpty := by
  simp [mergeBody, Nat.not_le.2 h]

/-- The four internal operations a merge step is made of, in their order. -/
theorem mergeStep_operations {s t : State} {p : Handle} (e : mergeStep s = .ok (t, p)) :
    ∃ u l v r c, pqExtractMin s = .ok (u, l) ∧ pqExtractMin u = .ok (v, r) ∧
      nodeAlloc ⟨.internal, 0#8, wt v l + wt v r, l, r⟩ v = .ok (c, p) ∧ pqInsert p c = .ok t := by
  simp only [mergeStep, except_bind_ok, except_pure, Except.ok.injEq, Prod.mk.injEq] at e
  obtain ⟨⟨u, l⟩, eu, ⟨v, r⟩, ev, ⟨c, q⟩, ec, d, ed, rfl, rfl⟩ := e
  exact ⟨u, l, v, r, c, eu, ev, ec, ed⟩

/-- The registers after a merge step: two entries leave the queue and one enters it. -/
theorem mergeStep_registers {s t : State} {p : Handle} (e : mergeStep s = .ok (t, p)) :
    t = { s with node := t.node, nnodes := s.nnodes + 1#9, heap := t.heap, size := s.size - 1#9 } := by
  obtain ⟨u, l, v, r, c, eu, ev, ec, ed⟩ := mergeStep_operations e
  obtain ⟨-, -, rfl⟩ := pqExtractMin_ok.1 eu
  obtain ⟨-, -, rfl⟩ := pqExtractMin_ok.1 ev
  obtain ⟨-, -, rfl⟩ := nodeAlloc_ok.1 ec
  obtain ⟨-, rfl⟩ := pqInsert_ok.1 ed
  simp only [BitVec.sub_add_cancel]

/-- The two extracted handles are the children of the new node, which is sifted up in the queue they have left: the allocation leaves
that queue, and the insertion leaves the records. -/
theorem mergeStep_joins {s t : State} {p : Handle} (e : mergeStep s = .ok (t, p)) (hs : s.size.toNat ≤ 256) :
    ∃ u l v r, pqExtractMin s = .ok (u, l) ∧ pqExtractMin u = .ok (v, r) ∧
      nodeAt t p = ⟨.internal, 0#8, wt s l + wt s r, l, r⟩ ∧
      SiftedUp (wt t) (s.size.toNat - 2) p (heapAt v) (heapAt t) := by
  obtain ⟨u, l, v, r, c, eu, ev, ec, ed⟩ := mergeStep_operations e
  obtain ⟨-, husize, -, hu, -⟩ := pqExtractMin_spec eu hs
  obtain ⟨-, hvsize, -, hv, -⟩ := pqExtractMin_spec ev (by omega)
  obtain ⟨-, -, -, hc, hrecord, -⟩ := nodeAlloc_spec ec
  obtain ⟨-, -, ht, -⟩ := pqInsert_spec ed
  have hsift := pqInsert_siftedUp ed
  have hvnode : v.node = s.node := by rw [hv, hu]
  have htnode : t.node = c.node := by rw [ht]
  have hcheap : heapAt c = heapAt v := funext (heapAt_of_heap_eq (by rw [hc]))
  have hcsize : c.size.toNat = s.size.toNat - 2 := by
    have : c.size = v.size := by rw [hc]
    rw [this]; omega
  refine ⟨u, l, v, r, eu, ev, ?_, ?_⟩
  · rw [nodeAt_of_node_eq htnode, hrecord, wt_of_node_eq hvnode]
  · rwa [wt_of_node_eq htnode, ← hcheap, ← hcsize]

/-- The weights of two queue entries add up exactly (rule R35 item 7). -/
theorem Forest.add_exact {s : State} {l r : Handle} {rest : List Handle} (F : Forest s)
    (h : (liveHeap s).Perm (l :: r :: rest)) : (wt s l + wt s r).toNat = (wt s l).toNat + (wt s r).toNat := by
  have hne : l ≠ r := by
    rintro rfl
    simpa using h.nodup_iff.1 F.heapDistinct
  have hlt := F.add_lt (h.mem_iff.2 (by simp)) (h.mem_iff.2 (by simp)) hne
  rw [BitVec.toNat_add, Nat.mod_eq_of_lt hlt]

/-! ## BUILD (rule R131) -/

theorem buildBody_empty {s : State} (h : ∀ b, freqAt s b = 0#32) : buildBody s = .error .empty := by
  have hnone : (allSyms.any fun b => freqAt s b ≠ 0#32) = false := by simp [h]
  rw [buildBody, hnone, require_false, except_error_bind]

/-- A byte value plus one fits in NEXTSYM. -/
theorem nextsym_of_toNat {x : BitVec 9} {b : Byte} (h : x.toNat = b.toNat + 1) : x = b.setWidth 9 + 1#9 := by
  bv_omega

/-! ## The obligations -/

/-- Settles O24: with two entries queued `MERGE` is a merge step, and its one check fails on a shorter queue. -/
theorem mergeJoinsTheTwoExtracted : Obligations.MergeJoinsTheTwoExtracted := by
  unfold Obligations.MergeJoinsTheTwoExtracted
  intro s hf
  refine ⟨fun h2 hs hn => ?_, fun h => exec_of_body_error (i := .merge) rfl (by simp) hf (mergeBody_pqEmpty h)⟩
  obtain ⟨m, e⟩ := mergeStep_completes hn h2 hs
  obtain ⟨u, l, v, r, eu, ev, hrecord, hsift⟩ := mergeStep_joins e hs
  obtain ⟨-, -, -, -, -, -, -, -, -, -, hframe, -⟩ := mergeStep_spec e hs
  refine ⟨_, u, v, l, r, exec_merge hf h2 e, eu, ev, ?_, hrecord, hframe, hsift⟩
  rw [mergeStep_registers e]
  rfl

/-- Settles O25: in a state with the invariants `MERGE` completes, each extraction takes a lightest entry, and the sum of two queue
entries is exact. -/
theorem mergeJoinsTheTwoLightest : Obligations.MergeJoinsTheTwoLightest := by
  unfold Obligations.MergeJoinsTheTwoLightest
  intro s t I hf h2 h
  obtain ⟨hs, -⟩ := I.counts
  obtain ⟨m, e⟩ := I.forest.mergeStep_completes h2
  cases (exec_merge hf h2 e).symm.trans h
  obtain ⟨l, r, rest, -, -, -, -, -, -, hrecord, -, hperm, hperm', hlightest⟩ := mergeStep_spec e hs
  obtain ⟨hlr, hrest, -⟩ := hlightest I.heapOrdered
  refine ⟨l, r, rest, hperm, hperm', ?_, ?_, hlr, hrest, ?_⟩
  · rw [nodeAt_respond, hrecord]
  · rw [nodeAt_respond, hrecord]
  · rw [wt_respond, wt, hrecord]
    exact I.forest.add_exact hperm

/-- Settles O26: the run of commands ends where `BUILD` ends, and the root has the last handle allocated. -/
theorem buildIsTheCommandSequence : Obligations.BuildIsTheCommandSequence := by
  unfold Obligations.BuildIsTheCommandSequence
  intro s hf hp
  obtain ⟨t, e, ht, -, -, -, hlen, hnnodes, hroot, -⟩ := buildBody_spec hp
  obtain ⟨r, hrun⟩ := execAll_buildSequence hf e
  have hrsp : t.rsp = s.rsp := by rw [ht]; rfl
  refine ⟨_, r, exec_build hf e, hrun, ?_, ?_⟩
  · rw [respond_rsp, hrsp, heapAt_respond]
  · rw [heapAt_respond, respond_nnodes]; omega

/-- Settles O27: the law of `BUILD`, with what it leaves written out as a record. -/
theorem buildResult : Obligations.BuildResult := by
  unfold Obligations.BuildResult
  intro s hf hp
  obtain ⟨t, e, ht, -, -, hsize, hlen, hnnodes, hroot, hleaves, hinternal, hnextsym, hweight⟩ := buildBody_spec hp
  refine ⟨_, exec_build hf e, ?_, hnnodes, hroot, hleaves, hinternal, ?_, hweight⟩
  · rw [ht, withQueue, ← hsize]
    rfl
  · have hlast := List.getLast?_eq_some_getLast (List.ne_nil_of_length_pos hlen)
    rw [hlast] at hnextsym
    exact ⟨_, hlast, nextsym_of_toNat hnextsym⟩

/-- Settles O28: the check of `BUILD` fails before the queue is emptied. -/
theorem buildOfNothingFaults : Obligations.BuildOfNothingFaults := by
  unfold Obligations.BuildOfNothingFaults
  exact fun s hf h => exec_of_body_error (i := .build) rfl (by simp) hf (buildBody_empty h)

end Sys2Proof.Machine
end

section
/-! The obligations of the family 43_code_generator.md: the checks of `GEN` (rule R141), the codes it writes (rule R140 to rule R142), and
what the table it writes is (rule R144). -/

namespace Sys2Proof.Machine

/-! ## The checks of GEN (rule R141) -/

theorem genBody_pendingBits {s : State} (hc : s.cnt ≠ 0#3) : genBody s = .error .seq := by
  simp [genBody, hc]

theorem genBody_noRoot {s : State} (hc : s.cnt = 0#3) (hs : s.size = 0#9) : genBody s = .error .empty := by
  simp [genBody, hc, hs]

theorem genBody_manyRoots {s : State} (hc : s.cnt = 0#3) (h0 : s.size ≠ 0#9) (h1 : s.size ≠ 1#9) : genBody s = .error .seq := by
  simp [genBody, hc, h0, h1]

/-- A `GEN` that leaves FAULT at 0 has passed every check. -/
theorem genBody_of_exec {s t : State} (hf : s.fault = false) (h : exec .gen s = .next t) (ht : t.fault = false) :
    ∃ u d, genBody s = .ok (u, d) ∧ t = respond d u := by
  rcases command_cases h with ⟨hf', -⟩ | ⟨-, u, d, hb, rfl⟩ | ⟨-, e, -, rfl⟩
  · rw [hf] at hf'; cases hf'
  · exact ⟨u, d, hb, rfl⟩
  · cases ht

/-! ## The table GEN writes (rule R141, rule R144) -/

theorem genBody_frame {s u : State} {d : Word} (h : genBody s = .ok (u, d)) :
    u = { s with clen := u.clen, cbits := u.cbits, codeValid := true } := by
  obtain ⟨-, -, -, hu, -⟩ := genBody_ok.1 h
  rw [hu, writeCodes_frame]
  rfl

@[simp] theorem hasCode_respond (d : Word) (s : State) (b : Byte) : HasCode (respond d s) b ↔ HasCode s b := Iff.rfl

@[simp] theorem codedSyms_respond (d : Word) (s : State) : codedSyms (respond d s) = codedSyms s := rfl

@[simp] theorem prefixCode_respond (d : Word) (s : State) : PrefixCode (respond d s) ↔ PrefixCode s := Iff.rfl

/-- What a completed `GEN` does with a root that is a leaf (rule R142). -/
theorem Forest.genBody_loneLeaf {s u : State} {d : Word} (F : Forest s) (h : genBody s = .ok (u, d))
    (hk : (nodeAt s (heapAt s 0)).kind = .leaf) :
    codeOf u (nodeAt s (heapAt s 0)).sym = [false] ∧ clenAt u (nodeAt s (heapAt s 0)).sym = 1#9 := by
  have hmem : ((nodeAt s (heapAt s 0)).sym, [false]) ∈ genEntries s (heapAt s 0) := by simp [genEntries, hk]
  obtain ⟨hcode, hlen⟩ := F.codeOf_entry h hmem
  exact ⟨hcode, BitVec.eq_of_toNat_eq hlen⟩

/-- Rule R144 (b), (c) and the case n = 1, told apart by the number of coded byte values: a root that is a leaf gives one, an internal
root at least two. -/
theorem Forest.genBody_complete_by_count {s u : State} {d : Word} (F : Forest s) (h : genBody s = .ok (u, d)) :
    1 ≤ (codedSyms u).length ∧
    (2 ≤ (codedSyms u).length →
      (∀ b, HasCode u b → 1 ≤ (clenAt u b).toNat ∧ (clenAt u b).toNat ≤ (codedSyms u).length - 1) ∧
      ((codedSyms u).map fun b => 2 ^ (256 - (clenAt u b).toNat)).sum = 2 ^ 256) ∧
    (∀ b, codedSyms u = [b] → codeOf u b = [false]) := by
  obtain ⟨hinternal, hleaf⟩ := F.genBody_complete h
  cases hk : (nodeAt s (heapAt s 0)).kind with
  | internal =>
    obtain ⟨htwo, hcomplete⟩ := hinternal hk
    refine ⟨by omega, fun _ => hcomplete, fun b hb => ?_⟩
    rw [hb] at htwo
    exact absurd htwo (by simp)
  | leaf =>
    obtain ⟨hone, hcode⟩ := hleaf hk
    refine ⟨by simp [hone], fun htwo => ?_, fun b hb => ?_⟩
    · rw [hone] at htwo
      exact absurd htwo (by simp)
    · obtain rfl := List.singleton_inj.1 (hone.symm.trans hb)
      exact hcode

/-! ## The obligations -/

/-- Settles O29: in a state with the invariants `GEN` on one root completes, and writes a code for the path of every leaf. -/
theorem genAssignsTheTreePaths : Obligations.GenAssignsTheTreePaths := by
  unfold Obligations.GenAssignsTheTreePaths
  intro s I hf hc hs
  obtain ⟨u, hu⟩ := I.forest.genBody_completes hc hs
  refine ⟨_, exec_gen hf hu, ?_, ?_⟩
  · rw [genBody_frame hu]
    rfl
  · simp only [codeOf_respond, clenAt_respond]
    exact ⟨fun hk _ _ hpath => I.forest.codeOf_treePath hu hk hpath, I.forest.genBody_loneLeaf hu, fun _ => genBody_noCode hu⟩

/-- Settles O31: the laws of a `GEN` that passed its checks; its response changes nothing in the table. -/
theorem generatedTableIsACompletePrefixCode : Obligations.GeneratedTableIsACompletePrefixCode := by
  unfold Obligations.GeneratedTableIsACompletePrefixCode
  intro s t I hf h ht
  obtain ⟨u, d, hu, rfl⟩ := genBody_of_exec hf h ht
  simp only [hasCode_respond, prefixCode_respond, codedSyms_respond, clenAt_respond, codeOf_respond]
  exact ⟨I.forest.hasCode_iff_leaf hu, genBody_prefixCode hu, I.forest.genBody_complete_by_count hu⟩

/-- Settles O30: each clause is the first check of `GEN` that fails. -/
theorem genFaultsInOrder : Obligations.GenFaultsInOrder := by
  unfold Obligations.GenFaultsInOrder
  intro s hf
  exact ⟨fun hc => exec_of_body_error (i := .gen) rfl (by simp) hf (genBody_pendingBits hc),
    fun hc h0 => exec_of_body_error (i := .gen) rfl (by simp) hf (genBody_noRoot hc h0),
    fun hc h0 h1 => exec_of_body_error (i := .gen) rfl (by simp) hf (genBody_manyRoots hc h0 h1)⟩

end Sys2Proof.Machine
end

section
/-! The obligations of the family 44_bit_packer.md: the ends of `ENC` (rule R151) and of `FLUSH` (rule R152), the stream of a run of `ENC`
and one `FLUSH` (rule R153), and why that stream determines the symbols (rule R155): they are decoded from a prefix code. -/

namespace Sys2Proof.Machine

/-! ## ENC (rule R151) -/

theorem encBody_seq {s : State} (sym : Byte) (hv : s.codeValid = false) : encBody sym s = .error .seq := by
  simp [encBody, hv]

theorem encBody_nocode {s : State} {sym : Byte} (hv : s.codeValid = true) (hc : clenAt s sym = 0#9) :
    encBody sym s = .error .nocode := by
  simp [encBody, hv, hc]

/-- What shifting a bit string in emits, apart from what was in OUT before: the pending bits and the string, but for those still pending. -/
theorem shiftBits_emitted {cs : List Bool} {s : State} {bs : List Byte} (h : (shiftBits cs s).out = s.out ++ bs) :
    streamBits bs ++ pendingBits (shiftBits cs s) = pendingBits s ++ cs := by
  have hstream := shiftBits_stream cs s
  rw [h, streamBits_append] at hstream
  simpa only [List.append_assoc, List.append_cancel_left_eq] using hstream

/-! ## FLUSH (rule R152) -/

theorem flushBits_empty {s : State} (h : s.cnt = 0#3) : flushBits s = s := if_pos h

theorem flushBits_pending {s : State} (h : s.cnt ≠ 0#3) :
    flushBits s = { s with acc := 0#8, cnt := 0#3, out := s.out ++ [s.acc <<< (8 - s.cnt.toNat)] } := if_neg h

/-- The byte that `FLUSH` emits. -/
theorem byteBits_flushed {s : State} (h : s.cnt ≠ 0#3) :
    byteBits (s.acc <<< (8 - s.cnt.toNat)) = pendingBits s ++ List.replicate (8 - s.cnt.toNat) false := by
  have hstream := flushBits_stream s
  have hpos : s.cnt.toNat ≠ 0 := fun h0 => h (BitVec.eq_of_toNat_eq h0)
  have hpad : (8 - s.cnt.toNat) % 8 = 8 - s.cnt.toNat := Nat.mod_eq_of_lt (by omega)
  rw [flushBits_pending h, streamBits_append, streamBits_singleton, hpad] at hstream
  simpa only [List.append_assoc, List.append_cancel_left_eq] using hstream

/-! ## The codes of a symbol sequence (rule R153, rule R155) -/

theorem codeBits_cons (s : State) (b : Byte) (bs : List Byte) : codeBits s (b :: bs) = codeOf s b ++ codeBits s bs := by
  simp [codeBits]

theorem length_codeBits (s : State) (bs : List Byte) :
    (codeBits s bs).length = (bs.map fun b => (clenAt s b).toNat).sum := by
  simp [codeBits, List.length_flatMap]

/-- The first code of a stream is known: of two codes at its start one is a prefix of the other. -/
theorem PrefixCode.eq_of_append_eq {s : State} (P : PrefixCode s) {b c : Byte} (hb : HasCode s b) (hc : HasCode s c)
    {p q : List Bool} (h : codeOf s b ++ p = codeOf s c ++ q) : b = c := by
  by_contra hne
  rcases List.prefix_or_prefix_of_prefix (List.prefix_append _ p) (h ▸ List.prefix_append _ q) with hbc | hcb
  · exact P b c hb hc hne hbc
  · exact P c b hc hb (Ne.symm hne) hcb

/-- The round-trip law of rule R155 on bits: the decoder takes one code after another, as many as it is told, whatever stands behind
them. -/
theorem PrefixCode.eq_of_codeBits_append_eq {s : State} (P : PrefixCode s) : ∀ {xs ys : List Byte} {p q : List Bool},
    (∀ b ∈ xs, HasCode s b) → (∀ b ∈ ys, HasCode s b) → xs.length = ys.length →
    codeBits s xs ++ p = codeBits s ys ++ q → xs = ys
  | [], ys, _, _, _, _, hlen, _ => (List.length_eq_zero_iff.1 hlen.symm).symm
  | _ :: _, [], _, _, _, _, hlen, _ => nomatch hlen
  | x :: xs, y :: ys, p, q, hx, hy, hlen, h => by
    obtain ⟨hx, hxs⟩ := List.forall_mem_cons.1 hx
    obtain ⟨hy, hys⟩ := List.forall_mem_cons.1 hy
    rw [codeBits_cons, codeBits_cons, List.append_assoc, List.append_assoc] at h
    obtain rfl := P.eq_of_append_eq hx hy h
    rw [P.eq_of_codeBits_append_eq hxs hys (Nat.succ.inj hlen) (List.append_cancel_left h)]

/-! ## The obligations -/

/-- Settles O32: with a code for sym `ENC` shifts it in behind the pending bits, and its two checks fail in the order of the pseudocode. -/
theorem encAppendsTheCode : Obligations.EncAppendsTheCode := by
  unfold Obligations.EncAppendsTheCode
  intro s sym hf
  refine ⟨fun hv hc => ?_, fun hv => exec_of_body_error (i := .enc sym) rfl (by simp) hf (encBody_seq sym hv),
    fun hv hc => exec_of_body_error (i := .enc sym) rfl (by simp) hf (encBody_nocode hv hc)⟩
  obtain ⟨bs, hout, hlen⟩ := shiftBits_out (codeOf s sym) s
  have hcnt := shiftBits_cnt (codeOf s sym) s
  rw [length_codeOf] at hlen hcnt
  refine ⟨_, bs, exec_enc hf hv hc, ?_, shiftBits_emitted hout, hlen, hcnt, shiftBits_acc _⟩
  rw [← hout, shiftBits_frame]
  rfl

/-- Settles O33: `FLUSH` has no check of its own, and its effect is that of an empty or of a part-filled buffer. -/
theorem flushPadsTheLastByte : Obligations.FlushPadsTheLastByte := by
  unfold Obligations.FlushPadsTheLastByte
  intro s hf
  refine ⟨fun h => ?_, fun h => ⟨_, ?_, byteBits_flushed h⟩⟩
  · rw [exec_flush hf, flushBits_empty h]
    rfl
  · rw [exec_flush hf, flushBits_pending h]
    rfl

/-- Settles O34: the law of a whole stream, with the number of its code bits as the sum of the code lengths. -/
theorem outputStreamIsTheCodesPadded : Obligations.OutputStreamIsTheCodesPadded := by
  unfold Obligations.OutputStreamIsTheCodesPadded
  intro s syms h0 hf hv hb
  obtain ⟨t, bs, hrun, hout, ht, hcnt, hstream, hlen⟩ := execAll_stream h0 hf hv hb
  rw [length_codeBits] at hstream hlen
  refine ⟨t, bs, hrun, ?_, hcnt, hout, ?_, ?_, hlen, hstream⟩
  · rw [ht, hf]
  · rw [ht]
  · rw [ht]

/-- Settles O35: the two runs append the same bytes, each the codes of its symbols and padding, and the table is a prefix code. -/
theorem outputDeterminesTheSymbols : Obligations.OutputDeterminesTheSymbols := by
  unfold Obligations.OutputDeterminesTheSymbols
  intro s t u xs ys I h0 hf hv hx hy hlen ht hu hout
  obtain ⟨-, P⟩ := I.codeTable hv
  obtain ⟨t', bs, ht', htout, -, -, hbs, -⟩ := execAll_stream h0 hf hv hx
  obtain ⟨u', cs, hu', huout, -, -, hcs, -⟩ := execAll_stream h0 hf hv hy
  cases ht'.symm.trans ht
  cases hu'.symm.trans hu
  obtain rfl : bs = cs := List.append_cancel_left (htout.symm.trans (hout.trans huout))
  exact P.eq_of_codeBits_append_eq hx hy hlen (hbs.symm.trans hcs)

end Sys2Proof.Machine
end

section
/-! The obligations of the family 45_read_commands.md: what each read command returns (rule R160 to rule R166), and what all of them have in
common (rule R167). A read command is its `readData`: with data it answers, with an index out of range it faults or is refused. -/

namespace Sys2Proof.Machine

/-! ## The ends of a read command (rule R167) -/

theorem exec_of_readData_ok {i : Instr} {s : State} {d : Word} (hr : i.isRead = true) (hw : i.wellFormed = true)
    (hd : readData i s = .ok d) : exec i s = .next (answered d s) := by
  rw [exec_read hr hw, hd]
  rfl

theorem exec_of_readData_range {i : Instr} {s : State} (hr : i.isRead = true) (hw : i.wellFormed = true)
    (hd : readData i s = .error .range) :
    (s.fault = false → exec i s = .next (faultedWith 9#4 s)) ∧ (s.fault = true → exec i s = .next (refusedIn s)) := by
  rw [exec_read hr hw, hd]
  refine ⟨fun hf => ?_, fun hf => ?_⟩ <;> simp only [readCommand, hf] <;> rfl

/-- The responses issued so far are no operand of a read. -/
theorem readData_withRsp (i : Instr) (s : State) (r : List Response) : readData i { s with rsp := r } = readData i s := by
  cases i <;> rfl

/-! ## The indices that are checked (rule R163, rule R164) -/

theorem readData_rdPq_live {s : State} {idx : BitVec 9} (h : idx.toNat < s.size.toNat) :
    readData (.rdPq idx) s = .ok ((heapAt s idx.toNat).setWidth 32) := by
  simp [readData, heapOperand, h, Except.map]

theorem readData_rdPq_range {s : State} {idx : BitVec 9} (h : s.size.toNat ≤ idx.toNat) :
    readData (.rdPq idx) s = .error .range := by
  simp [readData, heapOperand, Nat.not_lt.2 h, Except.map]

theorem readData_rdNode_allocated {s : State} {h : Handle} (sel : BitVec 2) (hh : h.toNat < s.nnodes.toNat) :
    readData (.rdNode h sel) s = .ok (nodePart (nodeAt s h) sel) := by
  simp [readData, nodeOperand, hh, Except.map]

theorem readData_rdNode_range {s : State} {h : Handle} (sel : BitVec 2) (hh : s.nnodes.toNat ≤ h.toNat) :
    readData (.rdNode h sel) s = .error .range := by
  simp [readData, nodeOperand, Nat.not_lt.2 hh, Except.map]

theorem rdNode_wellFormed {h : Handle} {sel : BitVec 2} (hs : sel ≠ 3#2) : (Instr.rdNode h sel).wellFormed = true := by
  simpa [Instr.wellFormed] using hs

/-! ## The layouts (rule R32, rule R33, rule R164) -/

/-- A field above the top of a word reads 0. -/
theorem extractLsb'_eq_zero_of_width_le {w start : Nat} (len : Nat) (x : BitVec w) (h : w ≤ start) :
    x.extractLsb' start len = 0#len :=
  BitVec.eq_of_getLsbD_eq fun k _ => by simp [BitVec.getLsbD_of_ge x (start + k) (by omega)]

/-- Each field is what stands below it dropped, and then the low end of the rest. -/
theorem statusView_fields (s : State) :
    (statusView s).getLsbD 0 = s.fault ∧ (statusView s).getLsbD 1 = s.codeValid ∧ (statusView s).extractLsb' 2 2 = 0#2 ∧
      (statusView s).extractLsb' 4 4 = s.err ∧ (statusView s).extractLsb' 8 3 = s.cnt ∧
      (statusView s).extractLsb' 11 5 = 0#5 ∧ (statusView s).extractLsb' 16 8 = s.acc ∧
      (statusView s).extractLsb' 24 8 = 0#8 := by
  simp only [statusView, BitVec.extractLsb'_setWidth_of_le, BitVec.extractLsb'_append_eq_of_le, BitVec.extractLsb'_append_eq_right,
    BitVec.extractLsb'_eq_self, extractLsb'_eq_zero_of_width_le, BitVec.getLsbD_setWidth, BitVec.getLsbD_append,
    BitVec.getLsbD_ofBool, Nat.reduceSub, Nat.reduceLeDiff, Nat.le_refl, Nat.reduceLT, if_true, if_false, decide_true,
    Bool.true_and, and_self]

theorem pqstatView_fields (s : State) :
    (pqstatView s).extractLsb' 0 9 = s.size ∧ (pqstatView s).extractLsb' 9 1 = 0#1 ∧
      (pqstatView s).extractLsb' 10 9 = s.nnodes ∧ (pqstatView s).extractLsb' 19 1 = 0#1 ∧
      (pqstatView s).extractLsb' 20 9 = s.nextsym ∧ (pqstatView s).extractLsb' 29 3 = 0#3 := by
  simp only [pqstatView, BitVec.extractLsb'_setWidth_of_le, BitVec.extractLsb'_append_eq_of_le, BitVec.extractLsb'_append_eq_right,
    BitVec.extractLsb'_eq_self, extractLsb'_eq_zero_of_width_le, Nat.reduceSub, Nat.reduceLeDiff, Nat.le_refl, and_self]

theorem getLsbD_kindBit (k : NodeKind) : (kindBit k).getLsbD 0 = true ↔ k = .leaf := by
  cases k <;> decide

theorem nodeLinks_fields (n : Node) :
    ((nodeLinks n).getLsbD 26 = true ↔ n.kind = .leaf) ∧ (nodeLinks n).extractLsb' 18 8 = n.sym ∧
      (nodeLinks n).extractLsb' 9 9 = n.right ∧ (nodeLinks n).extractLsb' 0 9 = n.left ∧
      (nodeLinks n).extractLsb' 27 5 = 0#5 := by
  simp only [nodeLinks, BitVec.extractLsb'_setWidth_of_le, BitVec.extractLsb'_append_eq_of_le, BitVec.extractLsb'_append_eq_right,
    extractLsb'_eq_zero_of_width_le, BitVec.getLsbD_setWidth, BitVec.getLsbD_append, getLsbD_kindBit, Nat.reduceSub,
    Nat.reduceLeDiff, Nat.le_refl, Nat.reduceLT, if_false, decide_true, Bool.true_and, and_self]

theorem nodePart_links (n : Node) : nodePart n 0#2 = nodeLinks n := rfl

theorem toNat_nodePart_wtLo (n : Node) : (nodePart n 1#2).toNat = n.weight.toNat % 2 ^ 32 := by
  simp [nodePart]

theorem toNat_nodePart_wtHi (n : Node) : (nodePart n 2#2).toNat = n.weight.toNat / 2 ^ 32 := by
  have := n.weight.isLt
  simp [nodePart, Nat.shiftRight_eq_div_pow]
  omega

/-! ## The bits of a code (rule R166) -/

/-- The word whose first n bits, from bit 31 down, are p 0, p 1, …, and whose other bits are 0. -/
def wordOfBits (p : Nat → Bool) (n : Nat) : Word :=
  (List.range n).foldl (fun d i => if p i then d ||| BitVec.twoPow 32 (31 - i) else d) 0#32

theorem codeWord_eq_wordOfBits (s : State) (sym : Byte) (j : BitVec 3) :
    codeWord s sym j = wordOfBits (codeWordBit s sym j) 32 := rfl

theorem wordOfBits_succ (p : Nat → Bool) (n : Nat) :
    wordOfBits p (n + 1) = if p n then wordOfBits p n ||| BitVec.twoPow 32 (31 - n) else wordOfBits p n := by
  simp [wordOfBits, List.range_succ]

theorem getLsbD_wordOfBits (p : Nat → Bool) {i : Nat} (hi : i < 32) :
    ∀ {n : Nat}, n ≤ 32 → (wordOfBits p n).getLsbD (31 - i) = (decide (i < n) && p i)
  | 0, _ => by simp [wordOfBits]
  | n + 1, hn => by
    have ih := getLsbD_wordOfBits p hi (Nat.le_of_succ_le hn)
    have hpow : (BitVec.twoPow 32 (31 - n)).getLsbD (31 - i) = decide (i = n) := by
      rw [BitVec.getLsbD_twoPow, decide_eq_true (by omega), Bool.true_and, decide_eq_decide]
      omega
    rw [wordOfBits_succ, apply_ite (BitVec.getLsbD · (31 - i)), BitVec.getLsbD_or, ih, hpow]
    by_cases hin : i = n
    · simp [hin]
    · have hlt : i < n + 1 ↔ i < n := by omega
      simp [hin, hlt]

/-- A bit of the code, or 0 from CLEN on. -/
theorem codeWordBit_eq_getD (s : State) (sym : Byte) (j : BitVec 3) (i : Nat) :
    codeWordBit s sym j i = ((codeOf s sym)[32 * j.toNat + i]?).getD false := by
  by_cases h : 32 * j.toNat + i < (clenAt s sym).toNat
  · simp [codeWordBit, codeOf, h]
  · rw [List.getElem?_eq_none (by simpa using h)]
    simp [codeWordBit, h]

theorem getLsbD_codeWord (s : State) (sym : Byte) (j : BitVec 3) {i : Nat} (hi : i < 32) :
    (codeWord s sym j).getLsbD (31 - i) = ((codeOf s sym)[32 * j.toNat + i]?).getD false := by
  rw [codeWord_eq_wordOfBits, getLsbD_wordOfBits _ hi le_rfl, codeWordBit_eq_getD]
  simp [hi]

/-! ## The obligations -/

/-- Settles O40: an allocated handle reads the selected part of its record, every other one is out of range whatever is selected. -/
theorem rdNodeReturnsThePart : Obligations.RdNodeReturnsThePart := by
  unfold Obligations.RdNodeReturnsThePart
  intro s h
  refine ⟨fun hh => ?_, fun hh sel hs => exec_of_readData_range rfl (rdNode_wellFormed hs) (readData_rdNode_range sel hh)⟩
  have hread (sel : BitVec 2) (hs : sel ≠ 3#2) :
      exec (.rdNode h sel) s = .next (answered (nodePart (nodeAt s h) sel) s) :=
    exec_of_readData_ok rfl (rdNode_wellFormed hs) (readData_rdNode_allocated sel hh)
  exact ⟨⟨_, hread 0#2 (by decide), nodePart_links _ ▸ nodeLinks_fields _⟩, ⟨_, hread 1#2 (by decide), toNat_nodePart_wtLo _⟩,
    ⟨_, hread 2#2 (by decide), toNat_nodePart_wtHi _⟩⟩

/-- Settles O42: the bits of the word that `RD_CODE` builds. -/
theorem rdCodeReturnsTheBits : Obligations.RdCodeReturnsTheBits := by
  unfold Obligations.RdCodeReturnsTheBits
  intro s sym j
  exact ⟨_, exec_of_readData_ok (i := .rdCode sym j) rfl rfl rfl, fun _ hi => getLsbD_codeWord s sym j hi⟩

/-- Settles O43: a read has data exactly when no check of it fails, and the data does not depend on the responses before it. -/
theorem readsChangeNothing : Obligations.ReadsChangeNothing := by
  unfold Obligations.ReadsChangeNothing
  intro i s hr hw
  have hfaults := readData_faults hr hw s
  cases hd : readData i s with
  | ok d =>
    rw [hd] at hfaults
    exact ⟨fun _ => ⟨d, exec_of_readData_ok hr hw hd, fun r => exec_of_readData_ok hr hw ((readData_withRsp i s r).trans hd)⟩,
      fun hne => absurd hfaults hne⟩
  | error e =>
    rw [hd] at hfaults
    obtain ⟨hsome, rfl, hindexed⟩ := hfaults
    exact ⟨fun hnone => by simp [hnone] at hsome, fun _ => ⟨hindexed, exec_of_readData_range hr hw hd⟩⟩

/-- Settles O36: the fields of STATUS. -/
theorem rdStatusReturnsTheLayout : Obligations.RdStatusReturnsTheLayout := by
  unfold Obligations.RdStatusReturnsTheLayout
  intro s
  exact ⟨statusView s, exec_of_readData_ok (i := .rdStatus) rfl rfl rfl, statusView_fields s⟩

/-- Settles O37: the fields of PQSTAT. -/
theorem rdPqstatReturnsTheLayout : Obligations.RdPqstatReturnsTheLayout := by
  unfold Obligations.RdPqstatReturnsTheLayout
  intro s
  exact ⟨pqstatView s, exec_of_readData_ok (i := .rdPqstat) rfl rfl rfl, pqstatView_fields s⟩

/-- Settles O38: the read has no check, and its data is the count. -/
theorem rdFreqReturnsTheCount : Obligations.RdFreqReturnsTheCount := by
  unfold Obligations.RdFreqReturnsTheCount
  intro s sym
  exact exec_of_readData_ok (i := .rdFreq sym) rfl rfl rfl

/-- Settles O39: a position below SIZE is live, every other one is out of range. -/
theorem rdPqReturnsTheLiveHandle : Obligations.RdPqReturnsTheLiveHandle := by
  unfold Obligations.RdPqReturnsTheLiveHandle
  intro s idx
  have hrange (h : s.size.toNat ≤ idx.toNat) := exec_of_readData_range (i := .rdPq idx) rfl rfl (readData_rdPq_range h)
  exact ⟨fun h => exec_of_readData_ok rfl rfl (readData_rdPq_live h), fun h => (hrange h).1, fun h => (hrange h).2⟩

/-- Settles O41: the read has no check, of CODE_VALID neither, and its data is the length. -/
theorem rdClenReturnsTheLength : Obligations.RdClenReturnsTheLength := by
  unfold Obligations.RdClenReturnsTheLength
  intro s sym
  exact exec_of_readData_ok (i := .rdClen sym) rfl rfl rfl

end Sys2Proof.Machine
end

section
/-! The obligations of the family 60_exceptions.md: which fault a command with FAULT = 0 raises (rule R171) and that it is never ERR_DEPTH
or ERR_CAP (rule R170), and what a core with FAULT = 1 still does (rule R175) until `CLR` or RST (rule R176). -/

namespace Sys2Proof.Machine

/-! ## With FAULT = 0 (rule R171) -/

/-- The ill-formed term `RD_NODE h, 3` fails as the illegal word it encodes to (log entry 9). -/
theorem firstFault_illFormed {i : Instr} (hw : i.wellFormed = false) (s : State) : firstFault i s = some 1#4 := by
  cases i <;> simp [Instr.wellFormed] at hw
  simp [firstFault, hw]

theorem wellFormed_of_firstFault_none {i : Instr} {s : State} (h : firstFault i s = none) : i.wellFormed = true := by
  cases hw : i.wellFormed with
  | true => rfl
  | false => simp [firstFault_illFormed hw] at h

/-- With FAULT = 0 a command raises the fault of its first failing check, or completes without a fault when none fails. -/
theorem Forest.exec_faults_or_completes {s : State} (F : Forest s) (hf : s.fault = false) (i : Instr) :
    (∃ c, firstFault i s = some c ∧ exec i s = .next (faultedWith c s)) ∨
      (firstFault i s = none ∧ ∃ t, exec i s = .next t ∧ t.fault = false) := by
  cases hw : i.wellFormed with
  | false => exact .inl ⟨1#4, firstFault_illFormed hw s, (exec_illFormed hw s).trans (execIllegal_ready hf)⟩
  | true =>
    cases hr : i.isRead with
    | true =>
      have hfaults := readData_faults hr hw s
      cases hd : readData i s with
      | ok d =>
        rw [hd] at hfaults
        exact .inr ⟨hfaults, _, exec_of_readData_ok hr hw hd, hf⟩
      | error e =>
        rw [hd] at hfaults
        obtain ⟨hrange, rfl, -⟩ := hfaults
        exact .inl ⟨9#4, hrange, (exec_of_readData_range hr hw hd).1 hf⟩
    | false =>
      by_cases hc : i = .clr
      · subst hc
        exact .inr ⟨rfl, _, exec_clr s, rfl⟩
      · have hfaults := F.body_faults hr hc
        cases hb : body i s with
        | ok p =>
          rw [hb] at hfaults
          obtain ⟨hfault, -⟩ := body_frame hb
          exact .inr ⟨hfaults, _, exec_of_body_ok hr hc hf hb, hfault.trans hf⟩
        | error e =>
          rw [hb] at hfaults
          exact .inl ⟨e.code, hfaults, exec_of_body_error hr hc hf hb⟩

/-! ## With FAULT = 1 (rule R175, rule R176) -/

/-- In a faulted core `CLR` brings back the reset values; a refusal and a read keep FAULT and the first cause in ERR. -/
theorem exec_faulted_cases {i : Instr} {s t : State} (hf : s.fault = true) (h : exec i s = .next t) :
    (i = .clr ∧ ResetValues t) ∨ (t.fault = true ∧ t.err = s.err) := by
  rcases exec_cases h with ⟨rfl, -⟩ | ⟨-, -, rfl⟩ | ⟨hready, -⟩ | ⟨-, -, d, -, rfl⟩ | ⟨-, -, hready, -⟩
  · obtain ⟨u, hu, hreset, -⟩ := clrReturnsToTheResetState s
    cases h.symm.trans hu
    exact .inl ⟨rfl, hreset⟩
  · exact .inr ⟨hf, rfl⟩
  · rw [hf] at hready; cases hready
  · exact .inr ⟨hf, rfl⟩
  · rw [hf] at hready; cases hready

theorem runWord_faulted_cases {w : Word} {s t : State} (hf : s.fault = true) (h : runWord w s = .next t) :
    (decode w = .ok .clr ∧ ResetValues t) ∨ (t.fault = true ∧ t.err = s.err) := by
  cases hd : decode w with
  | ok i =>
    rw [runWord_of_decode hd] at h
    exact (exec_faulted_cases hf h).imp_left fun ⟨hi, hreset⟩ => ⟨congrArg _ hi, hreset⟩
  | error r =>
    rw [runWord_of_illegal hd, execIllegal_faulted hf] at h
    cases h
    exact .inr ⟨hf, rfl⟩

theorem runWord_of_stalledSink_next {w : Word} {taken : Nat} {s t : State}
    (h : onEvent (.commandWithStalledSink w taken) s = .next t) : runWord w s = .next t := by
  obtain ⟨u, hu⟩ := runWord_next w s
  simp only [onEvent, hu] at h
  split at h
  · exact hu.trans h
  · cases h

theorem resetValues_of_commandThenRst {w : Word} {taken : Nat} {s t : State}
    (h : onEvent (.commandThenRst w taken) s = .next t) : ResetValues t := by
  obtain ⟨u, hu⟩ := runWord_next w s
  simp only [onEvent, hu] at h
  cases h
  exact resetValues_resetCore _

/-! ## The fault code of a step -/

/-- What a command leaves in ERR: what was there, 0, or the code of its first failing check. -/
theorem Invariants.exec_err {i : Instr} {s t : State} (I : Invariants s) (h : Machine.exec i s = .next t) :
    t.err = s.err ∨ t.err = 0#4 ∨ firstFault i s = some t.err := by
  cases hf : s.fault with
  | true =>
    rcases exec_faulted_cases hf h with ⟨-, hreset⟩ | ⟨-, herr⟩
    · exact .inr (.inl hreset.err)
    · exact .inl herr
  | false =>
    rcases I.forest.exec_faults_or_completes hf i with ⟨c, hc, hexec⟩ | ⟨-, u, hexec, hu⟩
    · cases h.symm.trans hexec
      exact .inr (.inr hc)
    · cases h.symm.trans hexec
      exact .inr (.inl ((I.exec h).errZero hu))

theorem Invariants.onEvent_err {e : HostEvent} {s t : State} (I : Invariants s) (h : onEvent e s = .next t) :
    t.err = s.err ∨ t.err = 0#4 ∨ ∃ i, firstFault i s = some t.err := by
  rcases onEvent_next_cases h with ⟨i, hi⟩ | ⟨u, rfl⟩
  · exact (I.exec_err hi).imp_right (Or.imp_right fun hfault => ⟨i, hfault⟩)
  · exact .inr (.inl rfl)

/-! ## The obligations -/

/-- Settles O48: a step writes to ERR nothing but 0 and the codes of the checks that can fail, and neither code is among these. -/
theorem depthAndCapacityFaultsNeverHappen : Obligations.DepthAndCapacityFaultsNeverHappen := by
  unfold Obligations.DepthAndCapacityFaultsNeverHappen
  intro s t I h10 h11 h
  cases hc : s.cmd with
  | nil =>
    rw [step_of_idle hc] at h
    cases h
    exact ⟨h10, h11⟩
  | cons e rest =>
    rw [step_of_event hc] at h
    rcases (I.withCmd rest).onEvent_err h with herr | herr | ⟨i, hfault⟩
    · exact herr ▸ ⟨h10, h11⟩
    · exact herr ▸ ⟨by decide, by decide⟩
    · exact firstFault_ne hfault

/-- Settles O45: the dispatch refuses every command but `CLR` and the reads before it looks at a check, and a read does what O43 says. -/
theorem faultedCoreRefuses : Obligations.FaultedCoreRefuses := by
  unfold Obligations.FaultedCoreRefuses
  intro i s hf
  refine ⟨fun hc hr => ?_, fun hr hnone => ?_, fun hr hw hfail => ?_, fun hc => ?_⟩
  · rw [exec_command hr hc]
    exact command_faulted hf _
  · obtain ⟨hok, -⟩ := readsChangeNothing i s hr (wellFormed_of_firstFault_none hnone)
    obtain ⟨d, hd, -⟩ := hok hnone
    exact ⟨d, hd⟩
  · obtain ⟨-, hrange⟩ := readsChangeNothing i s hr hw
    obtain ⟨-, -, hrefused⟩ := hrange hfail
    exact hrefused hf
  · subst hc
    exact ⟨_, exec_clr s, rfl⟩

/-- Settles O46: of what the host can do, `CLR` and RST reach the reset values, and all else leaves FAULT and ERR as they are. -/
theorem onlyClrOrResetLeavesTheFaultedState : Obligations.OnlyClrOrResetLeavesTheFaultedState := by
  unfold Obligations.OnlyClrOrResetLeavesTheFaultedState
  intro s t hf h
  cases hc : s.cmd with
  | nil =>
    rw [step_of_idle hc] at h
    cases h
    exact .inl ⟨hf, rfl⟩
  | cons e rest =>
    rw [step_of_event hc] at h
    have hf' : { s with cmd := rest }.fault = true := hf
    cases e with
    | rst =>
      cases h
      exact .inr ⟨_, _, rfl, .inl rfl, resetValues_resetCore _⟩
    | commandThenRst w n => exact .inr ⟨_, _, rfl, .inr (.inl ⟨w, n, rfl⟩), resetValues_of_commandThenRst h⟩
    | command w =>
      rcases runWord_faulted_cases hf' h with ⟨hd, hreset⟩ | hkept
      · exact .inr ⟨_, _, rfl, .inr (.inr ⟨w, hd, .inl rfl⟩), hreset⟩
      · exact .inl hkept
    | commandWithStalledSink w n =>
      rcases runWord_faulted_cases hf' (runWord_of_stalledSink_next h) with ⟨hd, hreset⟩ | hkept
      · exact .inr ⟨_, _, rfl, .inr (.inr ⟨w, hd, .inr ⟨n, rfl⟩⟩), hreset⟩
      · exact .inl hkept

/-- Settles O47: with the invariants the checks the table leaves out cannot fail, and an illegal word is dispatched as a failing command. -/
theorem theFirstFailingCheckIsReported : Obligations.TheFirstFailingCheckIsReported := by
  unfold Obligations.TheFirstFailingCheckIsReported
  intro i s _ I hf
  have hillegal (w : Word) (r : Illegal) (hd : decode w = .error r) : runWord w s = .next (faultedWith 1#4 s) :=
    (runWord_of_illegal hd s).trans (execIllegal_ready hf)
  rcases I.forest.exec_faults_or_completes hf i with ⟨c, hc, hexec⟩ | ⟨hnone, hexec⟩
  · refine ⟨fun code hcode => ?_, fun hnone => ?_, hillegal⟩
    · cases hc.symm.trans hcode
      exact hexec
    · cases hc.symm.trans hnone
  · exact ⟨fun code hcode => (nomatch hnone.symm.trans hcode), fun _ => hexec, hillegal⟩

/-- Settles O6: with no entry in CMD there is nothing to do. -/
theorem idleCoreKeepsItsState : Obligations.IdleCoreKeepsItsState := by
  unfold Obligations.IdleCoreKeepsItsState
  exact fun _ => step_of_idle

end Sys2Proof.Machine
end

section
/-! The obligations of the family 70_reset_and_hazards.md: RST in an idle core (rule R190), and the compression run (rule R193), taken
phase by phase: the counts after `CLR`, the code table of `BUILD` and `GEN`, and the stream of `ENC` and `FLUSH`. -/

namespace Sys2Proof.Machine

/-! ## The phases of a compression run (rule R193) -/

theorem compress_eq_phases (syms : List Byte) :
    compress syms = .clr :: syms.map .count ++ ([.build, .gen] ++ (syms.map .enc ++ [.flush])) := by
  simp [compress]

/-- The counting phase: the table holds the counts of the input, and everything else is as `CLR` left it. -/
theorem execAll_clr_counts {syms : List Byte} (s : State) (hsyms : ∀ b, syms.count b < 2 ^ 32) :
    ∃ u, execAll (.clr :: syms.map .count) s = .next u ∧
      u = { clearState s with freq := u.freq, rsp := s.rsp ++ List.replicate (syms.length + 1) ⟨false, 0#32⟩ } ∧
      ∀ b, (freqAt u b).toNat = syms.count b := by
  obtain ⟨u, hrun, hu, hcount⟩ := execAll_counts syms (respond 0#32 (clearState s)) rfl rfl fun b => by
    simpa [freqAt_clearState] using hsyms b
  refine ⟨u, (execAll_clr _ s).trans hrun, ?_, fun b => by simpa [freqAt_clearState] using hcount b⟩
  rw [hu]
  simp [respond, List.replicate_succ]

theorem freqAt_ne_zero_of_mem {s : State} {syms : List Byte} (hcount : ∀ b, (freqAt s b).toNat = syms.count b) {b : Byte}
    (hb : b ∈ syms) : freqAt s b ≠ 0#32 := by
  intro h0
  have hpos := List.count_pos_iff.2 hb
  rw [← hcount, h0] at hpos
  exact absurd hpos (by decide)

/-- A counted byte value is present, and `BUILD` made it a leaf, which `GEN` gives a code. -/
theorem hasCode_of_build_gen {s t u : State} {d d' d'' : Word} (hb : buildBody s = .ok (t, d))
    (hg : genBody (respond d' t) = .ok (u, d'')) {b : Byte} (hfreq : freqAt s b ≠ 0#32) : HasCode u b := by
  obtain ⟨t', e, -, F, C, -, -, hnnodes, -, hleaves, -⟩ := buildBody_spec ⟨b, hfreq⟩
  cases e.symm.trans hb
  obtain ⟨k, hk, rfl⟩ := List.getElem_of_mem (mem_presentSyms.2 hfreq)
  have hrecord : nodeAt (respond d' t) (BitVec.ofNat 9 k) = leafRecordOf s (presentSyms s)[k] := hleaves k hk
  have hleaf : IsLeaf (respond d' t) (BitVec.ofNat 9 k) := by
    refine ⟨?_, by rw [hrecord]; rfl⟩
    have := t.nnodes.isLt
    rw [Allocated, respond_nnodes, ofNat_toNat_of_lt (by omega)]
    omega
  have hcode := (F.congr rfl rfl rfl rfl rfl rfl : Forest (respond d' t)).hasCode_of_leaf C hg hleaf
  rwa [hrecord] at hcode

/-- The coding phase: with a byte value counted and no bit pending `BUILD` and `GEN` complete, and every counted byte value has a code. -/
theorem execAll_build_gen {s : State} (hf : s.fault = false) (hc : s.cnt = 0#3) (hp : ∃ b, freqAt s b ≠ 0#32) :
    ∃ t d, execAll [.build, .gen] s = .next t ∧ t.fault = false ∧ t.cnt = 0#3 ∧ t.codeValid = true ∧ t.out = s.out ∧
      t.rsp = s.rsp ++ [⟨false, d⟩, ⟨false, 0#32⟩] ∧ ∀ b, freqAt s b ≠ 0#32 → HasCode t b := by
  obtain ⟨t, hbuild, ht, F, -, hsize, -⟩ := buildBody_spec hp
  generalize (heapAt t 0).setWidth 32 = d at hbuild
  have htf : (respond d t).fault = false := by rw [ht]; exact hf
  have htc : (respond d t).cnt = 0#3 := by rw [ht]; exact hc
  obtain ⟨u, hgen⟩ := (F.congr rfl rfl rfl rfl rfl rfl : Forest (respond d t)).genBody_completes htc hsize
  have hu := genBody_frame hgen
  refine ⟨respond 0#32 u, d, ?_, ?_, ?_, ?_, ?_, ?_, fun b hb => hasCode_of_build_gen hbuild hgen hb⟩
  · rw [execAll_cons_next (exec_build hf hbuild), execAll_cons_next (exec_gen htf hgen)]
    rfl
  · rw [hu]; exact htf
  · rw [hu]; exact htc
  · rw [hu]; rfl
  · rw [hu, ht]; rfl
  · rw [hu, ht]; simp [withQueue]

/-! ## The code table during the stream -/

theorem hasCode_of_clen_eq {s t : State} (h : t.clen = s.clen) {b : Byte} (hb : HasCode s b) : HasCode t b := by
  rwa [HasCode, clenAt_of_clen_eq h]

theorem codeBits_of_table_eq {s t : State} (h : t.clen = s.clen) (h' : t.cbits = s.cbits) (syms : List Byte) :
    codeBits t syms = codeBits s syms := by
  rw [codeBits, codeBits, funext (codeOf_of_table_eq h h')]

/-! ## The obligations -/

/-- Settles O53: after each phase the next one finds FAULT and CNT at 0 and what it asks for, so every command completes; the stream
writes no code, and a valid table is a prefix code by the invariants, which hold from `CLR` on. -/
theorem compressionRunProducesThePackedCodes : Obligations.CompressionRunProducesThePackedCodes := by
  unfold Obligations.CompressionRunProducesThePackedCodes
  intro s syms hne hsyms
  obtain ⟨u, hcountRun, hu, hcount⟩ := execAll_clr_counts s hsyms
  have hpresent : ∀ b ∈ syms, freqAt u b ≠ 0#32 := fun _ => freqAt_ne_zero_of_mem hcount
  obtain ⟨a, ha⟩ := List.exists_mem_of_ne_nil syms hne
  obtain ⟨v, d, htableRun, hvf, hvc, hvv, hvout, hvrsp, hcodes⟩ :=
    execAll_build_gen (by rw [hu]; rfl) (by rw [hu]; rfl) ⟨a, hpresent a ha⟩
  have hcoded : ∀ b ∈ syms, HasCode v b := fun b hb => hcodes b (hpresent b hb)
  obtain ⟨t, bs, hstreamRun, htout, ht, htc, hstream, hlen⟩ := execAll_stream hvc hvf hvv hcoded
  have hrun : execAll (compress syms) s = .next t := by
    rw [compress_eq_phases, execAll_append_next hcountRun, execAll_append_next htableRun, hstreamRun]
  have I : Invariants t := ((inv_of_resetValues (resetValues_clearState s)).respond 0#32).execAll
    ((execAll_clr _ s).symm.trans hrun)
  have hclen : t.clen = v.clen := by rw [ht]
  have hbits : codeBits t syms = codeBits v syms := codeBits_of_table_eq hclen (by rw [ht]) syms
  obtain ⟨-, hprefix⟩ := I.codeTable (by rw [ht]; exact hvv)
  rw [← hbits] at hstream hlen
  refine ⟨t, bs, List.replicate (syms.length + 1) ⟨false, 0#32⟩ ++ [⟨false, d⟩, ⟨false, 0#32⟩] ++
    List.replicate (syms.length + 1) ⟨false, 0#32⟩, hrun, by rw [ht]; exact hvf, ?_, ?_, ?_, hprefix,
    fun b hb => hasCode_of_clen_eq hclen (hcoded b hb), htc, ?_, hlen, hstream⟩
  · rw [ht, hvrsp, hu]
    simp only [List.append_assoc]
  · simp only [List.length_append, List.length_replicate, List.length_cons, List.length_nil]
    omega
  · simp [or_imp, forall_and]
  · rw [htout, hvout, hu]
    rfl

/-- Settles O13: the step runs the reset, which has the values of rule R36 and leaves the ports. -/
theorem resetOfAnIdleCore : Obligations.ResetOfAnIdleCore := by
  unfold Obligations.ResetOfAnIdleCore
  intro s rest h
  exact ⟨_, step_of_event h, resetValues_resetCore _, rfl, rfl, rfl⟩

end Sys2Proof.Machine
end

section
/-! The obligations that rest on choices of the model, which SPEC.md logs: the port convention (log entry 5), RST during a command and a
stalled sink (log entries 6 and 7), precise faults (log entry 8) and the term `RD_NODE h, 3` (log entry 9). -/

namespace Sys2Proof.Machine

/-! ## A placed word (log entry 5) -/

/-- A command word has 32 bits, so a table word of that size presents it whole. -/
@[simp] theorem withFetchWord_toNat (s : State) (w : Word) :
    s.withFetchWord 32 w.toNat = { s with cmd := .command w :: s.cmd } := by
  simp [State.withFetchWord, Nat.mod_eq_of_lt w.isLt]

/-! ## The bytes of a command that is cut short (log entries 6 and 7) -/

theorem emittedBetween_of_out {s t : State} {bs : List Byte} (h : t.out = s.out ++ bs) : emittedBetween s t = bs := by
  simp [emittedBetween, h]

/-- A word runs to completion and appends some bytes to OUT, which are those that `emittedBetween` reads off. -/
theorem runWord_emits (w : Word) (s : State) :
    ∃ t bs, runWord w s = .next t ∧ t.out = s.out ++ bs ∧ emittedBetween s t = bs := by
  obtain ⟨t, ht⟩ := runWord_next w s
  obtain ⟨bs, hbs⟩ := runWord_out_prefix ht
  exact ⟨t, bs, ht, hbs.symm, emittedBetween_of_out hbs.symm⟩

theorem onEvent_commandThenRst {w : Word} {s t : State} (taken : Nat) (h : runWord w s = .next t) :
    onEvent (.commandThenRst w taken) s = .next (abandon taken s t) := by simp [onEvent, h]

theorem onEvent_stalledSink {w : Word} {s t : State} (taken : Nat) (h : runWord w s = .next t) :
    onEvent (.commandWithStalledSink w taken) s =
      if (emittedBetween s t).length ≤ taken then .next t else .fault .sinkStalled := by simp [onEvent, h]

/-! ## The fault of a command (rule R172, rule R173) -/

/-- The cause codes are 1 to 11 (rule R170). -/
theorem code_bounds (e : Cause) : 1 ≤ e.code.toNat ∧ e.code.toNat ≤ 11 := by cases e <;> decide

theorem raise_eq_faultedWith (e : Cause) (s : State) : raise e s = faultedWith e.code s := rfl

/-- A command that starts with FAULT = 0 and ends with FAULT = 1 ended in a fault: every other end keeps FAULT or clears it. -/
theorem exec_faults_eq_raise {i : Instr} {s t : State} (hf : s.fault = false) (h : exec i s = .next t) (ht : t.fault = true) :
    ∃ e, t = raise e s := by
  rcases exec_cases h with ⟨-, rfl⟩ | ⟨hfaulted, -⟩ | ⟨-, hraise⟩ | ⟨-, -, d, -, rfl⟩ | ⟨-, -, -, u, d, hb, rfl⟩
  · cases ht
  · cases hf.symm.trans hfaulted
  · exact hraise
  · cases hf.symm.trans ht
  · obtain ⟨hfault, -⟩ := body_frame hb
    cases (hfault.trans hf).symm.trans ht

/-! ## The term `RD_NODE h, 3` (log entry 9) -/

/-- The selector is read after the "zero" fields, which the encoder leaves zero. -/
theorem decode_encode_selectorThree (h : Handle) : decode (encode (.rdNode h 3#2)) = .error .selector := by
  obtain ⟨hz, hsel, hz', -⟩ := fields_of_append 0#6 3#2 0#7 h
  simp only [Nat.reduceAdd] at hz hsel hz'
  have hop : opcodeOf (encode (.rdNode h 3#2)) = 0x24#8 := opcodeOf_encode _
  have hformat : decode (encode (.rdNode h 3#2)) = formatH (encode (.rdNode h 3#2)) .rdNode :=
    decode_eq_formatH (by rw [← toNat_opcodeOf, hop]; rfl)
  rw [hformat]
  simp only [formatH, selOf, operandField_encode, Nat.reduceAdd, Nat.reduceLeDiff, Instr.operandBits, hz, hsel, hz', and_self,
    if_true]

/-! ## The obligations -/

/-- Settles O14: the command abandoned is the run of the same word to completion, whose bytes are cut at the number taken. -/
theorem resetDuringACommand : Obligations.ResetDuringACommand := by
  unfold Obligations.ResetDuringACommand
  intro s rest w n hc
  obtain ⟨u, bs, hu, hout, hbytes⟩ := runWord_emits w { s with cmd := rest }
  refine ⟨_, u, bs, (step_of_event hc).trans (onEvent_commandThenRst n hu), hu, hout, resetValues_resetCore _, rfl, rfl, ?_⟩
  simp only [abandon, resetCore_out, hbytes]

/-- Settles O15: the step compares the number of bytes the word emits with the number the sink accepts. -/
theorem stalledSinkStopsTheCore : Obligations.StalledSinkStopsTheCore := by
  unfold Obligations.StalledSinkStopsTheCore
  intro s rest w n hc
  obtain ⟨u, bs, hu, hout, hbytes⟩ := runWord_emits w { s with cmd := rest }
  have hstep := (step_of_event hc).trans (onEvent_stalledSink n hu)
  rw [hbytes] at hstep
  exact ⟨u, bs, hu, hout, fun hle => hstep.trans (if_pos hle), fun hlt => hstep.trans (if_neg (Nat.not_le.2 hlt))⟩

/-- Settles O44: of the ends of a command only the fault sets FAULT, and the model raises it in the state before the command. -/
theorem faultsArePrecise : Obligations.FaultsArePrecise := by
  unfold Obligations.FaultsArePrecise
  intro i s t hf h ht
  obtain ⟨e, rfl⟩ := exec_faults_eq_raise hf h ht
  obtain ⟨hlow, hhigh⟩ := code_bounds e
  exact ⟨e.code, hlow, hhigh, raise_eq_faultedWith e s⟩

/-- Settles O5: the placed word is the first entry of CMD, it decodes to the command, and taking it gives the state back. -/
theorem placedWordRunsNext : Obligations.PlacedWordRunsNext := by
  unfold Obligations.PlacedWordRunsNext
  intro s i hw
  rw [withFetchWord_toNat]
  exact stepRunsTheDecodedCommand _ _ s.cmd i rfl (decode_encode hw)

/-- Settles O8: the term is dispatched as an illegal word, and its encoding is one, by its selector. -/
theorem selectorThreeRunsAsIllegal : Obligations.SelectorThreeRunsAsIllegal := by
  unfold Obligations.SelectorThreeRunsAsIllegal
  intro s h
  have hexec : exec (.rdNode h 3#2) s = execIllegal s := exec_illFormed rfl s
  refine ⟨decode_encode_selectorThree h, ?_, fun hf => ?_, fun hf => ?_⟩
  · exact hexec.trans (runWord_of_illegal (decode_encode_selectorThree h) s).symm
  · exact hexec.trans (execIllegal_ready hf)
  · exact hexec.trans (execIllegal_faulted hf)

/-- Settles O12: RST in the reset state is the reset state, which has the values of rule R36 and empty ports. -/
theorem resetStateHasTheResetValues : Obligations.ResetStateHasTheResetValues := by
  unfold Obligations.ResetStateHasTheResetValues
  exact ⟨resetValues_resetCore State.reset, rfl, rfl, rfl⟩

end Sys2Proof.Machine
end
